-- ==== Sys2Proof/Word.lean ====
section
/-! DEFINITION. The value types of 00_scope.md R9 and R10. A register of n bytes is a bit vector of 8n bits in the
big-endian reading of R10 (its byte 0 is the most significant), so `int128` and `bytes16` of the spec are the identity. -/

namespace Sys2Proof

/-- An unsigned 8-bit value (R9). -/
abbrev Byte := BitVec 8

/-- An unsigned 32-bit value, one bus word (R9). -/
abbrev Word := BitVec 32

/-- A 64-bit half of a field element, or a length counter (R10, R24). -/
abbrev Half := BitVec 64

/-- The 12 bytes of NONCE (R25). -/
abbrev Nonce := BitVec 96

/-- A block of 16 bytes `b[0] .. b[15]` in the reading `int128` of R10. -/
abbrev Block := BitVec 128

/-- The 32 bytes of KEY (R17). -/
abbrev Key := BitVec 256

end Sys2Proof
end

