-- ==== Sys2Proof/Machine/Bytes.lean ====
section
/-! DEFINITION. Byte and word views of a register (00_scope.md R9 to R11, 20_memory.md R36): the one place where byte
order is decided. Everything is big-endian (R35). -/

namespace Sys2Proof.Machine

/-- `b[i]`, byte i of a register, byte 0 the most significant (R10). -/
def byteOf {w : Nat} (b : BitVec w) (i : Nat) : Byte := b.extractLsb' (w - 8 * (i + 1)) 8

/-- Word k of a register: its bytes 4k to 4k+3, byte 4k in bits [31:24] (R36). -/
def wordOf {w : Nat} (b : BitVec w) (k : Nat) : Word := b.extractLsb' (w - 32 * (k + 1)) 32

/-- The register with its word k replaced by `v` (R36, R40). -/
def setWord {w : Nat} (b : BitVec w) (k : Nat) (v : Word) : BitVec w :=
  let shift := w - 32 * (k + 1)
  (b &&& ~~~ ((0xFFFFFFFF#32).setWidth w <<< shift)) ||| (v.setWidth w <<< shift)

/-- The block whose byte i is `f i`, for i in 0..15. -/
@[irreducible] def blockOf (f : Nat → Byte) : Block :=
  f 0 ++ f 1 ++ f 2 ++ f 3 ++ f 4 ++ f 5 ++ f 6 ++ f 7 ++
  f 8 ++ f 9 ++ f 10 ++ f 11 ++ f 12 ++ f 13 ++ f 14 ++ f 15

/-- `word(b0, b1, b2, b3)` (R10). -/
def wordBE (b0 b1 b2 b3 : Byte) : Word := b0 ++ b1 ++ b2 ++ b3

/-- The word of bytes 4k to 4k+3 of a byte string, zero past its end. -/
def wordAt (s : List Byte) (k : Nat) : Word :=
  wordBE (s.getD (4 * k) 0) (s.getD (4 * k + 1) 0) (s.getD (4 * k + 2) 0) (s.getD (4 * k + 3) 0)

/-- A byte string of at most 16 bytes as a block, padded with zero bytes to 16 (R98, `pad(s, 16)` of R116). -/
def blockAt (s : List Byte) : Block := blockOf fun i => s.getD i 0

/-- The 16 bytes of a block, byte 0 first. -/
def bytesOf (b : Block) : List Byte := (List.range 16).map (byteOf b)

/-- The four bytes of a word, most significant first. -/
def wordBytes (v : Word) : List Byte := [byteOf v 0, byteOf v 1, byteOf v 2, byteOf v 3]

/-- `S[r,c]` of a state in column-major order: the byte at offset `r + 4c` (R11). -/
def cell (s : Block) (r c : Nat) : Byte := byteOf s (r + 4 * c)

/-- The state whose byte at row r, column c is `f r c`, for r, c in 0..3 (R11). -/
def stateOf (f : Nat → Nat → Byte) : Block := blockOf fun i => f (i % 4) (i / 4)

/-- `blocks(s)` of R98: the `ceil(len/16)` pieces `s[16j .. 16j+15]`, the last one short if need be. -/
def chunksOf (s : List Byte) : List (List Byte) :=
  (List.range ((s.length + 15) / 16)).map fun j => (s.drop (16 * j)).take 16

end Sys2Proof.Machine
end

