-- ==== Sys2Proof/Machine/Round.lean ====
section
/-! DEFINITION. The round primitives of 42_round_primitives.md R74 to R80 as functions on a 16-byte state. -/

namespace Sys2Proof.Machine

/-- `SubBytes(S)` (R74). -/
def subBytes (s : Block) : Block := blockOf fun i => sbox (byteOf s i)

/-- `InvSubBytes(S)` (R75). -/
def invSubBytes (s : Block) : Block := blockOf fun i => invSbox (byteOf s i)

/-- `ShiftRows(S)`: `S'[r, c] = S[r, (c + r) mod 4]` (R76). -/
def shiftRows (s : Block) : Block := stateOf fun r c => cell s r ((c + r) % 4)

/-- `InvShiftRows(S)`: `S'[r, (c + r) mod 4] = S[r, c]`, read from the side of the result (R77). -/
def invShiftRows (s : Block) : Block := stateOf fun r c => cell s r ((c + 4 - r) % 4)

/-- Row r of the MixColumns matrix applied to the column `a0 a1 a2 a3` (R78). -/
def mixCell (a0 a1 a2 a3 : Byte) : Nat → Byte
  | 0 => gf8 2 a0 ^^^ gf8 3 a1 ^^^ a2 ^^^ a3
  | 1 => a0 ^^^ gf8 2 a1 ^^^ gf8 3 a2 ^^^ a3
  | 2 => a0 ^^^ a1 ^^^ gf8 2 a2 ^^^ gf8 3 a3
  | _ => gf8 3 a0 ^^^ a1 ^^^ a2 ^^^ gf8 2 a3

/-- `MixColumns(S)` (R78). -/
def mixColumns (s : Block) : Block :=
  stateOf fun r c => mixCell (cell s 0 c) (cell s 1 c) (cell s 2 c) (cell s 3 c) r

/-- The coefficients `n = (0e, 0b, 0d, 09)` of InvMixColumns (R79). -/
def invMixCoeff : Nat → Byte
  | 0 => 0x0e
  | 1 => 0x0b
  | 2 => 0x0d
  | _ => 0x09

/-- `InvMixColumns(S)`: `S'[r,c]` is the xor over k of `n[(k - r) mod 4] · S[k,c]` (R79). -/
def invMixColumns (s : Block) : Block :=
  stateOf fun r c =>
    let term := fun k => gf8 (invMixCoeff ((k + 4 - r) % 4)) (cell s k c)
    term 0 ^^^ term 1 ^^^ term 2 ^^^ term 3

/-- `W[i]`. Past the 60 words of storage it reads 0, which only a state no run reaches can ask for (assumption log 8). -/
def ksWord (ks : Vector Word 60) (i : Nat) : Word := ks.toList.getD i 0

/-- Round key j, the words `W[4j .. 4j+3]`, as a block: word c is column c (R14, R80). -/
def roundKey (ks : Vector Word 60) (j : Nat) : Block :=
  ksWord ks (4 * j) ++ ksWord ks (4 * j + 1) ++ ksWord ks (4 * j + 2) ++ ksWord ks (4 * j + 3)

/-- `AddRoundKey(S, j)` (R80). -/
def addRoundKey (ks : Vector Word 60) (s : Block) (j : Nat) : Block := s ^^^ roundKey ks j

end Sys2Proof.Machine
end

