-- ==== Sys2Proof/Machine/KeySchedule.lean ====
section
/-! DEFINITION. The key expansion of 43_key_schedule.md R81 and R82. -/

namespace Sys2Proof.Machine

/-- `RotWord(w)` (R81). -/
def rotWord (w : Word) : Word := w <<< 8 ||| w >>> 24

/-- `SubWord(w)` (R81). -/
def subWord (w : Word) : Word :=
  wordBE (sbox (byteOf w 0)) (sbox (byteOf w 1)) (sbox (byteOf w 2)) (sbox (byteOf w 3))

/-- `tmp` of R82 at index i, from `W[i-1]`. -/
def expandTmp (nk i : Nat) (prev : Word) : Word :=
  if i % nk = 0 then subWord (rotWord prev) ^^^ rcon (i / nk)
  else if 6 < nk ∧ i % nk = 4 then subWord prev
  else prev

/-- `W[i]` of R82, i being the number of words already there. -/
def nextWord (nk : Nat) (w : List Word) : Word :=
  w.getD (w.length - nk) 0 ^^^ expandTmp nk w.length (w.getD (w.length - 1) 0)

/-- `n` more words of the loop of R82. -/
def expandLoop (nk : Nat) : Nat → List Word → List Word
  | 0, w => w
  | n + 1, w => expandLoop nk n (w ++ [nextWord nk w])

/-- `Nr = Nk + 6` (R7, R82). -/
def roundsOf (nk : Nat) : Nat := nk + 6

/-- `KeyExpansion(key)`: the `4·(Nr+1)` words of R82. -/
def keyExpansion (key : Key) (nk : Nat) : List Word :=
  expandLoop nk (4 * (roundsOf nk + 1) - nk) ((List.range nk).map (wordOf key))

/-- What KEY_EXPAND leaves in KS: the expansion, then zeros (R18, R84). -/
@[irreducible] def keySchedule (key : Key) (nk : Nat) : Vector Word 60 :=
  let w := keyExpansion key nk
  Vector.ofFn fun i => w.getD i.val 0

end Sys2Proof.Machine
end

