-- ==== Sys2Proof/Machine/Cipher.lean ====
section
/-! DEFINITION. The block cipher of 44_block_cipher.md R86 and R87. -/

namespace Sys2Proof.Machine

/-- A middle round of R86. -/
def encRound (ks : Vector Word 60) (s : Block) (rnd : Nat) : Block :=
  addRoundKey ks (mixColumns (shiftRows (subBytes s))) rnd

/-- A middle round of R87. -/
def decRound (ks : Vector Word 60) (s : Block) (rnd : Nat) : Block :=
  invMixColumns (addRoundKey ks (invSubBytes (invShiftRows s)) rnd)

/-- `1 .. NR-1`, the middle rounds of R86. -/
def middleRounds (nr : Nat) : List Nat := List.range' 1 (nr - 1)

/-- `E_K(in)` under the key schedule `(W, NR)` (R86). -/
@[irreducible] def encryptBlock (ks : Vector Word 60) (nr : Nat) (blk : Block) : Block :=
  let s := (middleRounds nr).foldl (encRound ks) (addRoundKey ks blk 0)
  addRoundKey ks (shiftRows (subBytes s)) nr

/-- `D_K(in)` under the key schedule `(W, NR)` (R87). -/
@[irreducible] def decryptBlock (ks : Vector Word 60) (nr : Nat) (blk : Block) : Block :=
  let s := (middleRounds nr).reverse.foldl (decRound ks) (addRoundKey ks blk nr)
  addRoundKey ks (invSubBytes (invShiftRows s)) 0

end Sys2Proof.Machine
end

