-- ==== Sys2Proof/Config.lean ====
section
/-! DEFINITION. What an implementation fixes: the base address of the window and the platform's words outside it, left
open by the spec (R8, R34, D2), and the fixed parameters of R7 and R8. -/

namespace Sys2Proof.Config

/-- The number of the 4096-byte page that holds the window: a free value (R8 'OPEN', assumption log 1). -/
opaque mmioPage : Nat

/-- `MMIO_BASE`, any address aligned to 4096 (R8, R32). -/
@[irreducible] def mmioBase : Nat := mmioPage * 4096

/-- The word the platform returns to a host procedure's read number `n` of an address outside the window: a free value
(R34 'Everything outside the window belongs to the platform', assumption log 19). -/
opaque platformWord : Nat → BitVec 32

/-- The size in bytes of the window (R8, R32). -/
def windowBytes : Nat := 4096

/-- `BlockSize()` (R7, R90). -/
def blockSize : Nat := 16

/-- `NonceSize()` (R7, R115). -/
def nonceSize : Nat := 12

/-- `Overhead()`, the size of a tag in bytes (R7, R115). -/
def overhead : Nat := 16

/-- The number of words of key-schedule storage (R8, R18). -/
def ksWords : Nat := 60

end Sys2Proof.Config
end

