-- ==== Sys2Proof/Syntax.lean ====
section
/-! DEFINITION. The commands of 30_encoding.md R50 as syntax: one constructor per row of spec/opcode_table.json. -/

namespace Sys2Proof

/-- The key-length code KL of R49: three key sizes, and the code 3 that names none. -/
inductive KeyCode where
  | k128
  | k192
  | k256
  | invalid
  deriving DecidableEq, Repr

/-- The field F of GHASH_AAD and GHASH_CT, read as SRC (R49). -/
inductive Src where
  | din
  | dout
  deriving DecidableEq, Repr

/-- The field F of GCTR, read as DIR (R49). -/
inductive Dir where
  | sealing
  | opening
  deriving DecidableEq, Repr

/-- A command. NB and RND are counts; A and B are bytes (R49). -/
inductive Instr where
  | nop
  | keyExpand (kl : KeyCode)
  | encrypt
  | decrypt
  | subBytes
  | invSubBytes
  | shiftRows
  | invShiftRows
  | mixColumns
  | invMixColumns
  | addRoundKey (rnd : Nat)
  | gf8Mul (a b : Byte)
  | gf128Mul
  | ghashInit
  | ghashAad (nb : Nat) (src : Src)
  | ghashCt (nb : Nat) (src : Src)
  | ghashLen
  | ctrInit
  | ctrInc
  | gctr (nb : Nat) (dir : Dir)
  | gcmTag
  | gcmVerify
  deriving DecidableEq, Repr

end Sys2Proof
end

