-- ==== Sys2Proof/WellFormed.lean ====
section
/-! DEFINITION. Which commands an encoding exists for: every field fits its bits (30_encoding.md R49). Legal field
values that make the command fail (RND > NR, NB = 0, NB > 16, KL = 3) are well formed (R52). -/

namespace Sys2Proof

/-- RND is the 4-bit field `w[11:8]` (R49). -/
def rndFits (rnd : Nat) : Bool := decide (rnd < 16)

/-- NB is the 5-bit field `w[12:8]` (R49). -/
def nbFits (nb : Nat) : Bool := decide (nb < 32)

/-- A command whose fields fit their bits. -/
def Instr.wf : Instr → Bool
  | .nop => true
  | .keyExpand _ => true
  | .encrypt => true
  | .decrypt => true
  | .subBytes => true
  | .invSubBytes => true
  | .shiftRows => true
  | .invShiftRows => true
  | .mixColumns => true
  | .invMixColumns => true
  | .addRoundKey rnd => rndFits rnd
  | .gf8Mul _ _ => true
  | .gf128Mul => true
  | .ghashInit => true
  | .ghashAad nb _ => nbFits nb
  | .ghashCt nb _ => nbFits nb
  | .ghashLen => true
  | .ctrInit => true
  | .ctrInc => true
  | .gctr nb _ => nbFits nb
  | .gcmTag => true
  | .gcmVerify => true

end Sys2Proof
end

