-- ==== Sys2Proof/Decode.lean ====
section
/-! DEFINITION. The decoder of 40_command_engine.md R59 over the opcode map of 30_encoding.md R50, then the encoder
written from the formats of R48, and the written forms of R54. -/

namespace Sys2Proof

/-! ## Fields (R49) -/

/-- `OP = w[5:0]` (R48). -/
def opOf (w : Word) : BitVec 6 := w.extractLsb' 0 6

/-- `KL = w[7:6]` (R49). -/
def klOf (w : Word) : BitVec 2 := w.extractLsb' 6 2

/-- `RND = w[11:8]` (R49). -/
def rndOf (w : Word) : Nat := (w.extractLsb' 8 4).toNat

/-- `A = w[15:8]` (R49). -/
def aOf (w : Word) : Byte := w.extractLsb' 8 8

/-- `B = w[23:16]` (R49). -/
def bOf (w : Word) : Byte := w.extractLsb' 16 8

/-- `NB = w[12:8]` (R49). -/
def nbOf (w : Word) : Nat := (w.extractLsb' 8 5).toNat

/-- `F = w[16]` (R49). -/
def fOf (w : Word) : BitVec 1 := w.extractLsb' 16 1

/-- The key size a KL code selects (R49). -/
def KeyCode.ofBits (b : BitVec 2) : KeyCode :=
  if b = 0 then .k128 else if b = 1 then .k192 else if b = 2 then .k256 else .invalid

/-- F read as SRC: 0 selects DIN, 1 selects DOUT (R49). -/
def Src.ofBit (b : BitVec 1) : Src := if b = 0 then .din else .dout

/-- F read as DIR: 0 for sealing, 1 for opening (R49). -/
def Dir.ofBit (b : BitVec 1) : Dir := if b = 0 then .sealing else .opening

/-! ## The opcode map (R50) -/

/-- A row of R50: a word is the row's command exactly when `(w & mask) = pattern`. -/
structure Row where
  mnemonic : String
  pattern  : Word
  mask     : Word
  build    : Word → Instr

/-- `(w & mask) = match` (R50). -/
def Row.accepts (r : Row) (w : Word) : Bool := w &&& r.mask == r.pattern

/-- The rows for control and whole-block cipher, OP 0x00 to 0x07. -/
def cipherRows : List Row := [
  ⟨"NOP",        0x00000000#32, 0xFFFFFFFF#32, fun _ => .nop⟩,
  ⟨"KEY_EXPAND", 0x00000001#32, 0xFFFFFF3F#32, fun w => .keyExpand (KeyCode.ofBits (klOf w))⟩,
  ⟨"ENCRYPT",    0x00000002#32, 0xFFFFFFFF#32, fun _ => .encrypt⟩,
  ⟨"DECRYPT",    0x00000003#32, 0xFFFFFFFF#32, fun _ => .decrypt⟩]

/-- The rows for the round primitives, OP 0x08 to 0x0F. -/
def roundRows : List Row := [
  ⟨"SUB_BYTES",       0x00000008#32, 0xFFFFFFFF#32, fun _ => .subBytes⟩,
  ⟨"INV_SUB_BYTES",   0x00000009#32, 0xFFFFFFFF#32, fun _ => .invSubBytes⟩,
  ⟨"SHIFT_ROWS",      0x0000000A#32, 0xFFFFFFFF#32, fun _ => .shiftRows⟩,
  ⟨"INV_SHIFT_ROWS",  0x0000000B#32, 0xFFFFFFFF#32, fun _ => .invShiftRows⟩,
  ⟨"MIX_COLUMNS",     0x0000000C#32, 0xFFFFFFFF#32, fun _ => .mixColumns⟩,
  ⟨"INV_MIX_COLUMNS", 0x0000000D#32, 0xFFFFFFFF#32, fun _ => .invMixColumns⟩,
  ⟨"ADD_ROUND_KEY",   0x0000000E#32, 0xFFFFF0FF#32, fun w => .addRoundKey (rndOf w)⟩]

/-- The rows for field arithmetic, OP 0x10 to 0x17. -/
def fieldRows : List Row := [
  ⟨"GF8_MUL",   0x00000010#32, 0xFF0000FF#32, fun w => .gf8Mul (aOf w) (bOf w)⟩,
  ⟨"GF128_MUL", 0x00000011#32, 0xFFFFFFFF#32, fun _ => .gf128Mul⟩]

/-- The rows for GHASH, OP 0x18 to 0x1F. -/
def ghashRows : List Row := [
  ⟨"GHASH_INIT", 0x00000018#32, 0xFFFFFFFF#32, fun _ => .ghashInit⟩,
  ⟨"GHASH_AAD",  0x00000019#32, 0xFFFEE0FF#32, fun w => .ghashAad (nbOf w) (Src.ofBit (fOf w))⟩,
  ⟨"GHASH_CT",   0x0000001A#32, 0xFFFEE0FF#32, fun w => .ghashCt (nbOf w) (Src.ofBit (fOf w))⟩,
  ⟨"GHASH_LEN",  0x0000001B#32, 0xFFFFFFFF#32, fun _ => .ghashLen⟩]

/-- The rows for GCM counter and tag, OP 0x20 to 0x27. -/
def gcmRows : List Row := [
  ⟨"CTR_INIT",   0x00000020#32, 0xFFFFFFFF#32, fun _ => .ctrInit⟩,
  ⟨"CTR_INC",    0x00000021#32, 0xFFFFFFFF#32, fun _ => .ctrInc⟩,
  ⟨"GCTR",       0x00000022#32, 0xFFFEE0FF#32, fun w => .gctr (nbOf w) (Dir.ofBit (fOf w))⟩,
  ⟨"GCM_TAG",    0x00000023#32, 0xFFFFFFFF#32, fun _ => .gcmTag⟩,
  ⟨"GCM_VERIFY", 0x00000024#32, 0xFFFFFFFF#32, fun _ => .gcmVerify⟩]

/-- The whole opcode map of R50. -/
def opcodeTable : List Row := cipherRows ++ roundRows ++ fieldRows ++ ghashRows ++ gcmRows

/-- The two kinds of illegal word (R51). -/
inductive Reject where
  /-- OP is none of the map's. -/
  | unassignedOpcode
  /-- OP is assigned, and a reserved bit of its format is set. -/
  | reservedBitSet
  deriving DecidableEq, Repr

/-- Some row of the map has this OP (R50, R51). -/
def opAssigned (op : BitVec 6) : Bool := opcodeTable.any fun r => opOf r.pattern == op

/-- `decode(w)` of R59: the command of the row that accepts `w`, or the kind of illegal word. -/
def decode (w : Word) : Except Reject Instr :=
  match opcodeTable.find? (fun r => r.accepts w) with
  | some r => .ok (r.build w)
  | none => .error (if opAssigned (opOf w) then .reservedBitSet else .unassignedOpcode)

/-- The decoder on a word numbered as spec/opcode_table.json numbers it: every command is one 32-bit word (R47). -/
def decodeTableWord (nbits w : Nat) : Option Instr :=
  (decode (BitVec.ofNat 32 (w % 2 ^ nbits))).toOption

/-! ## The encoder, from the formats of R48 -/

/-- Format N: `0 | OP`. -/
def formatN (op : BitVec 6) : Word := 0#26 ++ op

/-- Format K: `0 | KL | OP`. -/
def formatK (kl : BitVec 2) (op : BitVec 6) : Word := 0#24 ++ kl ++ op

/-- Format R: `0 | RND | 0 | OP`. -/
def formatR (rnd : BitVec 4) (op : BitVec 6) : Word := 0#20 ++ rnd ++ 0#2 ++ op

/-- Format M: `0 | B | A | 0 | OP`. -/
def formatM (b a : Byte) (op : BitVec 6) : Word := 0#8 ++ b ++ a ++ 0#2 ++ op

/-- Format L: `0 | F | 0 | NB | 0 | OP`. -/
def formatL (f : BitVec 1) (nb : BitVec 5) (op : BitVec 6) : Word := 0#15 ++ f ++ 0#3 ++ nb ++ 0#2 ++ op

/-- The KL code of a key size (R49). -/
def KeyCode.bits : KeyCode → BitVec 2
  | .k128 => 0
  | .k192 => 1
  | .k256 => 2
  | .invalid => 3

/-- SRC as the bit F (R49). -/
def Src.bit : Src → BitVec 1
  | .din => 0
  | .dout => 1

/-- DIR as the bit F (R49). -/
def Dir.bit : Dir → BitVec 1
  | .sealing => 0
  | .opening => 1

/-- The OP of each command (R50). -/
def Instr.opcode : Instr → BitVec 6
  | .nop => 0x00
  | .keyExpand _ => 0x01
  | .encrypt => 0x02
  | .decrypt => 0x03
  | .subBytes => 0x08
  | .invSubBytes => 0x09
  | .shiftRows => 0x0A
  | .invShiftRows => 0x0B
  | .mixColumns => 0x0C
  | .invMixColumns => 0x0D
  | .addRoundKey _ => 0x0E
  | .gf8Mul _ _ => 0x10
  | .gf128Mul => 0x11
  | .ghashInit => 0x18
  | .ghashAad _ _ => 0x19
  | .ghashCt _ _ => 0x1A
  | .ghashLen => 0x1B
  | .ctrInit => 0x20
  | .ctrInc => 0x21
  | .gctr _ _ => 0x22
  | .gcmTag => 0x23
  | .gcmVerify => 0x24

/-- `enc(<command>)`: the word of a well-formed command (R48, R49, R55). -/
def encode (i : Instr) : Word :=
  match i with
  | .keyExpand kl => formatK kl.bits i.opcode
  | .addRoundKey rnd => formatR (BitVec.ofNat 4 rnd) i.opcode
  | .gf8Mul a b => formatM b a i.opcode
  | .ghashAad nb src => formatL src.bit (BitVec.ofNat 5 nb) i.opcode
  | .ghashCt nb src => formatL src.bit (BitVec.ofNat 5 nb) i.opcode
  | .gctr nb dir => formatL dir.bit (BitVec.ofNat 5 nb) i.opcode
  | .nop => formatN i.opcode
  | .encrypt => formatN i.opcode
  | .decrypt => formatN i.opcode
  | .subBytes => formatN i.opcode
  | .invSubBytes => formatN i.opcode
  | .shiftRows => formatN i.opcode
  | .invShiftRows => formatN i.opcode
  | .mixColumns => formatN i.opcode
  | .invMixColumns => formatN i.opcode
  | .gf128Mul => formatN i.opcode
  | .ghashInit => formatN i.opcode
  | .ghashLen => formatN i.opcode
  | .ctrInit => formatN i.opcode
  | .ctrInc => formatN i.opcode
  | .gcmTag => formatN i.opcode
  | .gcmVerify => formatN i.opcode

/-! ## Written forms (R54) -/

/-- The operand `kl=` of KEY_EXPAND: the key size in bits, or the illegal code (R54). -/
def KeyCode.written : KeyCode → String
  | .k128 => "128"
  | .k192 => "192"
  | .k256 => "256"
  | .invalid => "#3"

/-- The operand `src=` (R54). -/
def Src.written : Src → String
  | .din => "din"
  | .dout => "dout"

/-- The operand `dir=` (R54). -/
def Dir.written : Dir → String
  | .sealing => "seal"
  | .opening => "open"

/-- The mnemonic of each command, as spec/opcode_table.json spells it (R50). -/
def Instr.mnemonic : Instr → String
  | .nop => "NOP"
  | .keyExpand _ => "KEY_EXPAND"
  | .encrypt => "ENCRYPT"
  | .decrypt => "DECRYPT"
  | .subBytes => "SUB_BYTES"
  | .invSubBytes => "INV_SUB_BYTES"
  | .shiftRows => "SHIFT_ROWS"
  | .invShiftRows => "INV_SHIFT_ROWS"
  | .mixColumns => "MIX_COLUMNS"
  | .invMixColumns => "INV_MIX_COLUMNS"
  | .addRoundKey _ => "ADD_ROUND_KEY"
  | .gf8Mul _ _ => "GF8_MUL"
  | .gf128Mul => "GF128_MUL"
  | .ghashInit => "GHASH_INIT"
  | .ghashAad _ _ => "GHASH_AAD"
  | .ghashCt _ _ => "GHASH_CT"
  | .ghashLen => "GHASH_LEN"
  | .ctrInit => "CTR_INIT"
  | .ctrInc => "CTR_INC"
  | .gctr _ _ => "GCTR"
  | .gcmTag => "GCM_TAG"
  | .gcmVerify => "GCM_VERIFY"

/-- The written form of a command: its mnemonic, then its fields as `name=value` in the order of R54, in decimal and with
no default left out (assumption log 12). -/
def Instr.written (i : Instr) : String :=
  match i with
  | .keyExpand kl => i.mnemonic ++ " kl=" ++ kl.written
  | .addRoundKey rnd => i.mnemonic ++ " rnd=" ++ rnd.repr
  | .gf8Mul a b => i.mnemonic ++ " a=" ++ a.toNat.repr ++ ", b=" ++ b.toNat.repr
  | .ghashAad nb src => i.mnemonic ++ " nb=" ++ nb.repr ++ ", src=" ++ src.written
  | .ghashCt nb src => i.mnemonic ++ " nb=" ++ nb.repr ++ ", src=" ++ src.written
  | .gctr nb dir => i.mnemonic ++ " nb=" ++ nb.repr ++ ", dir=" ++ dir.written
  | .nop => i.mnemonic
  | .encrypt => i.mnemonic
  | .decrypt => i.mnemonic
  | .subBytes => i.mnemonic
  | .invSubBytes => i.mnemonic
  | .shiftRows => i.mnemonic
  | .invShiftRows => i.mnemonic
  | .mixColumns => i.mnemonic
  | .invMixColumns => i.mnemonic
  | .gf128Mul => i.mnemonic
  | .ghashInit => i.mnemonic
  | .ghashLen => i.mnemonic
  | .ctrInit => i.mnemonic
  | .ctrInc => i.mnemonic
  | .gcmTag => i.mnemonic
  | .gcmVerify => i.mnemonic

end Sys2Proof
end

