-- ==== Sys2Proof/Machine/State.lean ====
section
/-! DEFINITION. The state of the machine: every register of 10_state.md, and, as the model's own plain data, the
outside world the core is driven by (the agenda of turns, the hosts' procedures, the last bus response, and a counter of
free words). -/

namespace Sys2Proof.Machine

/-! ## Values held in State -/

/-- The error codes of R119; 8 to 15 are never produced. -/
inductive ErrCode where
  | none
  | illegalOp
  | badKeylen
  | noKey
  | badArg
  | authRequired
  | cmdBusy
  | noTag
  deriving DecidableEq, Repr

/-- What a bus access does (R12). -/
inductive BusOp where
  | read
  | write (v : Word)
  deriving DecidableEq, Repr

/-- One bus access of a host: byte address, width in bytes, and operation. Only a width of 4 at a multiple of 4 is
defined (R38). -/
structure Access where
  addr  : Nat
  bytes : Nat
  op    : BusOp
  deriving DecidableEq, Repr

/-- What the bus returns to the host for one access. -/
inductive Response where
  /-- A read's value (R40, R41). -/
  | data (v : Word)
  /-- A write was taken by the core, whatever it did (R40, R121). -/
  | done
  /-- The access was not an aligned 32-bit access (R38, R123). -/
  | accessFault (addr : Nat)
  /-- The address is outside the window, so the access is not the core's (R123). -/
  | outside (addr : Nat)
  deriving DecidableEq, Repr

/-- A value of a local variable of a host procedure: a number, without bound (assumption log 20), or a byte string (R64). -/
inductive Val where
  | num (n : Nat)
  | bytes (b : List Byte)
  deriving DecidableEq, Repr

/-- The arithmetic of the listings of R85, R116, R117 and 95_test_vectors.md, on numbers. -/
inductive Arith where
  | add
  | sub
  | mul
  | div
  | mod
  | min
  deriving DecidableEq, Repr

/-- An expression over the local variables, which are numbered (R64, assumption log 9). -/
inductive HostExpr where
  /-- A number. -/
  | num (n : Nat)
  /-- A byte string. -/
  | bytes (b : List Byte)
  /-- Local variable number `x`. -/
  | var (x : Nat)
  | arith (op : Arith) (a b : HostExpr)
  /-- `len(s)`. -/
  | len (s : HostExpr)
  /-- `s[lo .. lo+n-1]`. -/
  | slice (s lo n : HostExpr)
  /-- `a ‖ b`. -/
  | cat (a b : HostExpr)
  /-- `word(s[4k .. 4k+3])`, a byte past the end of `s` being zero, which is `pad(s, 16)` for a short block. -/
  | word (s k : HostExpr)
  /-- The four bytes of a word, big-endian (R36). -/
  | serial (w : HostExpr)
  /-- `w[lo+n-1 : lo]`, a field of `n` bits. -/
  | field (w : HostExpr) (lo n : Nat)
  /-- `enc(<command>)`, the command's KL, RND or NB being the number `n` (R54, R55). -/
  | command (i : Instr) (n : HostExpr)
  deriving DecidableEq, Repr

/-- A condition over the local variables (R64). -/
inductive HostCond where
  | eq (a b : HostExpr)
  | lt (a b : HostExpr)
  | not (c : HostCond)
  | and (c d : HostCond)
  deriving DecidableEq, Repr

/-- The address of a procedure's access: MMIO_BASE plus an offset, or any address (R12, R64). -/
inductive HostAddr where
  | window (off : HostExpr)
  | absolute (addr : HostExpr)
  deriving DecidableEq, Repr

/-- The errors a host procedure ends with (R125). -/
inductive SoftError where
  | constructionError
  | preconditionViolation
  | authError
  deriving DecidableEq, Repr

/-- One step of a host procedure (R64). -/
inductive HostOp where
  /-- `MemWrite(addr, 4, v)`. -/
  | store (addr : HostAddr) (v : HostExpr)
  /-- `x <- MemRead(addr, 4)`. -/
  | load (x : Nat) (addr : HostAddr)
  /-- WAIT, the loop `L: x <- MemRead(MMIO_BASE + 0x004, 4); if x[0] = 1 goto L` (R55). -/
  | wait (x : Nat)
  /-- `x <- e`. -/
  | assign (x : Nat) (e : HostExpr)
  /-- `L:`, the labels being numbered. -/
  | label (l : Nat)
  /-- `goto L`. -/
  | goto (l : Nat)
  /-- `if <cond> goto L`. -/
  | ifGoto (c : HostCond) (l : Nat)
  /-- `fail <Error>`. -/
  | fail (e : SoftError)
  /-- `if <cond>: fail <Error>`, as R85, R91, R116 and R117 write it. -/
  | failIf (c : HostCond) (e : SoftError)
  /-- `return v`, with any number of byte strings. -/
  | ret (vs : List HostExpr)
  deriving DecidableEq, Repr

/-- How far a host procedure has come (R143). -/
inductive HostEnd where
  | running
  /-- `return v`. -/
  | returned (v : List (List Byte))
  /-- `fail <Error>` (R125). -/
  | failed (e : SoftError)
  /-- The bus answered AccessFault: the procedure ends with a failure that is none of the errors of R125, and returns
  no output (R123, U18, assumption log 19). -/
  | faulted (addr : Nat)
  deriving DecidableEq, Repr

/-- A host procedure in progress: its whole text, where labels are looked up, the part of it still to be run, and its
local variables, a variable past the end of the list being the number 0 (R64, assumption log 9). -/
structure HostRun where
  prog   : List HostOp
  rest   : List HostOp
  locals : List Val
  ending : HostEnd
  deriving DecidableEq, Repr

/-- A turn of the agenda: which agent takes the next step (R56, R136). -/
inductive Turn where
  /-- The core's perform step, if it is enabled. -/
  | core
  /-- An access by a host that runs no procedure of State. -/
  | access (a : Access)
  /-- The next step of host procedure number `k`. -/
  | host (k : Nat)
  /-- The platform asserts reset. -/
  | reset
  deriving DecidableEq, Repr

/-- Why the machine stops with a fault. There is no such reason: a failed command records its error in STATUS and the
core goes on (R120), and AccessFault is a bus response (R123, assumption log 4). Nobody raises one, which is safe. -/
inductive Fault where
  deriving DecidableEq, Repr

/-- Why the machine gives an instruction no meaning. -/
inductive Refusal where
  /-- Raised by an arm of `exec` whose command has no meaning yet; safe. No arm raises it now. -/
  | notModelled (mnemonic : String)
  deriving DecidableEq, Repr

/-! ## State -/

/-- The registers of 10_state.md R17 to R28, then the model's own view of the outside world. STATUS is the view
`Machine.statusWord` of the flags below. -/
structure State where
  /-- KEY, 32 bytes (R17). -/
  key      : Key
  /-- KS, the key-schedule words `W[0] .. W[59]` (R18). -/
  ks       : Vector Word 60
  /-- NR, the round count of the expanded key (R19). -/
  nr       : BitVec 4
  /-- KEY_VALID (R20). -/
  keyValid : Bool
  /-- STATE, the AES state, column-major (R21). -/
  state    : Block
  /-- DIN (R22). -/
  din      : Block
  /-- DOUT (R22). -/
  dout     : Block
  /-- RESULT (R23). -/
  result   : Word
  /-- H, the hash subkey (R24). -/
  h        : Block
  /-- X, the GHASH accumulator (R24). -/
  x        : Block
  /-- ALEN, bits of associated data hashed (R24). -/
  alen     : Half
  /-- CLEN, bits of ciphertext hashed (R24). -/
  clen     : Half
  /-- NONCE, 12 bytes (R25). -/
  nonce    : Nonce
  /-- J0, the pre-counter block (R25). -/
  j0       : Block
  /-- CB, the counter block (R25). -/
  cb       : Block
  /-- TAG, the computed tag (R26). -/
  tag      : Block
  /-- RTAG, the received tag (R26). -/
  rtag     : Block
  /-- CMD_LAST, the most recently latched word (R27). -/
  cmdLast  : Word
  /-- PENDING, the command slot, meaningful while BUSY = 1 (R27). -/
  pending  : Word
  /-- STATUS.BUSY (R28). -/
  busy     : Bool
  /-- STATUS.TAG_VALID (R28, R108). -/
  tagValid : Bool
  /-- STATUS.TAG_OK (R28, R109). -/
  tagOk    : Bool
  /-- STATUS.AUTH_FAIL (R28, R124). -/
  authFail : Bool
  /-- STATUS.ERR (R28, R120). -/
  err      : Bool
  /-- STATUS.ERRCODE (R28, R119). -/
  errcode  : ErrCode
  /-- The model's own: what the bus last returned (assumption log 4). -/
  response : Option Response
  /-- The model's own: the host procedures in progress (assumption log 9). -/
  hosts    : List HostRun
  /-- The model's own: the turns still to be taken, oldest first (assumption log 2). -/
  agenda   : List Turn
  /-- The model's own: how many free words host procedures have read from outside the window (assumption log 19). -/
  platformReads : Nat
  deriving DecidableEq, Repr

/-- The machine right after reset: every register zero (R31, R136), and nothing placed in the outside world. -/
def State.reset : State where
  key := 0
  ks := Vector.replicate 60 0
  nr := 0
  keyValid := false
  state := 0
  din := 0
  dout := 0
  result := 0
  h := 0
  x := 0
  alen := 0
  clen := 0
  nonce := 0
  j0 := 0
  cb := 0
  tag := 0
  rtag := 0
  cmdLast := 0
  pending := 0
  busy := false
  tagValid := false
  tagOk := false
  authFail := false
  err := false
  errcode := .none
  response := none
  hosts := []
  agenda := []
  platformReads := 0

end Sys2Proof.Machine
end

