-- ==== Sys2Proof/Machine/Operands.lean ====
section
/-! DEFINITION. The operand forms of the commands: key length, block length NB, round index, source block, and the
current key's encryption. -/

namespace Sys2Proof.Machine

/-- `Nk` of a KL code; KL = 3 has none (R49, R84). -/
def nkOf : KeyCode → Option Nat
  | .k128 => some 4
  | .k192 => some 6
  | .k256 => some 8
  | .invalid => none

/-- `NB = 0 or NB > 16`, the illegal lengths (R49, R52). -/
def nbIllegal (nb : Nat) : Bool := decide (nb = 0 ∨ 16 < nb)

/-- `RND > NR` (R80). -/
def rndIllegal (rnd : Nat) (s : State) : Bool := decide (s.nr.toNat < rnd)

/-- `pad(src, NB)`: bytes 0 to NB-1 of `src`, then zeros (45_ghash.md section 4). -/
def pad (src : Block) (nb : Nat) : Block := blockOf fun i => if i < nb then byteOf src i else 0

/-- `(SRC = 0) ? DIN : DOUT` (R102, R103). -/
def sourceBlock (src : Src) (s : State) : Block :=
  match src with
  | .din => s.din
  | .dout => s.dout

/-- `8·NB`, what a hashed block adds to ALEN or CLEN (R102, R103). -/
def bitsOf (nb : Nat) : Half := BitVec.ofNat 64 (8 * nb)

/-- `E_K(blk)` under the current key schedule (R12, R86). -/
def cipherE (s : State) (blk : Block) : Block := encryptBlock s.ks s.nr.toNat blk

/-- `D_K(blk)` under the current key schedule (R12, R87). -/
def cipherD (s : State) (blk : Block) : Block := decryptBlock s.ks s.nr.toNat blk

end Sys2Proof.Machine
end

