-- ==== Sys2Proof/Machine/Flags.lean ====
section
/-! DEFINITION. STATUS and its flags: the view of 10_state.md R28, the tag flags of 46_gcm.md R108 and R109, and the
host's write to STATUS, which is how an error is acknowledged (60_exceptions.md R128). -/

namespace Sys2Proof.Machine

/-- The number of an error code (R119). -/
def ErrCode.bits : ErrCode → BitVec 4
  | .none => 0
  | .illegalOp => 1
  | .badKeylen => 2
  | .noKey => 3
  | .badArg => 4
  | .authRequired => 5
  | .cmdBusy => 6
  | .noTag => 7

/-- STATUS as the host reads it: NR in 19:16, ERRCODE in 11:8, ERR, AUTH_FAIL, TAG_OK, TAG_VALID, KEY_VALID and BUSY in
5 to 0, every reserved bit 0 (R28). -/
def statusWord (s : State) : Word :=
  0#12 ++ s.nr ++ 0#4 ++ s.errcode.bits ++ 0#2 ++ BitVec.ofBool s.err ++ BitVec.ofBool s.authFail ++
    BitVec.ofBool s.tagOk ++ BitVec.ofBool s.tagValid ++ BitVec.ofBool s.keyValid ++ BitVec.ofBool s.busy

/-- `TAG_VALID <- 0; TAG_OK <- 0`, which every command that changes X, J0 or the key schedule does (R108, R109). -/
def invalidateTag (s : State) : State := { s with tagValid := false, tagOk := false }

/-- Write-1-to-clear of AUTH_FAIL, bit 4 (R28). -/
def clearAuthFail (v : Word) (s : State) : State := if v.getLsbD 4 then { s with authFail := false } else s

/-- Write-1-to-clear of ERR, bit 5, which also sets ERRCODE to 0 (R28). -/
def clearErr (v : Word) (s : State) : State :=
  if v.getLsbD 5 then { s with err := false, errcode := .none } else s

/-- A host write of `v` to STATUS: the acknowledgement of errors, beside which nothing is restored (R28, R128). -/
def ackStatus (v : Word) (s : State) : State := clearErr v (clearAuthFail v s)

end Sys2Proof.Machine
end

