-- ==== Sys2Proof/Machine/Ops.lean ====
section
/-! DEFINITION. The named operations over State that the meanings and the bus share: raising an error (the core's only
kind of exception, 60_exceptions.md R120), latching and completing a command (40_command_engine.md R57, R58). -/

namespace Sys2Proof.Machine

/-- What one command answers. -/
abbrev Result := Host.Outcome State Fault Refusal

/-- `raise Error(code)`: ERR is set and ERRCODE overwritten, and nothing else is written (R120). The core has no trap, so
no control is transferred and nothing is saved (R127); a host returns from it by `ackStatus` (R128). -/
def raiseError (code : ErrCode) (s : State) : State := { s with err := true, errcode := code }

/-- `if cond: raise Error(code)`, and else the rest of the command (R122: the first check that holds decides). -/
def failIf (cond : Bool) (code : ErrCode) (s : State) (rest : Result) : Result :=
  if cond then .next (raiseError code s) else rest

/-- `if KEY_VALID = 0: raise Error(NO_KEY)` (R20). -/
def needKey (s : State) (rest : Result) : Result := failIf (!s.keyValid) .noKey s rest

/-- Issue: the word is latched, legal or not (R57). -/
def latch (w : Word) (s : State) : State := { s with pending := w, cmdLast := w, busy := true }

/-- `BUSY <- 0` (R58). -/
def complete (s : State) : State := { s with busy := false }

/-- The bus returns `r` to the host. -/
def respond (r : Response) (s : State) : State := { s with response := some r }

/-- Reset as the core sees it: every register at its reset value, a pending command discarded (R136). The outside world
is not the core's and stays (assumption log 13). -/
def resetCore (s : State) : State :=
  { State.reset with
    response := s.response
    hosts := s.hosts
    agenda := s.agenda
    platformReads := s.platformReads }

end Sys2Proof.Machine
end

