-- ==== Sys2Proof/Machine/ControlFamily.lean ====
section
/-! DEFINITION. The meanings of NOP, KEY_EXPAND, ENCRYPT and DECRYPT (40_command_engine.md R63, 43_key_schedule.md R84,
44_block_cipher.md R88 and R89). -/

namespace Sys2Proof.Machine

/-- NOP (R63). -/
def execNop (s : State) : Result := .next s

/-- A failed construction leaves no key schedule (R84). -/
def wipeKey (s : State) : State := { s with keyValid := false, nr := 0, ks := Vector.replicate 60 0 }

/-- The expansion of KEY for `nk` words replaces KS (R84). -/
def loadSchedule (nk : Nat) (s : State) : State :=
  { s with ks := keySchedule s.key nk, nr := BitVec.ofNat 4 (roundsOf nk), keyValid := true }

/-- KEY_EXPAND: in both outcomes the tag flags are cleared first (R84). -/
def execKeyExpand (kl : KeyCode) (s : State) : Result :=
  match nkOf kl with
  | none => .next (raiseError .badKeylen (wipeKey (invalidateTag s)))
  | some nk => .next (loadSchedule nk (invalidateTag s))

/-- ENCRYPT (R88). -/
def execEncrypt (s : State) : Result :=
  needKey s (.next { s with state := cipherE s s.din, dout := cipherE s s.din })

/-- DECRYPT (R89). -/
def execDecrypt (s : State) : Result :=
  needKey s (.next { s with state := cipherD s s.din, dout := cipherD s s.din })

end Sys2Proof.Machine
end

