-- ==== Sys2Proof/Machine/Gf128.lean ====
section
/-! DEFINITION. The 128-bit arithmetic of 45_ghash.md R94 to R96. -/

namespace Sys2Proof.Machine

/-- `hi`, which holds `b[0..7]` (R94). -/
def hiHalf (v : Block) : Half := v.extractLsb' 64 64

/-- `lo`, which holds `b[8..15]` (R94). -/
def loHalf (v : Block) : Half := v.extractLsb' 0 64

/-- `xor128` (R94). -/
def xor128 (a b : Block) : Block := a ^^^ b

/-- `and128` (R94). -/
def and128 (a b : Block) : Block := a &&& b

/-- `bit(v, i)` (R94). -/
def bit128 (v : Block) (i : Nat) : Bool := v.getLsbD i

/-- `shr128(v, n)`, the logical right shift `v >> n` (R95). -/
def shr128 (v : Block) (n : Nat) : Block := v >>> n

/-- The source's shift on halves for `n ≤ 64`, with its guard at n = 0 (R95). -/
def shrSmall (v : Half × Half) (n : Nat) : Half × Half :=
  if n = 0 then v else (v.1 >>> n, (v.2 >>> n) ||| (v.1 <<< (64 - n)))

/-- The source's recursion for `n > 64`, on `fuel` (R95). -/
def shrLoop : Nat → Half × Half → Nat → Half × Half
  | 0, v, _ => v
  | fuel + 1, v, n => if 64 < n then shrLoop fuel (shrSmall v 64) (n - 64) else shrSmall v n

/-- `shr128((hi, lo), n)` by the source's algorithm on halves (R95); `n + 1` steps are more than it takes. -/
def shrHalves (v : Half × Half) (n : Nat) : Half × Half := shrLoop (n + 1) v n

/-- `R = 0xE1 << 120` (R96). -/
def gcmR : Block := 0xE1#128 <<< 120

/-- One multiplication of V by x: the shift, and the reduction when a bit falls out (R96). -/
def shiftV (v : Block) : Block :=
  if bit128 v 0 then xor128 (shr128 v 1) gcmR else shr128 v 1

/-- The iterations for bit positions `n-1` down to 0 of R96. -/
def mulgLoop (a : Block) : Nat → Block → Block → Block
  | 0, z, _ => z
  | n + 1, z, v => mulgLoop a n (if bit128 a n then xor128 z v else z) (shiftV v)

/-- `A • B = mulg(A, B)` (R96). -/
@[irreducible] def mulg (a b : Block) : Block := mulgLoop a 128 0 b

end Sys2Proof.Machine
end

