-- ==== Sys2Proof/Machine/FieldFamily.lean ====
section
/-! DEFINITION. The meanings of GF8_MUL and GF128_MUL (41_gf8_tables.md R73, 45_ghash.md R100). -/

namespace Sys2Proof.Machine

/-- GF8_MUL: the product in RESULT[7:0], zero above (R73). -/
def execGf8Mul (a b : Byte) (s : State) : Result := .next { s with result := (gf8 a b).setWidth 32 }

/-- GF128_MUL: `DOUT <- DIN • H` (R100). -/
def execGf128Mul (s : State) : Result := .next { s with dout := mulg s.din s.h }

end Sys2Proof.Machine
end

