-- ==== Sys2Proof/Machine/Gcm.lean ====
section
/-! DEFINITION. GHASH, the counter block, counter mode and the tag as functions: 45_ghash.md R98, 46_gcm.md R105 to
R107. The commands compute them block by block. -/

namespace Sys2Proof.Machine

/-- One block of GHASH: `(X ⊕ b) • H` (R98). -/
def ghashStep (h x b : Block) : Block := mulg (xor128 x b) h

/-- The blocks of a byte string hashed in order (R98). -/
def ghashBytes (h x : Block) (s : List Byte) : Block :=
  (chunksOf s).foldl (fun x b => ghashStep h x (blockAt b)) x

/-- The length block `be64(ALEN) ‖ be64(CLEN)` (R98, R104). -/
def lengthBlock (alen clen : Half) : Block := alen ++ clen

/-- The bit length of a byte string (R98). DEDUCED (assumption log 22): it is taken modulo 2^64, as ALEN and CLEN count it
(R102), where R98's be64 has no room for it. -/
def bitLength (s : List Byte) : Half := BitVec.ofNat 64 (8 * s.length)

/-- `ghash(C, A, H)` (R98). -/
def ghash (c a : List Byte) (h : Block) : Block :=
  ghashStep h (ghashBytes h (ghashBytes h 0 a) c) (lengthBlock (bitLength a) (bitLength c))

/-- `genCounter(nonce) = nonce ‖ be32(1)` (R105). -/
def genCounter (nonce : Nonce) : Block := nonce ++ 1#32

/-- `inc32(cb)`: the low 4 bytes plus one, modulo 2^32 (R105). -/
def inc32 (cb : Block) : Block := cb.extractLsb' 32 96 ++ (wordOf cb 3 + 1#32)

/-- One chunk of counter mode: the output so far and the counter block (R106). -/
def gctrStep (enc : Block → Block) (st : List Byte × Block) (chunk : List Byte) : List Byte × Block :=
  (st.1 ++ List.zipWith (· ^^^ ·) chunk (bytesOf (enc st.2)), inc32 st.2)

/-- `gctr(cb, data)` (R106). -/
def gctr (enc : Block → Block) (cb : Block) (data : List Byte) : List Byte × Block :=
  (chunksOf data).foldl (gctrStep enc) ([], cb)

/-- The tag of ciphertext C and associated data A under a nonce (R107). -/
def gcmTag (enc : Block → Block) (nonce : Nonce) (c a : List Byte) : Block :=
  xor128 (ghash c a (enc 0)) (enc (genCounter nonce))

/-- The comparison of GCM_VERIFY: the OR of the xors of all 16 byte pairs, always (R114). -/
def tagDifference (tag rtag : Block) : Byte :=
  (List.range 16).foldl (fun d i => d ||| (byteOf tag i ^^^ byteOf rtag i)) 0

end Sys2Proof.Machine
end

