-- ==== Sys2Proof/Machine/GcmFamily.lean ====
section
/-! DEFINITION. The meanings of the counter-mode and tag commands (46_gcm.md R110 to R114). -/

namespace Sys2Proof.Machine

/-- CTR_INIT (R110). -/
def execCtrInit (s : State) : Result :=
  .next (invalidateTag { s with j0 := genCounter s.nonce, cb := genCounter s.nonce })

/-- CTR_INC (R111). -/
def execCtrInc (s : State) : Result := .next { s with cb := inc32 s.cb }

/-- `DIR = 1 and TAG_OK = 0`: opening before a tag has been verified (R112). -/
def openingUnverified (dir : Dir) (s : State) : Bool := decide (dir = .opening) && !s.tagOk

/-- DOUT of GCTR: byte i is `DIN[i] ⊕ m[i]` for `i < NB`, else zero (R112). -/
def gctrOut (nb : Nat) (din mask : Block) : Block :=
  blockOf fun i => if i < nb then byteOf din i ^^^ byteOf mask i else 0

/-- GCTR: NO_KEY, then BAD_ARG, then AUTH_REQUIRED (R112, R122). -/
def execGctr (nb : Nat) (dir : Dir) (s : State) : Result :=
  needKey s (failIf (nbIllegal nb) .badArg s (failIf (openingUnverified dir s) .authRequired s
    (.next { s with dout := gctrOut nb s.din (cipherE s s.cb), cb := inc32 s.cb })))

/-- GCM_TAG: the internal encryption writes neither STATE nor DOUT (R113). -/
def execGcmTag (s : State) : Result :=
  needKey s (.next { s with tag := xor128 s.x (cipherE s s.j0), tagValid := true, tagOk := false })

/-- The verdict of GCM_VERIFY on the difference of the tags; a mismatch is no error (R114, R124). -/
def verdict (s : State) : State :=
  if tagDifference s.tag s.rtag = 0 then { s with tagOk := true }
  else { s with tagOk := false, authFail := true }

/-- GCM_VERIFY (R114). -/
def execGcmVerify (s : State) : Result := failIf (!s.tagValid) .noTag s (.next (verdict s))

end Sys2Proof.Machine
end

