-- ==== Sys2Proof/Machine/GhashFamily.lean ====
section
/-! DEFINITION. The meanings of the GHASH commands (45_ghash.md R101 to R104). -/

namespace Sys2Proof.Machine

/-- GHASH_INIT: the internal encryption writes neither STATE nor DOUT (R101). -/
def execGhashInit (s : State) : Result :=
  needKey s (.next (invalidateTag { s with h := cipherE s 0, x := 0, alen := 0, clen := 0 }))

/-- X after hashing the first `nb` bytes of the source block (R102, R103). -/
def hashedX (nb : Nat) (src : Src) (s : State) : Block := ghashStep s.h s.x (pad (sourceBlock src s) nb)

/-- GHASH_AAD (R102). -/
def execGhashAad (nb : Nat) (src : Src) (s : State) : Result :=
  failIf (nbIllegal nb) .badArg s
    (.next (invalidateTag { s with x := hashedX nb src s, alen := s.alen + bitsOf nb }))

/-- GHASH_CT (R103). -/
def execGhashCt (nb : Nat) (src : Src) (s : State) : Result :=
  failIf (nbIllegal nb) .badArg s
    (.next (invalidateTag { s with x := hashedX nb src s, clen := s.clen + bitsOf nb }))

/-- GHASH_LEN (R104). -/
def execGhashLen (s : State) : Result :=
  .next (invalidateTag { s with x := ghashStep s.h s.x (lengthBlock s.alen s.clen) })

end Sys2Proof.Machine
end

