-- ==== Sys2Proof/Machine/RoundFamily.lean ====
section
/-! DEFINITION. The meanings of the round-primitive commands on STATE (42_round_primitives.md R74 to R80). -/

namespace Sys2Proof.Machine

/-- SUB_BYTES (R74). -/
def execSubBytes (s : State) : Result := .next { s with state := subBytes s.state }

/-- INV_SUB_BYTES (R75). -/
def execInvSubBytes (s : State) : Result := .next { s with state := invSubBytes s.state }

/-- SHIFT_ROWS (R76). -/
def execShiftRows (s : State) : Result := .next { s with state := shiftRows s.state }

/-- INV_SHIFT_ROWS (R77). -/
def execInvShiftRows (s : State) : Result := .next { s with state := invShiftRows s.state }

/-- MIX_COLUMNS (R78). -/
def execMixColumns (s : State) : Result := .next { s with state := mixColumns s.state }

/-- INV_MIX_COLUMNS (R79). -/
def execInvMixColumns (s : State) : Result := .next { s with state := invMixColumns s.state }

/-- ADD_ROUND_KEY: NO_KEY, then BAD_ARG (R80, R122). -/
def execAddRoundKey (rnd : Nat) (s : State) : Result :=
  needKey s (failIf (rndIllegal rnd s) .badArg s
    (.next { s with state := addRoundKey s.ks s.state rnd }))

end Sys2Proof.Machine
end

