-- ==== Sys2Proof/Machine/Dispatch.lean ====
section
/-! DEFINITION. The dispatch from a command to its meaning: one arm per constructor of Instr (40_command_engine.md R58). -/

namespace Sys2Proof.Machine

/-- `execute the rule of op` (R58); BUSY is cleared by the perform step that calls this. -/
def exec (i : Instr) (s : State) : Host.Outcome State Fault Refusal :=
  match i with
  | .nop => Sys2Proof.Machine.execNop s
  | .keyExpand kl => Sys2Proof.Machine.execKeyExpand kl s
  | .encrypt => Sys2Proof.Machine.execEncrypt s
  | .decrypt => Sys2Proof.Machine.execDecrypt s
  | .subBytes => Sys2Proof.Machine.execSubBytes s
  | .invSubBytes => Sys2Proof.Machine.execInvSubBytes s
  | .shiftRows => Sys2Proof.Machine.execShiftRows s
  | .invShiftRows => Sys2Proof.Machine.execInvShiftRows s
  | .mixColumns => Sys2Proof.Machine.execMixColumns s
  | .invMixColumns => Sys2Proof.Machine.execInvMixColumns s
  | .addRoundKey rnd => Sys2Proof.Machine.execAddRoundKey rnd s
  | .gf8Mul a b => Sys2Proof.Machine.execGf8Mul a b s
  | .gf128Mul => Sys2Proof.Machine.execGf128Mul s
  | .ghashInit => Sys2Proof.Machine.execGhashInit s
  | .ghashAad nb src => Sys2Proof.Machine.execGhashAad nb src s
  | .ghashCt nb src => Sys2Proof.Machine.execGhashCt nb src s
  | .ghashLen => Sys2Proof.Machine.execGhashLen s
  | .ctrInit => Sys2Proof.Machine.execCtrInit s
  | .ctrInc => Sys2Proof.Machine.execCtrInc s
  | .gctr nb dir => Sys2Proof.Machine.execGctr nb dir s
  | .gcmTag => Sys2Proof.Machine.execGcmTag s
  | .gcmVerify => Sys2Proof.Machine.execGcmVerify s

end Sys2Proof.Machine
end

