-- ==== Sys2Proof/Machine/Window.lean ====
section
/-! DEFINITION. The register window of 20_memory.md: the map R33, reads R40 and R41, writes R40 and R121, and the bus
access R38 and R123. -/

namespace Sys2Proof.Machine

/-- What an offset of the window names: a register, with the word of it (R33). -/
inductive Slot where
  | cmd
  | status
  | result
  | key (k : Nat)
  | din (k : Nat)
  | dout (k : Nat)
  | state (k : Nat)
  | h (k : Nat)
  | x (k : Nat)
  | j0 (k : Nat)
  | cb (k : Nat)
  | nonce (k : Nat)
  | tag (k : Nat)
  | rtag (k : Nat)
  | alen (k : Nat)
  | clen (k : Nat)
  | ks (i : Nat)
  | reserved
  deriving DecidableEq, Repr

/-- A row of R33: first offset, number of words, and the register of word k. -/
structure Region where
  base  : Nat
  words : Nat
  slot  : Nat → Slot

/-- The register map R33. Every offset it does not list is reserved (R34). -/
def windowMap : List Region := [
  ⟨0x000, 1, fun _ => .cmd⟩,
  ⟨0x004, 1, fun _ => .status⟩,
  ⟨0x008, 1, fun _ => .result⟩,
  ⟨0x010, 8, .key⟩,
  ⟨0x030, 4, .din⟩,
  ⟨0x040, 4, .dout⟩,
  ⟨0x050, 4, .state⟩,
  ⟨0x060, 4, .h⟩,
  ⟨0x070, 4, .x⟩,
  ⟨0x080, 4, .j0⟩,
  ⟨0x090, 4, .cb⟩,
  ⟨0x0A0, 3, .nonce⟩,
  ⟨0x0B0, 4, .tag⟩,
  ⟨0x0C0, 4, .rtag⟩,
  ⟨0x0D0, 2, .alen⟩,
  ⟨0x0D8, 2, .clen⟩,
  ⟨0x100, 60, .ks⟩]

/-- The offset lies in the region. -/
def Region.holds (r : Region) (off : Nat) : Bool := decide (r.base ≤ off ∧ off < r.base + 4 * r.words)

/-- The register word at an offset (R33, R34). -/
def slotAt (off : Nat) : Slot :=
  match windowMap.find? (fun r => r.holds off) with
  | some r => r.slot ((off - r.base) / 4)
  | none => .reserved

/-- The value a read of a register word returns; KEY and reserved offsets read 0 (R33, R34, R36, R46). -/
def readSlot (slot : Slot) (s : State) : Word :=
  match slot with
  | .cmd => s.cmdLast
  | .status => statusWord s
  | .result => s.result
  | .key _ => 0
  | .din k => wordOf s.din k
  | .dout k => wordOf s.dout k
  | .state k => wordOf s.state k
  | .h k => wordOf s.h k
  | .x k => wordOf s.x k
  | .j0 k => wordOf s.j0 k
  | .cb k => wordOf s.cb k
  | .nonce k => wordOf s.nonce k
  | .tag k => wordOf s.tag k
  | .rtag k => wordOf s.rtag k
  | .alen k => wordOf s.alen k
  | .clen k => wordOf s.clen k
  | .ks i => s.ks.toList.getD i 0
  | .reserved => 0

/-- The effect of a write while BUSY = 0: CMD issues, STATUS acknowledges, an RW or WO word is replaced, anything else
is ignored (R40). -/
def writeSlot (slot : Slot) (v : Word) (s : State) : State :=
  match slot with
  | .cmd => latch v s
  | .status => ackStatus v s
  | .key k => { s with key := setWord s.key k v }
  | .din k => { s with din := setWord s.din k v }
  | .state k => { s with state := setWord s.state k v }
  | .h k => { s with h := setWord s.h k v }
  | .x k => { s with x := setWord s.x k v }
  | .cb k => { s with cb := setWord s.cb k v }
  | .nonce k => { s with nonce := setWord s.nonce k v }
  | .rtag k => { s with rtag := setWord s.rtag k v }
  | .result => s
  | .dout _ => s
  | .j0 _ => s
  | .tag _ => s
  | .alen _ => s
  | .clen _ => s
  | .ks _ => s
  | .reserved => s

/-- The word at an offset of the window: its current value, also while BUSY = 1 (R41). -/
def readWord (off : Nat) (s : State) : Word := readSlot (slotAt off) s

/-- A 32-bit write at an offset of the window; while BUSY = 1 it is refused with CMD_BUSY, whatever the offset (R121). -/
def writeWord (off : Nat) (v : Word) (s : State) : State :=
  if s.busy then raiseError .cmdBusy s else writeSlot (slotAt off) v s

/-- The effect of a well-formed access on the registers. -/
def busEffect (off : Nat) (op : BusOp) (s : State) : State :=
  match op with
  | .read => s
  | .write v => writeWord off v s

/-- What a well-formed access returns. -/
def busAnswer (off : Nat) (op : BusOp) (s : State) : Response :=
  match op with
  | .read => .data (readWord off s)
  | .write _ => .done

/-- An access at an offset from MMIO_BASE: past the window it is not the core's (R123); not 32 bits wide or not at a
multiple of 4 it is refused with AccessFault and no effect, before BUSY is looked at (R38, R122); else it is made. -/
def accessAt (off bytes : Nat) (op : BusOp) (s : State) : State :=
  if Config.windowBytes ≤ off then respond (.outside (Config.mmioBase + off)) s
  else if bytes ≠ 4 ∨ off % 4 ≠ 0 then respond (.accessFault (Config.mmioBase + off)) s
  else respond (busAnswer off op s) (busEffect off op s)

/-- A bus access of a host (R12, R32). -/
def busAccess (a : Access) (s : State) : State :=
  if a.addr < Config.mmioBase then respond (.outside a.addr) s
  else accessAt (a.addr - Config.mmioBase) a.bytes a.op s

end Sys2Proof.Machine
end

