-- ==== Sys2Proof/Machine/Procedures.lean ====
section
/-! DEFINITION. The host procedures of 40_command_engine.md R64 and R65: the notation as a machine of steps, one access or
one piece of local work a step (assumption log 9), the pseudo-commands of R55 and the for loop as the steps they expand to,
then the listings NEW (R85), ENCRYPT_BLOCK and DECRYPT_BLOCK (R91, R92), SEAL and OPEN (R116, R117). -/

namespace Sys2Proof.Machine

/-! ## Local variables -/

/-- A value read as a number; a byte string is none, and reads 0 (assumption log 9). -/
def Val.toNum : Val → Nat
  | .num n => n
  | .bytes _ => 0

/-- A value read as a byte string; a number is none, and reads as the empty one (assumption log 9). -/
def Val.toBytes : Val → List Byte
  | .num _ => []
  | .bytes b => b

/-- The value of local variable number `x`. -/
def getLocal (locals : List Val) (x : Nat) : Val := locals.getD x (.num 0)

/-- The local variables after `x <- v`. -/
def setLocal : Nat → Val → List Val → List Val
  | 0, v, [] => [v]
  | 0, v, _ :: vs => v :: vs
  | x + 1, v, [] => .num 0 :: setLocal x v []
  | x + 1, v, u :: vs => u :: setLocal x v vs

/-! ## Expressions -/

/-- Arithmetic on the numbers of a procedure. DESIGN CHOICE, the spec being silent: a number has no bound (assumption
log 20), a difference below 0 is 0, a quotient by 0 is 0, and `a mod 0` is `a` (assumption log 9). -/
def Arith.apply : Arith → Nat → Nat → Nat
  | .add, a, b => a + b
  | .sub, a, b => a - b
  | .mul, a, b => a * b
  | .div, a, b => a / b
  | .mod, a, b => a % b
  | .min, a, b => Nat.min a b

/-- The command with its operand KL, RND or NB a computed number, as in `RUN GHASH_AAD nb=n, src=din` (R116); a command
that has none of these is as it was (DESIGN CHOICE, assumption log 9). -/
def withOperand (i : Instr) (n : Nat) : Instr :=
  match i with
  | .keyExpand _ => .keyExpand (KeyCode.ofBits (BitVec.ofNat 2 n))
  | .addRoundKey _ => .addRoundKey n
  | .ghashAad _ src => .ghashAad n src
  | .ghashCt _ src => .ghashCt n src
  | .gctr _ dir => .gctr n dir
  | .gf8Mul a b => .gf8Mul a b
  | .nop => .nop
  | .encrypt => .encrypt
  | .decrypt => .decrypt
  | .subBytes => .subBytes
  | .invSubBytes => .invSubBytes
  | .shiftRows => .shiftRows
  | .invShiftRows => .invShiftRows
  | .mixColumns => .mixColumns
  | .invMixColumns => .invMixColumns
  | .gf128Mul => .gf128Mul
  | .ghashInit => .ghashInit
  | .ghashLen => .ghashLen
  | .ctrInit => .ctrInit
  | .ctrInc => .ctrInc
  | .gcmTag => .gcmTag
  | .gcmVerify => .gcmVerify

/-- The value of an expression. DESIGN CHOICE, the spec being silent: a number has no bound and is cut to its low 32 bits
only where it is serialized (assumption log 20), and a slice past the end of a string is short (assumption log 21). -/
def HostExpr.eval (vs : List Val) : HostExpr → Val
  | .num n => .num n
  | .bytes b => .bytes b
  | .var x => getLocal vs x
  | .arith op a b => .num (op.apply (a.eval vs).toNum (b.eval vs).toNum)
  | .len s => .num (s.eval vs).toBytes.length
  | .slice s lo n => .bytes (((s.eval vs).toBytes.drop (lo.eval vs).toNum).take (n.eval vs).toNum)
  | .cat a b => .bytes ((a.eval vs).toBytes ++ (b.eval vs).toBytes)
  | .word s k => .num (wordAt (s.eval vs).toBytes (k.eval vs).toNum).toNat
  | .serial w => .bytes (wordBytes (BitVec.ofNat 32 (w.eval vs).toNum))
  | .field w lo n => .num ((w.eval vs).toNum / 2 ^ lo % 2 ^ n)
  | .command i n => .num (encode (withOperand i (n.eval vs).toNum)).toNat

/-- Whether a condition holds; a number is never equal to a string (DESIGN CHOICE, assumption log 21). -/
def HostCond.holds (vs : List Val) : HostCond → Bool
  | .eq a b => a.eval vs == b.eval vs
  | .lt a b => decide ((a.eval vs).toNum < (b.eval vs).toNum)
  | .not c => !c.holds vs
  | .and c d => c.holds vs && d.holds vs

/-! ## One step of a procedure -/

/-- What follows the label `l` in a procedure's text. DESIGN CHOICE, the spec being silent: the first such label where the
text has it twice (assumption log 21), and nothing where it has none (assumption log 9). -/
def afterLabel (l : Nat) : List HostOp → List HostOp
  | [] => []
  | op :: rest => if op = .label l then rest else afterLabel l rest

/-- `goto l`. -/
def HostRun.jump (h : HostRun) (l : Nat) : HostRun := { h with rest := afterLabel l h.prog }

/-- `x <- v`. -/
def HostRun.set (h : HostRun) (x : Nat) (v : Val) : HostRun := { h with locals := setLocal x v h.locals }

/-- The procedure ends as `e` says, and takes no further step (R143). -/
def HostRun.finish (h : HostRun) (e : HostEnd) : HostRun := { h with rest := [], ending := e }

/-- The access of a procedure, always 32 bits wide (R56, R64); its address is not cut (assumption log 20). -/
def hostAccess (addr : HostAddr) (vs : List Val) (op : BusOp) (s : State) : State :=
  match addr with
  | .window off => accessAt (off.eval vs).toNum 4 op s
  | .absolute a => busAccess ⟨(a.eval vs).toNum, 4, op⟩ s

/-- What the bus answered to a write: only AccessFault ends the procedure (R123, U18, assumption log 19). -/
def HostRun.wrote (h : HostRun) (answer : Option Response) : HostRun :=
  match answer with
  | some (.accessFault a) => h.finish (.faulted a)
  | some (.data _) => h
  | some .done => h
  | some (.outside _) => h
  | none => h

/-- What the bus answered to a read into `x`: a refused read gives no data and ends the procedure (R38, R123, U18), and a
read outside the window gives the platform's word, number `n` (R34, assumption log 19). -/
def HostRun.received (h : HostRun) (x : Nat) (n : Nat) (answer : Option Response) : HostRun :=
  match answer with
  | some (.data v) => h.set x (.num v.toNat)
  | some (.outside _) => h.set x (.num (Config.platformWord n).toNat)
  | some (.accessFault a) => h.finish (.faulted a)
  | some .done => h
  | none => h

/-- The free words used up by the read that the bus has just answered (assumption log 19). -/
def countPlatformRead (s : State) : State :=
  match s.response with
  | some (.outside _) => { s with platformReads := s.platformReads + 1 }
  | some (.data _) => s
  | some (.accessFault _) => s
  | some .done => s
  | none => s

/-- `MemWrite(addr, 4, v)`; of a computed number of 2^32 or more the low 32 bits are written. DESIGN CHOICE: the spec gives
a procedure's numbers no width (assumption log 20). -/
def hostStore (addr : HostAddr) (v : HostExpr) (h : HostRun) (s : State) : HostRun × State :=
  let t := hostAccess addr h.locals (.write (BitVec.ofNat 32 (v.eval h.locals).toNum)) s
  (h.wrote t.response, t)

/-- `x <- MemRead(addr, 4)`. -/
def hostLoad (x : Nat) (addr : HostAddr) (h : HostRun) (s : State) : HostRun × State :=
  let t := hostAccess addr h.locals .read s
  (h.received x s.platformReads t.response, countPlatformRead t)

/-- One turn of WAIT: STATUS is read into `x`, and the loop is left only with `x[0] = 0` (R55). -/
def hostWait (x : Nat) (h : HostRun) (s : State) : HostRun × State :=
  let r := hostLoad x (.window (.num 0x004)) h s
  if (HostCond.eq (.field (.var x) 0 1) (.num 1)).holds r.1.locals then
    ({ r.1 with rest := .wait x :: r.1.rest }, r.2)
  else r

/-- A step of local work, which makes no access (R64). -/
def HostRun.work (h : HostRun) (op : HostOp) : HostRun :=
  match op with
  | .assign x e => h.set x (e.eval h.locals)
  | .label _ => h
  | .goto l => h.jump l
  | .ifGoto c l => if c.holds h.locals then h.jump l else h
  | .fail e => h.finish (.failed e)
  | .failIf c e => if c.holds h.locals then h.finish (.failed e) else h
  | .ret vs => h.finish (.returned (vs.map fun e => (e.eval h.locals).toBytes))
  | .store _ _ => h
  | .load _ _ => h
  | .wait _ => h

/-- The step `op`, the rest of the procedure being `h.rest`. -/
def opStep (op : HostOp) (h : HostRun) (s : State) : HostRun × State :=
  match op with
  | .store addr v => hostStore addr v h s
  | .load x addr => hostLoad x addr h s
  | .wait x => hostWait x h s
  | .assign x e => (h.work (.assign x e), s)
  | .label l => (h.work (.label l), s)
  | .goto l => (h.work (.goto l), s)
  | .ifGoto c l => (h.work (.ifGoto c l), s)
  | .fail e => (h.work (.fail e), s)
  | .failIf c e => (h.work (.failIf c e), s)
  | .ret vs => (h.work (.ret vs), s)

/-- The next step of a procedure that has not ended; past its last step it returns nothing (assumption log 9). -/
def runStep (h : HostRun) (s : State) : HostRun × State :=
  match h.rest with
  | op :: rest => opStep op { h with rest := rest } s
  | [] => (h.finish (.returned []), s)

/-- The next step of a procedure: one bus access, or local work (R56, R64). A procedure that has ended takes no step. -/
def hostStep (h : HostRun) (s : State) : HostRun × State :=
  match h.ending with
  | .running => runStep h s
  | .returned _ => (h, s)
  | .failed _ => (h, s)
  | .faulted _ => (h, s)

/-- The turn of host procedure number `k`; with no such procedure nothing happens (assumption log 3). -/
def hostTurn (k : Nat) (s : State) : State :=
  match s.hosts[k]? with
  | none => s
  | some h => { (hostStep h s).2 with hosts := s.hosts.set k (hostStep h s).1 }

/-! ## Pseudo-commands and loops -/

/-- `MMIO_BASE + base + 4·k`. -/
def wordAddr (base : Nat) (k : HostExpr) : HostAddr := .window (.arith .add (.num base) (.arith .mul (.num 4) k))

/-- `ISSUE <command>` of the command's word (R55). -/
def issueWord (w : HostExpr) : List HostOp := [.store (.window (.num 0x000)) w]

/-- `RUN <command>` of the command's word: ISSUE, then WAIT, which reads STATUS into `x` (R55). -/
def runWord (w : HostExpr) (x : Nat) : List HostOp := issueWord w ++ [.wait x]

/-- `ISSUE <command>` (R55). -/
def issue (i : Instr) : List HostOp := issueWord (.num (encode i).toNat)

/-- `RUN <command>` (R55). -/
def run (i : Instr) (x : Nat) : List HostOp := runWord (.num (encode i).toNat) x

/-- `WRBLK <off>, <b>`: four writes (R55). -/
def wrblk (off : Nat) (b : HostExpr) : List HostOp :=
  (List.range 4).map fun k => .store (.window (.num (off + 4 * k))) (.word b (.num k))

/-- `x <- RDBLK <off>`: four reads through `w`, the words serialized big-endian (R55). -/
def rdblk (x w off : Nat) : List HostOp :=
  .assign x (.bytes []) :: (List.range 4).flatMap fun k =>
    [.load w (.window (.num (off + 4 * k))), .assign x (.cat (.var x) (.serial (.var w)))]

/-- `for v in first .. stop-1: body`, increasing, with two labels of its own; an empty range runs no pass (R12, R64).
DESIGN CHOICE, the spec being silent: the bound is evaluated anew on every pass, and the test and the increment use the
variable's present value (assumption log 21). -/
def forFrom (v : Nat) (first stop : HostExpr) (top done : Nat) (body : List HostOp) : List HostOp :=
  [.assign v first, .label top, .ifGoto (.not (.lt (.var v) stop)) done] ++ body ++
    [.assign v (.arith .add (.var v) (.num 1)), .goto top, .label done]

/-- `for v in 0 .. count-1: body` (R12, R64). -/
def forLoop (v : Nat) (count : HostExpr) (top done : Nat) (body : List HostOp) : List HostOp :=
  forFrom v (.num 0) count top done body

/-- `for v in a .. b: body`, from a to b inclusive (R12, R64). -/
def forUp (v : Nat) (a b : HostExpr) (top done : Nat) (body : List HostOp) : List HostOp :=
  forFrom v a (.arith .add b (.num 1)) top done body

/-- `for v in a downto b: body`, from a to b inclusive, decreasing; an empty range runs no pass (R12, R64). The test that
ends the loop stands before the decrement, so that a range may end at 0. DESIGN CHOICE, the spec being silent: the bound is
evaluated before the first pass and after every pass, and the test and the decrement use the variable's present value
(assumption log 21). -/
def forDownto (v : Nat) (a b : HostExpr) (top done : Nat) (body : List HostOp) : List HostOp :=
  [.assign v a, .ifGoto (.lt (.var v) b) done, .label top] ++ body ++
    [.ifGoto (.not (.lt b (.var v))) done, .assign v (.arith .sub (.var v) (.num 1)), .goto top, .label done]

/-- A procedure about to take its first step, with its inputs and `temps` further local variables. -/
def start (prog : List HostOp) (inputs : List Val) (temps : Nat) : HostRun :=
  ⟨prog, prog, inputs ++ List.replicate temps (.num 0), .running⟩

/-! ## Procedures -/

/-- `x[lo+n-1 : lo] = v`, a test of a field of STATUS. -/
def fieldIs (x lo n v : Nat) : HostCond := .eq (.field (.var x) lo n) (.num v)

/-- `len(s) ≠ n`. -/
def lengthIsNot (s : HostExpr) (n : Nat) : HostCond := .not (.eq (.len s) (.num n))

/-- `x <- MemRead(MMIO_BASE + 0x004, 4)`. -/
def readStatus (x : Nat) : List HostOp := [.load x (.window (.num 0x004))]

/-- The listing NEW (R85). Variables: 0 key, 1 KL, 2 k, 3 s. -/
def newProg : List HostOp :=
  [.failIf (.and (.and (lengthIsNot (.var 0) 16) (lengthIsNot (.var 0) 24)) (lengthIsNot (.var 0) 32)) .constructionError,
   .assign 1 (.arith .div (.arith .sub (.len (.var 0)) (.num 16)) (.num 8))] ++
  forLoop 2 (.arith .div (.len (.var 0)) (.num 4)) 0 1 [.store (wordAddr 0x010 (.var 2)) (.word (.var 0) (.var 2))] ++
  runWord (.command (.keyExpand .k128) (.var 1)) 3 ++ readStatus 3 ++
  [.failIf (fieldIs 3 1 1 0) .constructionError, .ret []]

/-- `NEW(key)` (R85). -/
def procNew (key : List Byte) : HostRun := start newProg [.bytes key] 3

/-- The common listing of ENCRYPT_BLOCK and DECRYPT_BLOCK (R91, R92). Variables: 0 src, 1 s, 2 the block read, 3 a word. -/
def blockProg (i : Instr) : List HostOp :=
  [.failIf (lengthIsNot (.var 0) 16) .preconditionViolation] ++ wrblk 0x030 (.var 0) ++ run i 1 ++ readStatus 1 ++
  [.failIf (.and (fieldIs 1 5 1 1) (fieldIs 1 8 4 3)) .preconditionViolation] ++ rdblk 2 3 0x040 ++ [.ret [.var 2]]

/-- `ENCRYPT_BLOCK(src)` (R91). -/
def procEncryptBlock (src : List Byte) : HostRun := start (blockProg .encrypt) [.bytes src] 3

/-- `DECRYPT_BLOCK(src)` (R92). -/
def procDecryptBlock (src : List Byte) : HostRun := start (blockProg .decrypt) [.bytes src] 3

/-- `ceil(len(s)/16)`, the number of blocks of a byte string (R116). -/
def blockCount (s : HostExpr) : HostExpr := .arith .div (.arith .add (.len s) (.num 15)) (.num 16)

/-- `s[16j .. 16j+n-1]` with j variable 4 and n variable 5 (R116, R117). -/
def blockOfInput (s : HostExpr) : HostExpr := .slice s (.arith .mul (.num 16) (.var 4)) (.var 5)

/-- `n <- min(16, len(s) - 16j)`, then `WRBLK 0x030, pad(s[16j .. 16j+n-1], 16)` (R116, R117). -/
def loadBlock (s : HostExpr) : List HostOp :=
  .assign 5 (.arith .min (.num 16) (.arith .sub (.len s) (.arith .mul (.num 16) (.var 4)))) ::
    wrblk 0x030 (blockOfInput s)

/-- The opening of SEAL and OPEN up to GHASH_INIT, the nonce being variable 0 and s variable 3 (R116, R117). -/
def openingProg : List HostOp :=
  [.store (.window (.num 0x004)) (.num 0x00000030)] ++
  forLoop 4 (.num 3) 0 1 [.store (wordAddr 0x0A0 (.var 4)) (.word (.var 0) (.var 4))] ++
  run .ctrInit 3 ++ run .ctrInc 3 ++ run .ghashInit 3

/-- The loop over the associated data, which is variable 2 (R116, R117). -/
def aadProg : List HostOp :=
  forLoop 4 (blockCount (.var 2)) 2 3 (loadBlock (.var 2) ++ runWord (.command (.ghashAad 0 .din) (.var 5)) 3)

/-- One plaintext block of SEAL: encrypt it, append it to c, hash it from DOUT (R116). -/
def sealBlockProg : List HostOp :=
  loadBlock (.var 1) ++ runWord (.command (.gctr 0 .sealing) (.var 5)) 3 ++ rdblk 8 7 0x040 ++
  [.assign 6 (.cat (.var 6) (.slice (.var 8) (.num 0) (.var 5)))] ++
  runWord (.command (.ghashCt 0 .dout) (.var 5)) 3

/-- `if len(nonce) ≠ 12: fail PreconditionViolation` (R116, R117). -/
def nonceCheck : HostOp := .failIf (lengthIsNot (.var 0) Config.nonceSize) .preconditionViolation

/-- The listing SEAL (R116). Variables: 0 nonce, 1 p, 2 a, 3 s, 4 j (and k), 5 n, 6 c, 7 a word, 8 the block read. -/
def sealProg : List HostOp :=
  [nonceCheck] ++ openingProg ++ aadProg ++ [.assign 6 (.bytes [])] ++
  forLoop 4 (blockCount (.var 1)) 4 5 sealBlockProg ++
  run .ghashLen 3 ++ run .gcmTag 3 ++ readStatus 3 ++ [.failIf (fieldIs 3 5 1 1) .preconditionViolation] ++
  rdblk 8 7 0x0B0 ++ [.ret [.cat (.var 6) (.var 8)]]

/-- `SEAL(nonce, p, a)` (R116). -/
def procSeal (nonce p a : List Byte) : HostRun := start sealProg [.bytes nonce, .bytes p, .bytes a] 6

/-- One ciphertext block of OPEN's pass 1: hash it (R117). -/
def authBlockProg : List HostOp := loadBlock (.var 9) ++ runWord (.command (.ghashCt 0 .din) (.var 5)) 3

/-- One ciphertext block of OPEN's pass 2: decrypt it, append it to p (R117). -/
def openBlockProg : List HostOp :=
  loadBlock (.var 9) ++ runWord (.command (.gctr 0 .opening) (.var 5)) 3 ++ rdblk 8 7 0x040 ++
  [.assign 6 (.cat (.var 6) (.slice (.var 8) (.num 0) (.var 5)))]

/-- `len(ct) - 16`, ct being variable 1 (R117). -/
def bodyLength : HostExpr := .arith .sub (.len (.var 1)) (.num Config.overhead)

/-- OPEN up to its verdict (R117). -/
def authProg : List HostOp :=
  [nonceCheck, .failIf (.lt (.len (.var 1)) (.num Config.overhead)) .authError,
   .assign 9 (.slice (.var 1) (.num 0) bodyLength),
   .assign 10 (.slice (.var 1) bodyLength (.num Config.overhead))] ++
  openingProg ++ aadProg ++ forLoop 4 (blockCount (.var 9)) 4 5 authBlockProg ++
  run .ghashLen 3 ++ run .gcmTag 3 ++ wrblk 0x0C0 (.var 10) ++ run .gcmVerify 3 ++ readStatus 3 ++
  [.failIf (fieldIs 3 5 1 1) .preconditionViolation, .failIf (fieldIs 3 3 1 0) .authError]

/-- The listing OPEN (R117). Variables: 0 nonce, 1 ct, 2 a, 3 s, 4 j (and k), 5 n, 6 p, 7 a word, 8 the block read, 9 c,
10 t. -/
def openProg : List HostOp :=
  authProg ++ [.assign 6 (.bytes [])] ++ forLoop 4 (blockCount (.var 9)) 6 7 openBlockProg ++ [.ret [.var 6]]

/-- `OPEN(nonce, ct, a)` (R117). -/
def procOpen (nonce ct a : List Byte) : HostRun := start openProg [.bytes nonce, .bytes ct, .bytes a] 8

end Sys2Proof.Machine
end

