-- ==== Sys2Proof/Machine/Engine.lean ====
section
/-! DEFINITION. The command engine of 40_command_engine.md: the core's perform step (R58), and one turn of any agent
(R56, R136). -/

namespace Sys2Proof.Machine

/-- The end of the perform step: `BUSY <- 0`, in every case (R58). -/
def finish (r : Result) : Result :=
  match r with
  | .next t => .next (complete t)
  | .fault f => .fault f
  | .refused f => .refused f

/-- The core's perform step: decode PENDING, execute, complete; an illegal word fails with ILLEGAL_OP (R51, R58, R59). -/
def perform (s : State) : Result :=
  match decode s.pending with
  | .ok i => finish (exec i s)
  | .error _ => finish (.next (raiseError .illegalOp s))

/-- The core's turn: perform is enabled exactly when BUSY = 1 (R56). -/
def coreTurn (s : State) : Result := if s.busy then perform s else .next s

/-- One turn of an agent (R56, R136). -/
def takeTurn (t : Turn) (s : State) : Result :=
  match t with
  | .core => coreTurn s
  | .access a => .next (busAccess a s)
  | .host k => .next (hostTurn k s)
  | .reset => .next (resetCore s)

/-- The next step: the oldest turn of the agenda, or, with an empty agenda, the core's (assumption log 3). -/
def nextTurn (s : State) : Result :=
  match s.agenda with
  | [] => coreTurn s
  | t :: rest => takeTurn t { s with agenda := rest }

/-- The word in the slot PENDING, as a host's CMD write latches it, and the core's turn next. -/
def placeCommand (w : Word) (s : State) : State := { latch w s with agenda := .core :: s.agenda }

end Sys2Proof.Machine
end

