-- ==== Sys2Proof/Machine/Step.lean ====
section
/-! DEFINITION. The step of the machine, and how a command word is placed where the next step fetches it. -/

namespace Sys2Proof.Machine

/-- One step of one agent (R56). -/
def step (s : State) : Host.Outcome State Fault Refusal := nextTurn s

/-- `s` with the command word `w` latched as a CMD write latches it, and the core's turn next, so that the very next step
decodes and performs it (R57, R58, assumption log 10). -/
def State.withFetchWord (s : State) (nbits w : Nat) : State := placeCommand (BitVec.ofNat 32 (w % 2 ^ nbits)) s

end Sys2Proof.Machine
end

