-- ==== Sys2Proof/Safety.lean ====
section
/-! DEFINITION. What counts as a safe state and a safe step, in the terms the claims use: the invariant of the registers,
the notions 'the command of this step' and 'the same but for KEY', and the command sequences the rules speak of. -/

namespace Sys2Proof.Machine

/-- KS and NR hold the expansion of a key of a valid length (R19, R20). -/
def HoldsExpansion (s : State) : Prop :=
  ∃ (key : Key) (kl : KeyCode) (nk : Nat), nkOf kl = some nk ∧ s.ks = keySchedule key nk ∧
    s.nr = BitVec.ofNat 4 (roundsOf nk)

/-- No key schedule is left: NR and every word of KS are zero (R19, R84). -/
def HoldsNoKey (s : State) : Prop := s.nr = 0 ∧ s.ks = Vector.replicate 60 0

/-- What every step keeps and reset gives: the relations between registers that the rules state one by one. -/
structure Inv (s : State) : Prop where
  /-- R19, R20: KEY_VALID is 1 exactly when KS and NR hold an expansion. -/
  keyed : s.keyValid = true → HoldsExpansion s
  /-- R19, R31, R84: with KEY_VALID = 0, NR and KS are zero. -/
  unkeyed : s.keyValid = false → HoldsNoKey s
  /-- R108, R109, R114: a verified tag is a valid tag. -/
  okNeedsValid : s.tagOk = true → s.tagValid = true
  /-- R84, R113: a valid tag was computed under the present key schedule. -/
  validNeedsKey : s.tagValid = true → s.keyValid = true
  /-- R28, R119, R120: ERRCODE is NONE exactly when ERR is clear. -/
  errHasCode : s.err = false ↔ s.errcode = .none
  /-- R27, R57: CMD_LAST is the word that was latched into PENDING. -/
  lastIsPending : s.cmdLast = s.pending
  /-- R23, R73: `RESULT[31:8]` is zero. -/
  resultIsByte : s.result.extractLsb' 8 24 = 0
  /-- R24, R102: ALEN and CLEN count whole bytes. -/
  lengthsAreBytes : s.alen.toNat % 8 = 0 ∧ s.clen.toNat % 8 = 0
  /-- R25, R110: J0 is its reset value or ends in be32(1). -/
  j0Form : s.j0 = 0 ∨ wordOf s.j0 3 = 1

/-- The turn the next step takes: the agenda's oldest, or the core's. -/
def turnOf (s : State) : Turn :=
  match s.agenda with
  | [] => .core
  | t :: _ => t

/-- The state with its agenda moved on by one turn. -/
def popTurn (s : State) : State := { s with agenda := s.agenda.tail }

/-- The next step is the core performing the command `i` (R58). -/
def performsNext (s : State) (i : Instr) : Prop :=
  turnOf s = .core ∧ s.busy = true ∧ decode s.pending = .ok i

/-- The two states are the same in everything but KEY. -/
def SameButKey (s t : State) : Prop := { s with key := 0 } = { t with key := 0 }

/-- The commands that read the key schedule and fail with NO_KEY without one (R119). -/
def needsKey : Instr → Bool
  | .encrypt => true
  | .decrypt => true
  | .addRoundKey _ => true
  | .ghashInit => true
  | .gctr _ _ => true
  | .gcmTag => true
  | .nop => false
  | .keyExpand _ => false
  | .subBytes => false
  | .invSubBytes => false
  | .shiftRows => false
  | .invShiftRows => false
  | .mixColumns => false
  | .invMixColumns => false
  | .gf8Mul _ _ => false
  | .gf128Mul => false
  | .ghashAad _ _ => false
  | .ghashCt _ _ => false
  | .ghashLen => false
  | .ctrInit => false
  | .ctrInc => false
  | .gcmVerify => false

/-- The causes of R119: the command `i` may raise `code` in the state `s`. -/
def mayRaise (i : Instr) (s : State) (code : ErrCode) : Prop :=
  match code with
  | .none => False
  | .illegalOp => False
  | .badKeylen => i = .keyExpand .invalid
  | .noKey => needsKey i = true ∧ s.keyValid = false
  | .badArg =>
    (∃ rnd, i = .addRoundKey rnd ∧ s.nr.toNat < rnd) ∨
    (∃ nb, (nb = 0 ∨ 16 < nb) ∧
      ((∃ src, i = .ghashAad nb src) ∨ (∃ src, i = .ghashCt nb src) ∨ (∃ dir, i = .gctr nb dir)))
  | .authRequired => ∃ nb, i = .gctr nb .opening ∧ s.tagOk = false
  | .cmdBusy => False
  | .noTag => i = .gcmVerify ∧ s.tagValid = false

/-! ## Sequences of commands -/

/-- Go on with `k` where `r` is a state. -/
def thenDo (r : Result) (k : State → Result) : Result :=
  match r with
  | .next t => k t
  | .fault f => .fault f
  | .refused f => .refused f

/-- The commands of a list, performed one after another (R60). -/
def execAll : List Instr → State → Result
  | [], s => .next s
  | i :: is, s => thenDo (exec i s) (execAll is)

/-- Each block of a list loaded into DIN by the host and hashed from there by `cmd` (R99). -/
def hashAll (cmd : Nat → Src → Instr) : List (List Byte) → State → Result
  | [], s => .next s
  | b :: bs, s => thenDo (exec (cmd b.length .din) { s with din := blockAt b }) (hashAll cmd bs)

/-- Each block of a list loaded into DIN and put through GCTR, the bytes of each block read from DOUT (R106, R116). -/
def maskAll (dir : Dir) : List (List Byte) → List Byte → State → Host.Outcome (List Byte × State) Fault Refusal
  | [], out, s => .next (out, s)
  | b :: bs, out, s =>
    match exec (.gctr b.length dir) { s with din := blockAt b } with
    | .next t => maskAll dir bs (out ++ (bytesOf t.dout).take b.length) t
    | .fault f => .fault f
    | .refused f => .refused f

/-- The commands of R86 that encrypt STATE round by round (R134). -/
def encryptCommands (nr : Nat) : List Instr :=
  [.addRoundKey 0] ++
  (middleRounds nr).flatMap (fun r => [.subBytes, .shiftRows, .mixColumns, .addRoundKey r]) ++
  [.subBytes, .shiftRows, .addRoundKey nr]

/-- The commands of R87 that decrypt STATE round by round (R134). -/
def decryptCommands (nr : Nat) : List Instr :=
  [.addRoundKey nr] ++
  (middleRounds nr).reverse.flatMap (fun r => [.invShiftRows, .invSubBytes, .addRoundKey r, .invMixColumns]) ++
  [.invShiftRows, .invSubBytes, .addRoundKey 0]

/-! ## Runs -/

/-- The eager schedule of 95_test_vectors.md section 4: the core's turn follows each step of host procedure 0. -/
def eagerAgenda : Nat → List Turn
  | 0 => []
  | n + 1 => .host 0 :: .core :: eagerAgenda n

/-- The NONCE register after the three word writes of SEAL and OPEN (R116, R117). -/
def nonceOf (nonce : List Byte) : Nonce := wordAt nonce 0 ++ wordAt nonce 1 ++ wordAt nonce 2

/-- The machine runs host procedure 0 alone under the eager schedule from `s`: from some round on it has run without a
stop, the core is idle, and `Post` holds of the state and of the procedure. -/
def EndsAlone (s : State) (Post : State → HostRun → Prop) : Prop :=
  ∃ rounds : Nat, ∀ n : Nat, rounds ≤ n → ∃ (t : State) (h : HostRun),
    Host.Core.run Sys2Proof.core (2 * n) { s with agenda := eagerAgenda n } = .next t ∧
    t.hosts = [h] ∧ t.agenda = [] ∧ t.busy = false ∧ Post t h

/-- The procedure failed with `e` and changed nothing but its own record. -/
def FailedUntouched (e : SoftError) (s t : State) (h : HostRun) : Prop :=
  h.ending = .failed e ∧ t = { s with hosts := [h], agenda := [] }

/-- A run in which no step stops: the outcome of `n` steps is a state. -/
def RunsOn (n : Nat) (s : State) : Prop := ∃ t, Host.Core.run Sys2Proof.core n s = .next t

end Sys2Proof.Machine
end

