-- ==== Sys2Proof/Certificates/Slice0/Obligations.lean ====
section
/-! DEFINITION. The statements for the provers, from the numbered rules of spec/. Frames are written as equations of
states: a next state `{ s with f := v }` says that everything but `f` is as before. Which agent takes the next step is the
agenda's, the model's own field (assumption log 2, 3); every statement holds for every agenda its hypotheses allow. -/

open Sys2Proof Sys2Proof.Machine

/-! ## Encoding -/

/-- R48 to R50: decoding the word of a well-formed command gives the command back, every operand at every value. -/
def Obligations.EncodeDecodeRoundTrip : Prop :=
  ∀ i : Instr, i.wf = true → decode (encode i) = .ok i

/-- R48 to R50: a word that decodes is the encoding of a well-formed command, so no bit of a legal word is ignored. -/
def Obligations.DecodedWordIsItsEncoding : Prop :=
  ∀ (w : Word) (i : Instr), decode w = .ok i → i.wf = true ∧ encode i = w

/-- R50: a word is a command exactly when `(w & mask) = match` for the command's row of the opcode map, and then its fields
are the word's bits at the places of the row's format. -/
def Obligations.OpcodeMap : Prop :=
  ∀ w : Word,
    (decode w = .ok .nop ↔ w &&& 0xFFFFFFFF = 0x00000000) ∧
    (∀ kl, decode w = .ok (.keyExpand kl) ↔ w &&& 0xFFFFFF3F = 0x00000001 ∧
      (w.extractLsb' 6 2).toNat = (match kl with | .k128 => 0 | .k192 => 1 | .k256 => 2 | .invalid => 3)) ∧
    (decode w = .ok .encrypt ↔ w &&& 0xFFFFFFFF = 0x00000002) ∧
    (decode w = .ok .decrypt ↔ w &&& 0xFFFFFFFF = 0x00000003) ∧
    (decode w = .ok .subBytes ↔ w &&& 0xFFFFFFFF = 0x00000008) ∧
    (decode w = .ok .invSubBytes ↔ w &&& 0xFFFFFFFF = 0x00000009) ∧
    (decode w = .ok .shiftRows ↔ w &&& 0xFFFFFFFF = 0x0000000A) ∧
    (decode w = .ok .invShiftRows ↔ w &&& 0xFFFFFFFF = 0x0000000B) ∧
    (decode w = .ok .mixColumns ↔ w &&& 0xFFFFFFFF = 0x0000000C) ∧
    (decode w = .ok .invMixColumns ↔ w &&& 0xFFFFFFFF = 0x0000000D) ∧
    (∀ rnd, decode w = .ok (.addRoundKey rnd) ↔ w &&& 0xFFFFF0FF = 0x0000000E ∧ rnd = (w.extractLsb' 8 4).toNat) ∧
    (∀ a b, decode w = .ok (.gf8Mul a b) ↔
      w &&& 0xFF0000FF = 0x00000010 ∧ a = w.extractLsb' 8 8 ∧ b = w.extractLsb' 16 8) ∧
    (decode w = .ok .gf128Mul ↔ w &&& 0xFFFFFFFF = 0x00000011) ∧
    (decode w = .ok .ghashInit ↔ w &&& 0xFFFFFFFF = 0x00000018) ∧
    (∀ nb src, decode w = .ok (.ghashAad nb src) ↔
      w &&& 0xFFFEE0FF = 0x00000019 ∧ nb = (w.extractLsb' 8 5).toNat ∧ (src = .dout ↔ w.getLsbD 16 = true)) ∧
    (∀ nb src, decode w = .ok (.ghashCt nb src) ↔
      w &&& 0xFFFEE0FF = 0x0000001A ∧ nb = (w.extractLsb' 8 5).toNat ∧ (src = .dout ↔ w.getLsbD 16 = true)) ∧
    (decode w = .ok .ghashLen ↔ w &&& 0xFFFFFFFF = 0x0000001B) ∧
    (decode w = .ok .ctrInit ↔ w &&& 0xFFFFFFFF = 0x00000020) ∧
    (decode w = .ok .ctrInc ↔ w &&& 0xFFFFFFFF = 0x00000021) ∧
    (∀ nb dir, decode w = .ok (.gctr nb dir) ↔
      w &&& 0xFFFEE0FF = 0x00000022 ∧ nb = (w.extractLsb' 8 5).toNat ∧ (dir = .opening ↔ w.getLsbD 16 = true)) ∧
    (decode w = .ok .gcmTag ↔ w &&& 0xFFFFFFFF = 0x00000023) ∧
    (decode w = .ok .gcmVerify ↔ w &&& 0xFFFFFFFF = 0x00000024)

/-- R54, R63, R73, R80, R84, R103, R112: words written out from the formats decode to the commands they stand for. -/
def Obligations.SpecWordsDecode : Prop :=
  decode 0b00000000000000000000000000000000#32 = .ok .nop ∧
  decode 0b00000000000000000000000010000001#32 = .ok (.keyExpand .k256) ∧
  decode 0b00000000000000000000000000001011#32 = .ok .invShiftRows ∧
  decode 0b00000000000000000000111000001110#32 = .ok (.addRoundKey 14) ∧
  decode 0b00000000100000110101011100010000#32 = .ok (.gf8Mul 0x57 0x83) ∧
  decode 0b00000000000000010001000000011010#32 = .ok (.ghashCt 16 .dout) ∧
  decode 0b00000000000000010000010100100010#32 = .ok (.gctr 5 .opening)

/-- R51: which words are illegal by an unassigned OP and which by a reserved bit. An illegal word is latched into CMD_LAST
like any other, and performing it changes nothing but ERR, ERRCODE and BUSY. -/
def Obligations.IllegalWordsFail : Prop :=
  (∀ w : Word, decode w = .error .unassignedOpcode ↔
    (0x04 ≤ (opOf w).toNat ∧ (opOf w).toNat ≤ 0x07) ∨ (opOf w).toNat = 0x0F ∨
    (0x12 ≤ (opOf w).toNat ∧ (opOf w).toNat ≤ 0x17) ∨ (0x1C ≤ (opOf w).toNat ∧ (opOf w).toNat ≤ 0x1F) ∨
    0x25 ≤ (opOf w).toNat) ∧
  (∀ w : Word, decode w = .error .reservedBitSet ↔
    (∃ r ∈ opcodeTable, opOf r.pattern = opOf w) ∧ ∀ r ∈ opcodeTable, w &&& r.mask ≠ r.pattern) ∧
  (∀ (s : State) (w : Word) (e : Reject), decode w = .error e → s.busy = false →
    (busAccess ⟨Config.mmioBase, 4, .write w⟩ s).cmdLast = w ∧ (busAccess ⟨Config.mmioBase, 4, .write w⟩ s).busy = true ∧
    (busAccess ⟨Config.mmioBase, 4, .write w⟩ s).pending = w) ∧
  (∀ (s : State) (e : Reject), turnOf s = .core → s.busy = true → decode s.pending = .error e →
    step s = .next { popTurn s with err := true, errcode := .illegalOp, busy := false })

/-! ## The step -/

/-- R58: in the core's turn the latched command is decoded and executed, and BUSY is cleared, whether the command completes
or raises an error; an illegal word raises ILLEGAL_OP. -/
def Obligations.PerformRunsTheDecodedCommand : Prop :=
  (∀ (s t : State) (i : Instr), turnOf s = .core → s.busy = true → decode s.pending = .ok i →
    exec i (popTurn s) = .next t → step s = .next { t with busy := false }) ∧
  (∀ (s : State) (e : Reject), turnOf s = .core → s.busy = true → decode s.pending = .error e →
    step s = .next { popTurn s with err := true, errcode := .illegalOp, busy := false })

/-- R58, R60, R61: every latched command, legal or not, is complete after the core's turn, and stays readable in CMD_LAST.
That PENDING, which R27 calls meaningless from then on, keeps its word is the model's reading (assumption log 6). -/
def Obligations.LatchedCommandCompletes : Prop :=
  ∀ s : State, turnOf s = .core → s.busy = true →
    ∃ t, step s = .next t ∧ t.busy = false ∧ t.cmdLast = s.cmdLast ∧ t.pending = s.pending ∧
      t.response = s.response ∧ t.hosts = s.hosts ∧ t.agenda = s.agenda.tail ∧ t.platformReads = s.platformReads

/-- R56, R120, R123, R127: no step of any agent ever stops the machine, from any state and for any number of steps. A failed
command is recorded in STATUS. That AccessFault, a bus response (R123), is no stop either, and that a turn with nothing to
do answers a state, is the model's choice (assumption log 3, 4). -/
def Obligations.MachineNeverStops : Prop :=
  ∀ (n : Nat) (s : State), RunsOn n s

/-- The model's choice (assumption log 10): a placed command word is what the very next step performs. -/
def Obligations.PlacedWordIsPerformed : Prop :=
  ∀ (s t : State) (w : Word) (i : Instr), decode w = .ok i →
    exec i { s with pending := w, cmdLast := w, busy := true } = .next t →
    step (s.withFetchWord 32 w.toNat) = .next { t with busy := false }

/-- R56, R136: a step is the oldest turn of the agenda: a bus access, a step of a host procedure, or reset. What an empty
agenda, a turn of the core with BUSY = 0 and a turn of no host do is the model's choice (assumption log 2, 3, 13). -/
def Obligations.TurnsAreTaken : Prop :=
  (∀ (s : State) (a : Access), turnOf s = .access a → step s = .next (busAccess a (popTurn s))) ∧
  (∀ (s : State) (k : Nat) (h : HostRun), turnOf s = .host k → s.hosts[k]? = some h →
    step s = .next { (hostStep h (popTurn s)).2 with hosts := s.hosts.set k (hostStep h (popTurn s)).1 }) ∧
  (∀ (s : State) (k : Nat), turnOf s = .host k → s.hosts[k]? = none → step s = .next (popTurn s)) ∧
  (∀ s : State, turnOf s = .core → s.busy = false → step s = .next (popTurn s)) ∧
  (∀ s : State, turnOf s = .reset →
    step s = .next { State.reset with
      response := s.response, hosts := s.hosts, agenda := s.agenda.tail, platformReads := s.platformReads })

/-! ## The window -/

/-- R57: a write to CMD latches the word, legal or not, while BUSY = 0, and is refused while BUSY = 1; either way nothing
else changes, but for what the bus answers. -/
def Obligations.CommandWriteIssues : Prop :=
  ∀ (s : State) (w : Word), ∃ r : Option Response,
    (s.busy = false → busAccess ⟨Config.mmioBase, 4, .write w⟩ s =
      { s with pending := w, cmdLast := w, busy := true, response := r }) ∧
    (s.busy = true → busAccess ⟨Config.mmioBase, 4, .write w⟩ s =
      { s with err := true, errcode := .cmdBusy, response := r })

/-- R121: while BUSY = 1 a write at any offset changes nothing but ERR and ERRCODE (and what the bus answers), and a read is
not refused. -/
def Obligations.WritesWhileBusyAreRefused : Prop :=
  ∀ (s : State) (off : Nat) (v : Word), s.busy = true → off < 4096 → off % 4 = 0 →
    (∃ r : Option Response, busAccess ⟨Config.mmioBase + off, 4, .write v⟩ s =
      { s with err := true, errcode := .cmdBusy, response := r }) ∧
    busAccess ⟨Config.mmioBase + off, 4, .read⟩ s = { s with response := some (.data (readWord off s)) }

/-- R38: an access in the window that is not 32 bits wide at a multiple of 4 is AccessFault and changes no register, also
while BUSY = 1, where it does not set ERR. -/
def Obligations.BadAccessesChangeNothing : Prop :=
  ∀ (s : State) (addr bytes : Nat) (op : BusOp), Config.mmioBase ≤ addr → addr < Config.mmioBase + 4096 →
    (bytes ≠ 4 ∨ addr % 4 ≠ 0) →
    busAccess ⟨addr, bytes, op⟩ s = { s with response := some (.accessFault addr) }

/-- R40, R41: an aligned 32-bit read returns the present value of the register word and changes no register. R123: an access
outside the window is not the core's; that its first address decides is the model's reading (assumption log 5). R38, R64:
a host procedure's read puts the word in its local variable, and a refused read gives it no data. That the procedure then
ends (U18), and that past the window it gets some word of the platform's and goes on, is the model's form (assumption
log 9, 19). -/
def Obligations.ReadsHaveNoSideEffect : Prop :=
  (∀ (s : State) (addr : Nat), Config.mmioBase ≤ addr → addr < Config.mmioBase + 4096 → addr % 4 = 0 →
    busAccess ⟨addr, 4, .read⟩ s = { s with response := some (.data (readWord (addr - Config.mmioBase) s)) }) ∧
  (∀ (s : State) (addr bytes : Nat) (op : BusOp), (addr < Config.mmioBase ∨ Config.mmioBase + 4096 ≤ addr) →
    busAccess ⟨addr, bytes, op⟩ s = { s with response := some (.outside addr) }) ∧
  (∀ (s : State) (h : HostRun) (x off : Nat) (rest : List HostOp), h.ending = .running →
    h.rest = .load x (.window (.num off)) :: rest →
    (off < 4096 → off % 4 = 0 → hostStep h s =
      ({ h with rest := rest, locals := setLocal x (.num (readWord off s).toNat) h.locals },
        { s with response := some (.data (readWord off s)) })) ∧
    (off < 4096 → off % 4 ≠ 0 → hostStep h s =
      ({ h with rest := [], ending := .faulted (Config.mmioBase + off) },
        { s with response := some (.accessFault (Config.mmioBase + off)) })) ∧
    (4096 ≤ off → ∃ (v : Word) (n : Nat), hostStep h s =
      ({ h with rest := rest, locals := setLocal x (.num v.toNat) h.locals },
        { s with response := some (.outside (Config.mmioBase + off)), platformReads := n })))

/-- R34, R46: KEY words and reserved offsets read 0 whatever the state. -/
def Obligations.KeyAndReservedReadZero : Prop :=
  ∀ (s : State) (off : Nat), off % 4 = 0 →
    ((0x010 ≤ off ∧ off ≤ 0x02C) ∨ off = 0x00C ∨ off = 0x0AC ∨ (0x0E0 ≤ off ∧ off ≤ 0x0FC) ∨
      (0x1F0 ≤ off ∧ off ≤ 0xFFC)) →
    readWord off s = 0

/-- R33, R36, R40: a write to a word of DIN, STATE, H, X, CB, NONCE or RTAG reads back, every other offset of the window
reads as before, and KEY and PENDING, which no read shows, are unchanged. -/
def Obligations.RegisterWritesReadBack : Prop :=
  ∀ (s : State) (off off' : Nat) (v : Word), s.busy = false → off % 4 = 0 → off' % 4 = 0 → off' < 4096 →
    ((0x030 ≤ off ∧ off ≤ 0x03C) ∨ (0x050 ≤ off ∧ off ≤ 0x07C) ∨ (0x090 ≤ off ∧ off ≤ 0x0A8) ∨
      (0x0C0 ≤ off ∧ off ≤ 0x0CC)) →
    readWord off' (writeWord off v s) = (if off' = off then v else readWord off' s) ∧
    (writeWord off v s).key = s.key ∧ (writeWord off v s).pending = s.pending

/-- R17, R33, R40: a write to KEYk replaces that word of KEY, leaves the other seven, and changes nothing else. -/
def Obligations.KeyWritesReplaceOneWord : Prop :=
  ∀ (s : State) (k : Nat) (v : Word), s.busy = false → k < 8 →
    ∃ key : Key, writeWord (0x010 + 4 * k) v s = { s with key := key } ∧
      ∀ j, j < 8 → wordOf key j = if j = k then v else wordOf s.key j

/-- R34, R40: a write to a read-only or reserved offset while BUSY = 0 is ignored, with no error. -/
def Obligations.OtherWritesAreIgnored : Prop :=
  ∀ (s : State) (off : Nat) (v : Word), s.busy = false → off % 4 = 0 →
    (off = 0x008 ∨ off = 0x00C ∨ (0x040 ≤ off ∧ off ≤ 0x04C) ∨ (0x080 ≤ off ∧ off ≤ 0x08C) ∨ off = 0x0AC ∨
      (0x0B0 ≤ off ∧ off ≤ 0x0BC) ∨ (0x0D0 ≤ off ∧ off ≤ 0xFFC)) →
    writeWord off v s = s

/-- R28, R119: the fields of STATUS, its reserved bits, the numbers of the error codes, its reset value, and the effect of
a write to it. -/
def Obligations.StatusRegister : Prop :=
  (∀ s : State, readWord 0x004 s = statusWord s ∧
    (statusWord s).getLsbD 0 = s.busy ∧ (statusWord s).getLsbD 1 = s.keyValid ∧
    (statusWord s).getLsbD 2 = s.tagValid ∧ (statusWord s).getLsbD 3 = s.tagOk ∧
    (statusWord s).getLsbD 4 = s.authFail ∧ (statusWord s).getLsbD 5 = s.err ∧
    (statusWord s).extractLsb' 6 2 = 0 ∧ (statusWord s).extractLsb' 8 4 = s.errcode.bits ∧
    (statusWord s).extractLsb' 12 4 = 0 ∧ (statusWord s).extractLsb' 16 4 = s.nr ∧
    (statusWord s).extractLsb' 20 12 = 0 ∧ s.errcode.bits.toNat < 8) ∧
  (ErrCode.bits .none = 0 ∧ ErrCode.bits .illegalOp = 1 ∧ ErrCode.bits .badKeylen = 2 ∧ ErrCode.bits .noKey = 3 ∧
    ErrCode.bits .badArg = 4 ∧ ErrCode.bits .authRequired = 5 ∧ ErrCode.bits .cmdBusy = 6 ∧ ErrCode.bits .noTag = 7) ∧
  readWord 0x004 State.reset = 0 ∧
  (∀ (s : State) (v : Word), s.busy = false → writeWord 0x004 v s =
    { s with
      authFail := s.authFail && !v.getLsbD 4
      err := s.err && !v.getLsbD 5
      errcode := if v.getLsbD 5 then .none else s.errcode })

/-- R36: word k of each register the host reads holds its bytes 4k to 4k+3, byte 4k in bits [31:24]. -/
def Obligations.BusWordsAreBigEndian : Prop :=
  ∀ s : State,
    (∀ k, k < 4 →
      readWord (0x030 + 4 * k) s = wordBE (byteOf s.din (4 * k)) (byteOf s.din (4 * k + 1)) (byteOf s.din (4 * k + 2)) (byteOf s.din (4 * k + 3)) ∧
      readWord (0x040 + 4 * k) s = wordBE (byteOf s.dout (4 * k)) (byteOf s.dout (4 * k + 1)) (byteOf s.dout (4 * k + 2)) (byteOf s.dout (4 * k + 3)) ∧
      readWord (0x050 + 4 * k) s = wordBE (cell s.state 0 k) (cell s.state 1 k) (cell s.state 2 k) (cell s.state 3 k) ∧
      readWord (0x060 + 4 * k) s = wordBE (byteOf s.h (4 * k)) (byteOf s.h (4 * k + 1)) (byteOf s.h (4 * k + 2)) (byteOf s.h (4 * k + 3)) ∧
      readWord (0x070 + 4 * k) s = wordBE (byteOf s.x (4 * k)) (byteOf s.x (4 * k + 1)) (byteOf s.x (4 * k + 2)) (byteOf s.x (4 * k + 3)) ∧
      readWord (0x080 + 4 * k) s = wordBE (byteOf s.j0 (4 * k)) (byteOf s.j0 (4 * k + 1)) (byteOf s.j0 (4 * k + 2)) (byteOf s.j0 (4 * k + 3)) ∧
      readWord (0x090 + 4 * k) s = wordBE (byteOf s.cb (4 * k)) (byteOf s.cb (4 * k + 1)) (byteOf s.cb (4 * k + 2)) (byteOf s.cb (4 * k + 3)) ∧
      readWord (0x0B0 + 4 * k) s = wordBE (byteOf s.tag (4 * k)) (byteOf s.tag (4 * k + 1)) (byteOf s.tag (4 * k + 2)) (byteOf s.tag (4 * k + 3)) ∧
      readWord (0x0C0 + 4 * k) s = wordBE (byteOf s.rtag (4 * k)) (byteOf s.rtag (4 * k + 1)) (byteOf s.rtag (4 * k + 2)) (byteOf s.rtag (4 * k + 3))) ∧
    (∀ k, k < 3 →
      readWord (0x0A0 + 4 * k) s = wordBE (byteOf s.nonce (4 * k)) (byteOf s.nonce (4 * k + 1)) (byteOf s.nonce (4 * k + 2)) (byteOf s.nonce (4 * k + 3))) ∧
    readWord 0x0D0 s = s.alen.extractLsb' 32 32 ∧ readWord 0x0D4 s = s.alen.extractLsb' 0 32 ∧
    readWord 0x0D8 s = s.clen.extractLsb' 32 32 ∧ readWord 0x0DC s = s.clen.extractLsb' 0 32 ∧
    readWord 0x000 s = s.cmdLast ∧ readWord 0x008 s = s.result ∧
    (∀ i, i < 60 → readWord (0x100 + 4 * i) s = ksWord s.ks i)

/-- R30, the host's column: a host write changes none of the registers that only commands write. -/
def Obligations.HostWritesLeaveCoreRegisters : Prop :=
  ∀ (s t : State) (off : Nat) (v : Word), t = writeWord off v s →
    t.ks = s.ks ∧ t.nr = s.nr ∧ t.keyValid = s.keyValid ∧ t.dout = s.dout ∧ t.result = s.result ∧
    t.alen = s.alen ∧ t.clen = s.clen ∧ t.j0 = s.j0 ∧ t.tag = s.tag ∧ t.tagValid = s.tagValid ∧ t.tagOk = s.tagOk ∧
    t.response = s.response ∧ t.hosts = s.hosts ∧ t.agenda = s.agenda ∧ t.platformReads = s.platformReads

/-- R55, R62: WAIT reads STATUS once a step and goes on only when it has read BUSY = 0; it changes no register. That one
step of a procedure is one turn of the loop, and a procedure's text and variables, are the model's form (assumption
log 9). -/
def Obligations.WaitPollsBusy : Prop :=
  ∀ (s : State) (h : HostRun) (x : Nat) (rest : List HostOp), h.ending = .running → h.rest = .wait x :: rest →
    (s.busy = true → hostStep h s =
      ({ h with locals := setLocal x (.num (statusWord s).toNat) h.locals },
        { s with response := some (.data (statusWord s)) })) ∧
    (s.busy = false → hostStep h s =
      ({ h with locals := setLocal x (.num (statusWord s).toNat) h.locals, rest := rest, ending := .running },
        { s with response := some (.data (statusWord s)) }))

/-! ## Reset -/

/-- R31: every register is zero after reset. -/
def Obligations.ResetState : Prop :=
  let s := State.reset
  s.key = 0 ∧ s.ks = Vector.replicate 60 0 ∧ s.nr = 0 ∧ s.state = 0 ∧ s.din = 0 ∧ s.dout = 0 ∧ s.result = 0 ∧
  s.h = 0 ∧ s.x = 0 ∧ s.alen = 0 ∧ s.clen = 0 ∧ s.nonce = 0 ∧ s.j0 = 0 ∧ s.cb = 0 ∧ s.tag = 0 ∧ s.rtag = 0 ∧
  s.cmdLast = 0 ∧ s.keyValid = false ∧ s.busy = false ∧ s.tagValid = false ∧ s.tagOk = false ∧
  s.authFail = false ∧ s.err = false ∧ s.errcode = .none ∧ statusWord s = 0

/-- R136: after a reset turn no command is pending and the core's next turn does nothing, so a latched command that was
not yet performed is never performed. That the hidden PENDING is then 0 is the model's reading (assumption log 6). -/
def Obligations.ResetDiscardsThePendingCommand : Prop :=
  ∀ s t : State, turnOf s = .reset → step s = .next t →
    t.busy = false ∧ t.pending = 0 ∧ t.cmdLast = 0 ∧ (turnOf t = .core → step t = .next (popTurn t))

/-! ## GF(2^8), tables, word functions -/

/-- R67: the laws of the product in GF(2^8). -/
def Obligations.Gf8FieldLaws : Prop :=
  (∀ x y : Byte, gf8 x 0 = 0 ∧ gf8 0 y = 0 ∧ gf8 x 1 = x ∧ gf8 1 x = x) ∧
  (∀ x y : Byte, gf8 x y = gf8 y x) ∧
  (∀ x y z : Byte, gf8 (gf8 x y) z = gf8 x (gf8 y z)) ∧
  (∀ x y z : Byte, gf8 x (y ^^^ z) = gf8 x y ^^^ gf8 x z) ∧
  (∀ x : Byte, gf8 x 2 = (x <<< 1) ^^^ (if x.getLsbD 7 then 0x1B else 0) ∧ gf8 x 3 = gf8 x 2 ^^^ x) ∧
  (∀ x : Byte, x ≠ 0 → ∃ y, gf8 x y = 1 ∧ ∀ z, gf8 x z = 1 → z = y) ∧
  gf8 0x53 0xCA = 0x01 ∧ gf8 0x57 0x83 = 0xC1 ∧ gf8 0x57 0x13 = 0xFE

/-- R73, R100: GF8_MUL and GF128_MUL complete in every state, with the product as their only effect. -/
def Obligations.FieldMultiplyCommands : Prop :=
  decode 0x00835710#32 = .ok (.gf8Mul 0x57 0x83) ∧ decode 0x00000011#32 = .ok .gf128Mul ∧
  (∀ (s : State) (a b : Byte), ∃ r : Word, exec (.gf8Mul a b) s = .next { s with result := r } ∧
    r.extractLsb' 0 8 = gf8 a b ∧ r.extractLsb' 8 24 = 0) ∧
  (∀ s : State, exec .gf128Mul s = .next { s with dout := mulg s.din s.h })

/-- R70, R71: SBOX is the affine map of the inverse in GF(2^8), the inverse of 0 being taken as 0, and INV_SBOX is its
exact inverse, which fixes every entry of both tables. The spec marks their contents as general knowledge (assumption
log 11). -/
def Obligations.SboxAndItsInverse : Prop :=
  (∀ x y : Byte, (gf8 x y = 1 ∨ (x = 0 ∧ y = 0)) →
    sbox x = y ^^^ y.rotateLeft 1 ^^^ y.rotateLeft 2 ^^^ y.rotateLeft 3 ^^^ y.rotateLeft 4 ^^^ 0x63) ∧
  (∀ x : Byte, invSbox (sbox x) = x ∧ sbox (invSbox x) = x)

/-- R68, R81: the ten round constants, RotWord and SubWord. -/
def Obligations.WordFunctionsAndConstants : Prop :=
  (List.range' 1 10).map rcon =
    [0x01000000, 0x02000000, 0x04000000, 0x08000000, 0x10000000,
     0x20000000, 0x40000000, 0x80000000, 0x1b000000, 0x36000000] ∧
  (∀ j, pow2 0 = 1 ∧ pow2 (j + 1) = gf8 (pow2 j) 2 ∧ rcon (j + 1) = (pow2 j).setWidth 32 <<< 24) ∧
  (∀ a0 a1 a2 a3 : Byte,
    rotWord (wordBE a0 a1 a2 a3) = wordBE a1 a2 a3 a0 ∧
    subWord (wordBE a0 a1 a2 a3) = wordBE (sbox a0) (sbox a1) (sbox a2) (sbox a3))

/-! ## Round primitives -/

/-- R74, R75: SUB_BYTES and INV_SUB_BYTES look every byte of STATE up in their table and change nothing else. -/
def Obligations.SubBytesCommands : Prop :=
  decode 0x00000008#32 = .ok .subBytes ∧ decode 0x00000009#32 = .ok .invSubBytes ∧
  ∀ s : State,
    (∃ b : Block, exec .subBytes s = .next { s with state := b } ∧
      ∀ i, i < 16 → byteOf b i = sbox (byteOf s.state i)) ∧
    (∃ b : Block, exec .invSubBytes s = .next { s with state := b } ∧
      ∀ i, i < 16 → byteOf b i = invSbox (byteOf s.state i))

/-- R76, R77: SHIFT_ROWS rotates row r of STATE left by r and INV_SHIFT_ROWS right by r, and nothing else changes. -/
def Obligations.ShiftRowsCommands : Prop :=
  decode 0x0000000A#32 = .ok .shiftRows ∧ decode 0x0000000B#32 = .ok .invShiftRows ∧
  ∀ s : State,
    (∃ b : Block, exec .shiftRows s = .next { s with state := b } ∧
      ∀ r c, r < 4 → c < 4 → cell b r c = cell s.state r ((c + r) % 4)) ∧
    (∃ b : Block, exec .invShiftRows s = .next { s with state := b } ∧
      ∀ r c, r < 4 → c < 4 → cell b r ((c + r) % 4) = cell s.state r c)

/-- R78, R79: MIX_COLUMNS and INV_MIX_COLUMNS multiply every column of STATE by their matrix, and nothing else changes. -/
def Obligations.MixColumnsCommands : Prop :=
  decode 0x0000000C#32 = .ok .mixColumns ∧ decode 0x0000000D#32 = .ok .invMixColumns ∧
  ∀ s : State,
    (∃ b : Block, exec .mixColumns s = .next { s with state := b } ∧
      ∀ c, c < 4 →
        cell b 0 c = gf8 2 (cell s.state 0 c) ^^^ gf8 3 (cell s.state 1 c) ^^^ cell s.state 2 c ^^^ cell s.state 3 c ∧
        cell b 1 c = cell s.state 0 c ^^^ gf8 2 (cell s.state 1 c) ^^^ gf8 3 (cell s.state 2 c) ^^^ cell s.state 3 c ∧
        cell b 2 c = cell s.state 0 c ^^^ cell s.state 1 c ^^^ gf8 2 (cell s.state 2 c) ^^^ gf8 3 (cell s.state 3 c) ∧
        cell b 3 c = gf8 3 (cell s.state 0 c) ^^^ cell s.state 1 c ^^^ cell s.state 2 c ^^^ gf8 2 (cell s.state 3 c)) ∧
    (∃ b : Block, exec .invMixColumns s = .next { s with state := b } ∧
      ∀ c, c < 4 →
        cell b 0 c = gf8 0x0e (cell s.state 0 c) ^^^ gf8 0x0b (cell s.state 1 c) ^^^ gf8 0x0d (cell s.state 2 c) ^^^ gf8 0x09 (cell s.state 3 c) ∧
        cell b 1 c = gf8 0x09 (cell s.state 0 c) ^^^ gf8 0x0e (cell s.state 1 c) ^^^ gf8 0x0b (cell s.state 2 c) ^^^ gf8 0x0d (cell s.state 3 c) ∧
        cell b 2 c = gf8 0x0d (cell s.state 0 c) ^^^ gf8 0x09 (cell s.state 1 c) ^^^ gf8 0x0e (cell s.state 2 c) ^^^ gf8 0x0b (cell s.state 3 c) ∧
        cell b 3 c = gf8 0x0b (cell s.state 0 c) ^^^ gf8 0x0d (cell s.state 1 c) ^^^ gf8 0x09 (cell s.state 2 c) ^^^ gf8 0x0e (cell s.state 3 c))

/-- R80: ADD_ROUND_KEY xors round key RND into STATE when there is a key and `RND ≤ NR`, RND = NR included; without a key
it fails with NO_KEY, whatever RND, and with `RND > NR` with BAD_ARG. -/
def Obligations.AddRoundKeyCommand : Prop :=
  decode 0x0000010E#32 = .ok (.addRoundKey 1) ∧
  ∀ (s : State) (rnd : Nat),
    (s.keyValid = true → rnd ≤ s.nr.toNat →
      ∃ b : Block, exec (.addRoundKey rnd) s = .next { s with state := b } ∧
        ∀ r c, r < 4 → c < 4 → cell b r c = cell s.state r c ^^^ byteOf (ksWord s.ks (4 * rnd + c)) r) ∧
    (s.keyValid = false → exec (.addRoundKey rnd) s = .next { s with err := true, errcode := .noKey }) ∧
    (s.keyValid = true → s.nr.toNat < rnd →
      exec (.addRoundKey rnd) s = .next { s with err := true, errcode := .badArg })

/-- R75, R77, R79, R80: each inverse primitive undoes its primitive, on either side, and AddRoundKey undoes itself. -/
def Obligations.PrimitivesInvert : Prop :=
  ∀ b : Block,
    invSubBytes (subBytes b) = b ∧ subBytes (invSubBytes b) = b ∧
    invShiftRows (shiftRows b) = b ∧ shiftRows (invShiftRows b) = b ∧
    invMixColumns (mixColumns b) = b ∧ mixColumns (invMixColumns b) = b ∧
    ∀ (ks : Vector Word 60) (j : Nat), addRoundKey ks (addRoundKey ks b j) j = b

/-! ## Key schedule and cipher -/

/-- R82, R84: with a valid code KEY_EXPAND leaves in KS the words of the recurrence and zeros past them, sets NR and
KEY_VALID and clears the tag flags; with KL = 3 it wipes the schedule and raises BAD_KEYLEN. Nothing else changes. -/
def Obligations.KeyExpandCommand : Prop :=
  decode 0x00000001#32 = .ok (.keyExpand .k128) ∧ decode 0x00000041#32 = .ok (.keyExpand .k192) ∧
  decode 0x00000081#32 = .ok (.keyExpand .k256) ∧ decode 0x000000C1#32 = .ok (.keyExpand .invalid) ∧
  (∀ (s : State) (kl : KeyCode) (nk : Nat),
    ((kl = .k128 ∧ nk = 4) ∨ (kl = .k192 ∧ nk = 6) ∨ (kl = .k256 ∧ nk = 8)) →
    ∃ ks : Vector Word 60,
      exec (.keyExpand kl) s = .next
        { s with ks := ks, nr := BitVec.ofNat 4 (nk + 6), keyValid := true, tagValid := false, tagOk := false } ∧
      (∀ i, i < nk → ksWord ks i =
        wordBE (byteOf s.key (4 * i)) (byteOf s.key (4 * i + 1)) (byteOf s.key (4 * i + 2)) (byteOf s.key (4 * i + 3))) ∧
      (∀ i, nk ≤ i → i < 4 * (nk + 7) → ksWord ks i = ksWord ks (i - nk) ^^^
        (if i % nk = 0 then subWord (rotWord (ksWord ks (i - 1))) ^^^ rcon (i / nk)
         else if 6 < nk ∧ i % nk = 4 then subWord (ksWord ks (i - 1)) else ksWord ks (i - 1))) ∧
      (∀ i, 4 * (nk + 7) ≤ i → i < 60 → ksWord ks i = 0)) ∧
  (∀ s : State, exec (.keyExpand .invalid) s = .next
    { s with ks := Vector.replicate 60 0, nr := 0, keyValid := false, tagValid := false, tagOk := false,
             err := true, errcode := .badKeylen })

/-- R87: block decryption is the inverse of block encryption, on either side, for every key schedule and block. -/
def Obligations.DecryptInvertsEncrypt : Prop :=
  ∀ (ks : Vector Word 60) (nr : Nat) (b : Block),
    decryptBlock ks nr (encryptBlock ks nr b) = b ∧ encryptBlock ks nr (decryptBlock ks nr b) = b

/-- R88, R89: with a key ENCRYPT and DECRYPT write the result to STATE and DOUT and nothing else; without one they fail
with NO_KEY. -/
def Obligations.CipherCommands : Prop :=
  decode 0x00000002#32 = .ok .encrypt ∧ decode 0x00000003#32 = .ok .decrypt ∧
  ∀ s : State,
    (s.keyValid = true →
      exec .encrypt s = .next { s with
        state := encryptBlock s.ks s.nr.toNat s.din, dout := encryptBlock s.ks s.nr.toNat s.din } ∧
      exec .decrypt s = .next { s with
        state := decryptBlock s.ks s.nr.toNat s.din, dout := decryptBlock s.ks s.nr.toNat s.din }) ∧
    (s.keyValid = false →
      exec .encrypt s = .next { s with err := true, errcode := .noKey } ∧
      exec .decrypt s = .next { s with err := true, errcode := .noKey })

/-- R86, R87, R134: the cipher run round by round on STATE by the round-primitive commands computes what ENCRYPT and
DECRYPT compute, and changes nothing but STATE. The spec gives no cipher for NR other than 10, 12 and 14, which a valid key
does not leave; there the loops as written are the model's (assumption log 8). -/
def Obligations.RoundCommandsComputeTheCipher : Prop :=
  ∀ s : State, s.keyValid = true →
    execAll (encryptCommands s.nr.toNat) s = .next { s with state := encryptBlock s.ks s.nr.toNat s.state } ∧
    execAll (decryptCommands s.nr.toNat) s = .next { s with state := decryptBlock s.ks s.nr.toNat s.state }

/-! ## GF(2^128), GHASH -/

/-- R96, R97: the identity, zero, the distributive laws, the product with x, and the products R97 gives. With
commutativity and associativity these fix the product. -/
def Obligations.Gf128Laws : Prop :=
  (∀ a : Block, mulg a 0 = 0 ∧ mulg 0 a = 0 ∧
    mulg a 0x80000000000000000000000000000000 = a ∧ mulg 0x80000000000000000000000000000000 a = a) ∧
  (∀ a b c : Block, mulg (a ^^^ b) c = mulg a c ^^^ mulg b c ∧ mulg a (b ^^^ c) = mulg a b ^^^ mulg a c) ∧
  (∀ b : Block, mulg 0x40000000000000000000000000000000 b =
    (b >>> 1) ^^^ (if b.getLsbD 0 then 0xE1000000000000000000000000000000 else 0)) ∧
  mulg 0x40000000000000000000000000000000 0x00000000000000000000000000000001 = 0xE1000000000000000000000000000000 ∧
  mulg 0xC0000000000000000000000000000000 0x80000000000000000000000000000001 = 0x21000000000000000000000000000001

/-- R97: the product in GF(2^128) is commutative and associative. -/
def Obligations.Gf128CommutesAndAssociates : Prop :=
  (∀ a b : Block, mulg a b = mulg b a) ∧ (∀ a b c : Block, mulg (mulg a b) c = mulg a (mulg b c))

/-- R95: the source's shift on halves is the logical right shift for every amount. -/
def Obligations.HalvesShiftIsTheShift : Prop :=
  ∀ (v : Block) (n : Nat),
    (shrHalves (hiHalf v, loHalf v) n).1 ++ (shrHalves (hiHalf v, loHalf v) n).2 = shr128 v n ∧
    (shr128 v n).toNat = v.toNat / 2 ^ n ∧ (128 ≤ n → shr128 v n = 0)

/-- R101: GHASH_INIT derives H and clears the accumulator and the lengths; without a key it fails with NO_KEY. -/
def Obligations.GhashInitCommand : Prop :=
  decode 0x00000018#32 = .ok .ghashInit ∧
  ∀ s : State,
    (s.keyValid = true → exec .ghashInit s = .next { s with
      h := encryptBlock s.ks s.nr.toNat 0, x := 0, alen := 0, clen := 0, tagValid := false, tagOk := false }) ∧
    (s.keyValid = false → exec .ghashInit s = .next { s with err := true, errcode := .noKey })

/-- R102, R103: GHASH_AAD and GHASH_CT hash bytes 0 to NB-1 of the source block padded with zeros, add 8·NB to their
length modulo 2^64 and clear the tag flags, key or no key; any other NB fails with BAD_ARG and changes nothing else. -/
def Obligations.GhashBlockCommands : Prop :=
  decode 0x00001019#32 = .ok (.ghashAad 16 .din) ∧ decode 0x0001101A#32 = .ok (.ghashCt 16 .dout) ∧
  ∀ (s : State) (nb : Nat) (src : Src),
    (1 ≤ nb → nb ≤ 16 → ∃ (b : Block) (a c : Half),
      exec (.ghashAad nb src) s = .next { s with
        x := mulg (s.x ^^^ b) s.h, alen := a, tagValid := false, tagOk := false } ∧
      exec (.ghashCt nb src) s = .next { s with
        x := mulg (s.x ^^^ b) s.h, clen := c, tagValid := false, tagOk := false } ∧
      (∀ i, i < 16 → byteOf b i =
        if i < nb then (match src with | .din => byteOf s.din i | .dout => byteOf s.dout i) else 0) ∧
      a.toNat = (s.alen.toNat + 8 * nb) % 2 ^ 64 ∧ c.toNat = (s.clen.toNat + 8 * nb) % 2 ^ 64) ∧
    (nb = 0 ∨ 16 < nb →
      exec (.ghashAad nb src) s = .next { s with err := true, errcode := .badArg } ∧
      exec (.ghashCt nb src) s = .next { s with err := true, errcode := .badArg })

/-- R104: GHASH_LEN hashes the block `ALEN · 2^64 + CLEN` in every state and clears the tag flags. -/
def Obligations.GhashLenCommand : Prop :=
  decode 0x0000001B#32 = .ok .ghashLen ∧
  ∀ s : State, ∃ b : Block,
    exec .ghashLen s = .next { s with x := mulg (s.x ^^^ b) s.h, tagValid := false, tagOk := false } ∧
    b.toNat = s.alen.toNat * 2 ^ 64 + s.clen.toNat

/-- R99: GHASH_INIT, then GHASH_AAD for each block of A, then GHASH_CT for each block of C, then GHASH_LEN leave
`X = ghash(C, A, H)`, and of the other registers change only DIN, H, ALEN, CLEN and the tag flags. For a string of 2^61
bytes or more, be64 of its bit length taken modulo 2^64 is the model's reading (assumption log 22). -/
def Obligations.GhashCommandsComputeGhash : Prop :=
  ∀ (s : State) (a c : List Byte), s.keyValid = true →
    ∃ din : Block,
      thenDo (exec .ghashInit s) (fun s1 =>
        thenDo (hashAll .ghashAad (chunksOf a) s1) (fun s2 =>
          thenDo (hashAll .ghashCt (chunksOf c) s2) (exec .ghashLen))) =
      .next { s with
        din := din
        h := encryptBlock s.ks s.nr.toNat 0
        x := ghash c a (encryptBlock s.ks s.nr.toNat 0)
        alen := bitLength a
        clen := bitLength c
        tagValid := false
        tagOk := false }

/-! ## Counter mode, tag -/

/-- R105, R110, R111: CTR_INIT forms `NONCE ‖ be32(1)` in J0 and CB and clears the tag flags; CTR_INC adds 1 modulo 2^32
to the last word of CB and leaves its first 12 bytes; both in every state, with no other effect. -/
def Obligations.CounterCommands : Prop :=
  decode 0x00000020#32 = .ok .ctrInit ∧ decode 0x00000021#32 = .ok .ctrInc ∧
  ∀ s : State,
    (∃ b : Block, exec .ctrInit s = .next { s with j0 := b, cb := b, tagValid := false, tagOk := false } ∧
      (∀ i, i < 12 → byteOf b i = byteOf s.nonce i) ∧ wordOf b 3 = 1) ∧
    (∃ b : Block, exec .ctrInc s = .next { s with cb := b } ∧
      (∀ i, i < 12 → byteOf b i = byteOf s.cb i) ∧ (wordOf b 3).toNat = ((wordOf s.cb 3).toNat + 1) % 2 ^ 32)

/-- R112, R122: GCTR with a key, a legal NB and, when opening, a verified tag writes the masked bytes and zeros to DOUT
and increments CB, the same in both directions; otherwise it fails with NO_KEY, BAD_ARG, AUTH_REQUIRED in that order and
changes nothing else. -/
def Obligations.GctrCommand : Prop :=
  decode 0x00001022#32 = .ok (.gctr 16 .sealing) ∧ decode 0x00010522#32 = .ok (.gctr 5 .opening) ∧
  ∀ (s : State) (nb : Nat) (dir : Dir),
    (s.keyValid = true → 1 ≤ nb → nb ≤ 16 → (dir = .opening → s.tagOk = true) →
      ∃ b : Block, exec (.gctr nb dir) s = .next { s with dout := b, cb := inc32 s.cb } ∧
        ∀ i, i < 16 → byteOf b i =
          if i < nb then byteOf s.din i ^^^ byteOf (encryptBlock s.ks s.nr.toNat s.cb) i else 0) ∧
    (s.keyValid = false → exec (.gctr nb dir) s = .next { s with err := true, errcode := .noKey }) ∧
    (s.keyValid = true → nb = 0 ∨ 16 < nb →
      exec (.gctr nb dir) s = .next { s with err := true, errcode := .badArg }) ∧
    (s.keyValid = true → 1 ≤ nb → nb ≤ 16 → dir = .opening → s.tagOk = false →
      exec (.gctr nb dir) s = .next { s with err := true, errcode := .authRequired })

/-- R106: loading DIN block by block, issuing GCTR and reading DOUT computes `gctr(CB, data)`, and leaves CB as gctr
does. -/
def Obligations.GctrCommandsComputeGctr : Prop :=
  ∀ (s : State) (dir : Dir) (data : List Byte), s.keyValid = true → (dir = .opening → s.tagOk = true) →
    ∃ din dout : Block,
      maskAll dir (chunksOf data) [] s =
        .next ((gctr (encryptBlock s.ks s.nr.toNat) s.cb data).1,
          { s with din := din, dout := dout, cb := (gctr (encryptBlock s.ks s.nr.toNat) s.cb data).2 })

/-- R106: gctr keeps the length of its input and is its own inverse for the same starting counter block. -/
def Obligations.GctrInvertsItself : Prop :=
  ∀ (enc : Block → Block) (cb : Block) (data : List Byte),
    (gctr enc cb data).1.length = data.length ∧
    gctr enc cb (gctr enc cb data).1 = (data, (gctr enc cb data).2)

/-- R113: GCM_TAG with a key writes `X ⊕ E_K(J0)` to TAG, sets TAG_VALID and clears TAG_OK; without one it fails. -/
def Obligations.GcmTagCommand : Prop :=
  decode 0x00000023#32 = .ok .gcmTag ∧
  ∀ s : State,
    (s.keyValid = true → exec .gcmTag s = .next { s with
      tag := s.x ^^^ encryptBlock s.ks s.nr.toNat s.j0, tagValid := true, tagOk := false }) ∧
    (s.keyValid = false → exec .gcmTag s = .next { s with err := true, errcode := .noKey })

/-- R114, R124: GCM_VERIFY sets TAG_OK when TAG and RTAG are equal, and else clears it and sets AUTH_FAIL, with no error;
without a valid tag it fails with NO_TAG. -/
def Obligations.GcmVerifyCommand : Prop :=
  decode 0x00000024#32 = .ok .gcmVerify ∧
  ∀ s : State,
    (s.tagValid = true → s.tag = s.rtag → exec .gcmVerify s = .next { s with tagOk := true }) ∧
    (s.tagValid = true → s.tag ≠ s.rtag →
      exec .gcmVerify s = .next { s with tagOk := false, authFail := true }) ∧
    (s.tagValid = false → exec .gcmVerify s = .next { s with err := true, errcode := .noTag })

/-- R109, R114: over every step of every agent, TAG_OK becomes 1 only where the core performs GCM_VERIFY with TAG_VALID
set and TAG equal to RTAG. -/
def Obligations.TagOkOnlyByVerify : Prop :=
  ∀ s t : State, step s = .next t → s.tagOk = false → t.tagOk = true →
    performsNext s .gcmVerify ∧ s.tagValid = true ∧ s.tag = s.rtag

/-! ## Rules over all commands -/

/-- R63: NOP completes in every state and has no effect of its own; any other word with its OP is illegal; from reset, the
host's write of it to CMD and the core's turn leave STATUS and CMD_LAST zero. -/
def Obligations.NopCommand : Prop :=
  decode 0x00000000#32 = .ok .nop ∧ (∀ s : State, exec .nop s = .next s) ∧
  (∀ w : Word, opOf w = 0x00 → w ≠ 0x00000000 → decode w = .error .reservedBitSet) ∧
  (∃ t, coreTurn (busAccess ⟨Config.mmioBase, 4, .write 0x00000000⟩ State.reset) = .next t ∧ statusWord t = 0 ∧ t.cmdLast = 0)

/-- R30: which commands write each register; every other command leaves it unchanged. -/
def Obligations.OnlyWritersWrite : Prop :=
  ∀ (i : Instr) (s t : State), exec i s = .next t →
    (t.key = s.key ∧ t.din = s.din ∧ t.nonce = s.nonce ∧ t.rtag = s.rtag ∧ t.busy = s.busy ∧ t.pending = s.pending ∧
      t.cmdLast = s.cmdLast ∧ t.response = s.response ∧ t.hosts = s.hosts ∧ t.agenda = s.agenda ∧
      t.platformReads = s.platformReads) ∧
    ((∀ kl, i ≠ .keyExpand kl) → t.ks = s.ks ∧ t.nr = s.nr ∧ t.keyValid = s.keyValid) ∧
    (i ∉ [.encrypt, .decrypt, .subBytes, .invSubBytes, .shiftRows, .invShiftRows, .mixColumns, .invMixColumns] →
      (∀ rnd, i ≠ .addRoundKey rnd) → t.state = s.state) ∧
    (i ∉ [.encrypt, .decrypt, .gf128Mul] → (∀ nb dir, i ≠ .gctr nb dir) → t.dout = s.dout) ∧
    ((∀ a b, i ≠ .gf8Mul a b) → t.result = s.result) ∧
    (i ≠ .ghashInit → t.h = s.h) ∧
    (i ∉ [.ghashInit, .ghashLen] → (∀ nb src, i ≠ .ghashAad nb src) → (∀ nb src, i ≠ .ghashCt nb src) →
      t.x = s.x) ∧
    (i ≠ .ghashInit → (∀ nb src, i ≠ .ghashAad nb src) → t.alen = s.alen) ∧
    (i ≠ .ghashInit → (∀ nb src, i ≠ .ghashCt nb src) → t.clen = s.clen) ∧
    (i ≠ .ctrInit → t.j0 = s.j0) ∧
    (i ∉ [.ctrInit, .ctrInc] → (∀ nb dir, i ≠ .gctr nb dir) → t.cb = s.cb) ∧
    (i ≠ .gcmTag → t.tag = s.tag) ∧
    (i ∉ [.ghashInit, .ghashLen, .ctrInit, .gcmTag] → (∀ kl, i ≠ .keyExpand kl) → (∀ nb src, i ≠ .ghashAad nb src) →
      (∀ nb src, i ≠ .ghashCt nb src) → t.tagValid = s.tagValid ∧ (i ≠ .gcmVerify → t.tagOk = s.tagOk)) ∧
    (i ≠ .gcmVerify → t.authFail = s.authFail)

/-- R120: a command other than KEY_EXPAND that fails, be it again with the code already recorded, writes ERR and ERRCODE and
nothing else, with a code whose cause holds; and no command clears ERR. -/
def Obligations.FailuresWriteOnlyTheError : Prop :=
  ∀ (i : Instr) (s t : State), exec i s = .next t →
    (s.err = true → t.err = true) ∧
    ((∀ kl, i ≠ .keyExpand kl) → ((∃ code, mayRaise i s code) ∨ t.err ≠ s.err ∨ t.errcode ≠ s.errcode) →
      ∃ code, mayRaise i s code ∧ t = { s with err := true, errcode := code })

/-- R119, R122: a command leaves ERR and ERRCODE alone, or sets ERR with a code that R119 lists for it in that state;
so the commands R119 calls free of errors raise none. -/
def Obligations.RaisedErrorsAreTabled : Prop :=
  ∀ (i : Instr) (s t : State), exec i s = .next t →
    (t.err = s.err ∧ t.errcode = s.errcode) ∨ (t.err = true ∧ mayRaise i s t.errcode)

/-! ## Invariants -/

/-- R19, R20, R23 to R28, R102, R103, R108 to R110, R120: every step of every agent keeps the invariant of the registers.
The clause CMD_LAST = PENDING also speaks of BUSY = 0, where it is the model's reading (assumption log 6). -/
def Obligations.StepKeepsInv : Prop :=
  ∀ s t : State, Inv s → step s = .next t → Inv t

/-- R31: the invariant of the registers holds after reset. Its clause CMD_LAST = PENDING says that PENDING is 0 after reset,
which is the model's reading (assumption log 6). -/
def Obligations.ResetMeetsInv : Prop := Inv State.reset

/-- R17, R30, R46: two states that differ only in KEY differ only in KEY after a step, whatever agent takes it and
whatever it reads, unless the core performs KEY_EXPAND. -/
def Obligations.KeyIsNotObservable : Prop :=
  ∀ s s' t : State, SameButKey s s' → (∀ kl, ¬ performsNext s (.keyExpand kl)) → step s = .next t →
    ∃ t', step s' = .next t' ∧ SameButKey t t'

/-! ## Host procedures -/

/-- R116: SEAL, run alone under the eager schedule on an idle core, has ended from some round on. With a 12-byte nonce and a
valid key it returns `c ‖ tag` with `c` the counter-mode transform of the plaintext from `inc32(J0)` and `tag` the tag of
`c` and the associated data; with a nonce of another length it fails with PreconditionViolation and no access. The
procedure's form as a machine and the schedule are the model's (assumption log 2, 9), and so are its counts of an input of
2^32 bytes or more (log 20) and be64 of a bit length of 2^64 or more (log 22). -/
def Obligations.SealReturnsCiphertextAndTag : Prop :=
  ∀ (s : State) (nonce p a : List Byte), s.busy = false → s.hosts = [procSeal nonce p a] →
    (nonce.length = 12 → s.keyValid = true → EndsAlone s fun _ h =>
      h.ending = .returned
        [(gctr (encryptBlock s.ks s.nr.toNat) (inc32 (genCounter (nonceOf nonce))) p).1 ++
          bytesOf (gcmTag (encryptBlock s.ks s.nr.toNat) (nonceOf nonce)
            (gctr (encryptBlock s.ks s.nr.toNat) (inc32 (genCounter (nonceOf nonce))) p).1 a)]) ∧
    (nonce.length ≠ 12 → EndsAlone s (FailedUntouched .preconditionViolation s))

/-- R117, R124: OPEN, run alone under the eager schedule on an idle core, has ended from some round on. With a nonce that is
not of 12 bytes it fails with PreconditionViolation, and with an input shorter than a tag it fails with AuthError, making no
access. With a 12-byte nonce and a valid key, when the last 16 bytes of its input are the tag of the rest and the associated
data, it returns the counter-mode transform of the rest from `inc32(J0)`; when they are not, it fails with AuthError,
returns no plaintext, and leaves DOUT as it was. The procedure's form as a machine and the schedule are the model's
(assumption log 2, 9), and so are its counts of an input of 2^32 bytes or more (log 20) and be64 of a bit length of 2^64 or
more (log 22). -/
def Obligations.OpenRefusesWrongTag : Prop :=
  ∀ (s : State) (nonce ct a : List Byte), s.busy = false → s.hosts = [procOpen nonce ct a] →
    (nonce.length ≠ 12 → EndsAlone s (FailedUntouched .preconditionViolation s)) ∧
    (nonce.length = 12 → ct.length < 16 → EndsAlone s (FailedUntouched .authError s)) ∧
    (nonce.length = 12 → s.keyValid = true → ∀ c tag : List Byte, ct = c ++ tag → tag.length = 16 →
      EndsAlone s fun t h =>
        (bytesOf (gcmTag (encryptBlock s.ks s.nr.toNat) (nonceOf nonce) c a) = tag →
          h.ending = .returned [(gctr (encryptBlock s.ks s.nr.toNat) (inc32 (genCounter (nonceOf nonce))) c).1] ∧
          t.tagOk = true ∧ t.authFail = false) ∧
        (bytesOf (gcmTag (encryptBlock s.ks s.nr.toNat) (nonceOf nonce) c a) ≠ tag →
          h.ending = .failed .authError ∧ t.dout = s.dout ∧ t.tagOk = false ∧ t.authFail = true))
end

