-- ==== Sys2Proof/Laws/Bytes.lean ====
section
/-! SUPPORT. The laws of the byte and word views: what a built block holds, when two blocks are equal, and that writing
one word of a register leaves the others. -/

namespace Sys2Proof.Machine

/-! ## Bytes -/

theorem byteOf_getLsbD {w : Nat} (b : BitVec w) (i j : Nat) :
    (byteOf b i).getLsbD j = (decide (j < 8) && b.getLsbD (w - 8 * (i + 1) + j)) := by
  simp [byteOf, BitVec.getLsbD_extractLsb']

@[simp] theorem byteOf_xor {w : Nat} (a b : BitVec w) (i : Nat) :
    byteOf (a ^^^ b) i = byteOf a i ^^^ byteOf b i := by
  apply BitVec.eq_of_getLsbD_eq
  intro j hj
  simp only [byteOf_getLsbD, BitVec.getLsbD_xor, hj, decide_true, Bool.true_and]

@[simp] theorem byteOf_zero {w : Nat} (i : Nat) : byteOf (0 : BitVec w) i = 0 := by
  simp [byteOf]

/-- The last byte of an appended vector. -/
theorem extract_append_low {m : Nat} (x : BitVec m) (y : Byte) : (x ++ y).extractLsb' 0 8 = y := by
  apply BitVec.eq_of_getLsbD_eq
  intro j hj
  simp only [BitVec.getLsbD_extractLsb', hj, decide_true, Bool.true_and, BitVec.getLsbD_append, Nat.zero_add, if_true]

/-- The bytes before the last of an appended vector. -/
theorem extract_append_high {m k : Nat} (x : BitVec m) (y : Byte) :
    (x ++ y).extractLsb' (k + 8) 8 = x.extractLsb' k 8 := by
  apply BitVec.eq_of_getLsbD_eq
  intro j hj
  have h : ¬ k + 8 + j < 8 := by omega
  have e : k + 8 + j - 8 = k + j := by omega
  simp only [BitVec.getLsbD_extractLsb', hj, decide_true, Bool.true_and, BitVec.getLsbD_append, h, if_false, e]

/-- Byte i of a built block. -/
theorem byteOf_blockOf (f : Nat → Byte) (i : Nat) (hi : i < 16) : byteOf (blockOf f) i = f i := by
  unfold byteOf blockOf
  interval_cases i <;>
    simp only [Nat.reduceAdd, Nat.reduceMul, Nat.reduceSub, extract_append_low, extract_append_high,
      BitVec.extractLsb'_eq_self]

/-- Two blocks with the same 16 bytes are equal. -/
theorem block_ext (a b : Block) (h : ∀ i, i < 16 → byteOf a i = byteOf b i) : a = b := by
  apply BitVec.eq_of_getLsbD_eq
  intro k hk
  have hb := congrArg (fun v => BitVec.getLsbD v (k % 8)) (h (15 - k / 8) (by omega))
  simp only [byteOf_getLsbD] at hb
  have e : 128 - 8 * (15 - k / 8 + 1) + k % 8 = k := by omega
  simpa [e, Nat.mod_lt] using hb

/-- A built block is determined by its 16 bytes. -/
theorem blockOf_congr (f g : Nat → Byte) (h : ∀ i, i < 16 → f i = g i) : blockOf f = blockOf g :=
  block_ext _ _ fun i hi => by rw [byteOf_blockOf f i hi, byteOf_blockOf g i hi, h i hi]

/-- A block is built from its own bytes. -/
theorem blockOf_byteOf (b : Block) : blockOf (byteOf b) = b :=
  block_ext _ _ fun i hi => byteOf_blockOf _ i hi

/-- The byte at row r, column c of a built state. -/
theorem cell_stateOf (f : Nat → Nat → Byte) (r c : Nat) (hr : r < 4) (hc : c < 4) :
    cell (stateOf f) r c = f r c := by
  have h1 : (r + 4 * c) % 4 = r := by omega
  have h2 : (r + 4 * c) / 4 = c := by omega
  simp only [cell, stateOf, byteOf_blockOf _ (r + 4 * c) (by omega), h1, h2]

/-- Two states with the same 16 cells are equal. -/
theorem state_ext (a b : Block) (h : ∀ r c, r < 4 → c < 4 → cell a r c = cell b r c) : a = b :=
  block_ext _ _ fun i hi => by
    have := h (i % 4) (i / 4) (by omega) (by omega)
    have e : i % 4 + 4 * (i / 4) = i := by omega
    simpa [cell, e] using this

@[simp] theorem cell_xor (a b : Block) (r c : Nat) : cell (a ^^^ b) r c = cell a r c ^^^ cell b r c := by
  simp [cell]

/-! ## Words -/

/-- A byte of the last word of an appended vector. -/
theorem extract_append_word_low {m k : Nat} (x : BitVec m) (y : Word) (h : k + 8 ≤ 32) :
    (x ++ y).extractLsb' k 8 = y.extractLsb' k 8 := by
  apply BitVec.eq_of_getLsbD_eq
  intro j hj
  have h' : k + j < 32 := by omega
  simp only [BitVec.getLsbD_extractLsb', hj, decide_true, Bool.true_and, BitVec.getLsbD_append, h', if_true]

/-- The bytes before the last word of an appended vector. -/
theorem extract_append_word_high {m k : Nat} (x : BitVec m) (y : Word) :
    (x ++ y).extractLsb' (k + 32) 8 = x.extractLsb' k 8 := by
  apply BitVec.eq_of_getLsbD_eq
  intro j hj
  have h : ¬ k + 32 + j < 32 := by omega
  have e : k + 32 + j - 32 = k + j := by omega
  simp only [BitVec.getLsbD_extractLsb', hj, decide_true, Bool.true_and, BitVec.getLsbD_append, h, if_false, e]

/-- Byte r of word c of a round key is the key's byte for row r, column c (R35, R80). -/
theorem cell_roundKey (ks : Vector Word 60) (j r c : Nat) (hr : r < 4) (hc : c < 4) :
    cell (roundKey ks j) r c = byteOf (ksWord ks (4 * j + c)) r := by
  unfold cell byteOf roundKey
  interval_cases c <;> interval_cases r <;>
    simp (disch := decide) only [Nat.reduceAdd, Nat.reduceMul, Nat.reduceSub, extract_append_word_high,
      extract_append_word_low, Nat.add_zero]

theorem wordOf_getLsbD {w : Nat} (b : BitVec w) (k j : Nat) :
    (wordOf b k).getLsbD j = (decide (j < 32) && b.getLsbD (w - 32 * (k + 1) + j)) := by
  simp [wordOf, BitVec.getLsbD_extractLsb']

/-- Bit j of a register after a word write. -/
theorem setWord_getLsbD {n : Nat} (b : BitVec (32 * n)) (k : Nat) (v : Word) (j : Nat) (hk : k < n) :
    (setWord b k v).getLsbD j =
      if 32 * n - 32 * (k + 1) ≤ j ∧ j < 32 * n - 32 * k then v.getLsbD (j - (32 * n - 32 * (k + 1)))
      else b.getLsbD j := by
  have ones : ∀ m, (0xFFFFFFFF#32).getLsbD m = decide (m < 32) := by
    intro m
    rw [show (0xFFFFFFFF#32) = BitVec.allOnes 32 from rfl, BitVec.getLsbD_allOnes]
  simp only [setWord, BitVec.getLsbD_or, BitVec.getLsbD_and, BitVec.getLsbD_not, BitVec.getLsbD_shiftLeft,
    BitVec.getLsbD_setWidth, ones]
  by_cases hj : j < 32 * n
  · by_cases h1 : 32 * n - 32 * (k + 1) ≤ j
    · by_cases h2 : j < 32 * n - 32 * k
      · have a : ¬ j < 32 * n - 32 * (k + 1) := by omega
        have b' : j - (32 * n - 32 * (k + 1)) < 32 := by omega
        have c : j - (32 * n - 32 * (k + 1)) < 32 * n := by omega
        simp [hj, h1, h2, a, b', c]
      · have a : ¬ j < 32 * n - 32 * (k + 1) := by omega
        have b' : ¬ j - (32 * n - 32 * (k + 1)) < 32 := by omega
        have z : v.getLsbD (j - (32 * n - 32 * (k + 1))) = false := BitVec.getLsbD_of_ge _ _ (by omega)
        simp [hj, h2, a, b', z]
    · have a : j < 32 * n - 32 * (k + 1) := by omega
      simp [hj, h1, a]
  · have z : b.getLsbD j = false := BitVec.getLsbD_of_ge _ _ (by omega)
    have h2 : ¬ j < 32 * n - 32 * k := by omega
    simp [hj, z, h2]

/-- A word reads back as it was written. -/
theorem wordOf_setWord_same {n : Nat} (b : BitVec (32 * n)) (k : Nat) (v : Word) (hk : k < n) :
    wordOf (setWord b k v) k = v := by
  apply BitVec.eq_of_getLsbD_eq
  intro j hj
  rw [wordOf_getLsbD, setWord_getLsbD b k v _ hk]
  have h : 32 * n - 32 * (k + 1) ≤ 32 * n - 32 * (k + 1) + j ∧ 32 * n - 32 * (k + 1) + j < 32 * n - 32 * k := by omega
  simp [hj, h]

/-- A word write leaves every other word alone. -/
theorem wordOf_setWord_other {n : Nat} (b : BitVec (32 * n)) (k l : Nat) (v : Word) (hk : k < n) (hl : l < n)
    (h : l ≠ k) : wordOf (setWord b k v) l = wordOf b l := by
  apply BitVec.eq_of_getLsbD_eq
  intro j hj
  have h' : ¬ (32 * n - 32 * (k + 1) ≤ 32 * n - 32 * (l + 1) + j ∧ 32 * n - 32 * (l + 1) + j < 32 * n - 32 * k) := by
    omega
  rw [wordOf_getLsbD, wordOf_getLsbD, setWord_getLsbD b k v _ hk, if_neg h']

end Sys2Proof.Machine
end

