-- ==== Sys2Proof/Laws/State.lean ====
section
/-! SUPPORT. One lemma per field per update: what each named operation over State leaves in each field, so that no later
proof unfolds a record update. -/

namespace Sys2Proof.Machine

/-! ## raiseError -/

@[simp] theorem raiseError_key (code : ErrCode) (s : State) : (raiseError code s).key = s.key := rfl
@[simp] theorem raiseError_ks (code : ErrCode) (s : State) : (raiseError code s).ks = s.ks := rfl
@[simp] theorem raiseError_nr (code : ErrCode) (s : State) : (raiseError code s).nr = s.nr := rfl
@[simp] theorem raiseError_keyValid (code : ErrCode) (s : State) : (raiseError code s).keyValid = s.keyValid := rfl
@[simp] theorem raiseError_state (code : ErrCode) (s : State) : (raiseError code s).state = s.state := rfl
@[simp] theorem raiseError_din (code : ErrCode) (s : State) : (raiseError code s).din = s.din := rfl
@[simp] theorem raiseError_dout (code : ErrCode) (s : State) : (raiseError code s).dout = s.dout := rfl
@[simp] theorem raiseError_result (code : ErrCode) (s : State) : (raiseError code s).result = s.result := rfl
@[simp] theorem raiseError_h (code : ErrCode) (s : State) : (raiseError code s).h = s.h := rfl
@[simp] theorem raiseError_x (code : ErrCode) (s : State) : (raiseError code s).x = s.x := rfl
@[simp] theorem raiseError_alen (code : ErrCode) (s : State) : (raiseError code s).alen = s.alen := rfl
@[simp] theorem raiseError_clen (code : ErrCode) (s : State) : (raiseError code s).clen = s.clen := rfl
@[simp] theorem raiseError_nonce (code : ErrCode) (s : State) : (raiseError code s).nonce = s.nonce := rfl
@[simp] theorem raiseError_j0 (code : ErrCode) (s : State) : (raiseError code s).j0 = s.j0 := rfl
@[simp] theorem raiseError_cb (code : ErrCode) (s : State) : (raiseError code s).cb = s.cb := rfl
@[simp] theorem raiseError_tag (code : ErrCode) (s : State) : (raiseError code s).tag = s.tag := rfl
@[simp] theorem raiseError_rtag (code : ErrCode) (s : State) : (raiseError code s).rtag = s.rtag := rfl
@[simp] theorem raiseError_cmdLast (code : ErrCode) (s : State) : (raiseError code s).cmdLast = s.cmdLast := rfl
@[simp] theorem raiseError_pending (code : ErrCode) (s : State) : (raiseError code s).pending = s.pending := rfl
@[simp] theorem raiseError_busy (code : ErrCode) (s : State) : (raiseError code s).busy = s.busy := rfl
@[simp] theorem raiseError_tagValid (code : ErrCode) (s : State) : (raiseError code s).tagValid = s.tagValid := rfl
@[simp] theorem raiseError_tagOk (code : ErrCode) (s : State) : (raiseError code s).tagOk = s.tagOk := rfl
@[simp] theorem raiseError_authFail (code : ErrCode) (s : State) : (raiseError code s).authFail = s.authFail := rfl
@[simp] theorem raiseError_err (code : ErrCode) (s : State) : (raiseError code s).err = true := rfl
@[simp] theorem raiseError_errcode (code : ErrCode) (s : State) : (raiseError code s).errcode = code := rfl
@[simp] theorem raiseError_response (code : ErrCode) (s : State) : (raiseError code s).response = s.response := rfl
@[simp] theorem raiseError_hosts (code : ErrCode) (s : State) : (raiseError code s).hosts = s.hosts := rfl
@[simp] theorem raiseError_agenda (code : ErrCode) (s : State) : (raiseError code s).agenda = s.agenda := rfl
@[simp] theorem raiseError_platformReads (code : ErrCode) (s : State) : (raiseError code s).platformReads = s.platformReads := rfl

/-! ## invalidateTag -/

@[simp] theorem invalidateTag_key (s : State) : (invalidateTag s).key = s.key := rfl
@[simp] theorem invalidateTag_ks (s : State) : (invalidateTag s).ks = s.ks := rfl
@[simp] theorem invalidateTag_nr (s : State) : (invalidateTag s).nr = s.nr := rfl
@[simp] theorem invalidateTag_keyValid (s : State) : (invalidateTag s).keyValid = s.keyValid := rfl
@[simp] theorem invalidateTag_state (s : State) : (invalidateTag s).state = s.state := rfl
@[simp] theorem invalidateTag_din (s : State) : (invalidateTag s).din = s.din := rfl
@[simp] theorem invalidateTag_dout (s : State) : (invalidateTag s).dout = s.dout := rfl
@[simp] theorem invalidateTag_result (s : State) : (invalidateTag s).result = s.result := rfl
@[simp] theorem invalidateTag_h (s : State) : (invalidateTag s).h = s.h := rfl
@[simp] theorem invalidateTag_x (s : State) : (invalidateTag s).x = s.x := rfl
@[simp] theorem invalidateTag_alen (s : State) : (invalidateTag s).alen = s.alen := rfl
@[simp] theorem invalidateTag_clen (s : State) : (invalidateTag s).clen = s.clen := rfl
@[simp] theorem invalidateTag_nonce (s : State) : (invalidateTag s).nonce = s.nonce := rfl
@[simp] theorem invalidateTag_j0 (s : State) : (invalidateTag s).j0 = s.j0 := rfl
@[simp] theorem invalidateTag_cb (s : State) : (invalidateTag s).cb = s.cb := rfl
@[simp] theorem invalidateTag_tag (s : State) : (invalidateTag s).tag = s.tag := rfl
@[simp] theorem invalidateTag_rtag (s : State) : (invalidateTag s).rtag = s.rtag := rfl
@[simp] theorem invalidateTag_cmdLast (s : State) : (invalidateTag s).cmdLast = s.cmdLast := rfl
@[simp] theorem invalidateTag_pending (s : State) : (invalidateTag s).pending = s.pending := rfl
@[simp] theorem invalidateTag_busy (s : State) : (invalidateTag s).busy = s.busy := rfl
@[simp] theorem invalidateTag_tagValid (s : State) : (invalidateTag s).tagValid = false := rfl
@[simp] theorem invalidateTag_tagOk (s : State) : (invalidateTag s).tagOk = false := rfl
@[simp] theorem invalidateTag_authFail (s : State) : (invalidateTag s).authFail = s.authFail := rfl
@[simp] theorem invalidateTag_err (s : State) : (invalidateTag s).err = s.err := rfl
@[simp] theorem invalidateTag_errcode (s : State) : (invalidateTag s).errcode = s.errcode := rfl
@[simp] theorem invalidateTag_response (s : State) : (invalidateTag s).response = s.response := rfl
@[simp] theorem invalidateTag_hosts (s : State) : (invalidateTag s).hosts = s.hosts := rfl
@[simp] theorem invalidateTag_agenda (s : State) : (invalidateTag s).agenda = s.agenda := rfl
@[simp] theorem invalidateTag_platformReads (s : State) : (invalidateTag s).platformReads = s.platformReads := rfl

/-! ## wipeKey -/

@[simp] theorem wipeKey_key (s : State) : (wipeKey s).key = s.key := rfl
@[simp] theorem wipeKey_ks (s : State) : (wipeKey s).ks = Vector.replicate 60 0 := rfl
@[simp] theorem wipeKey_nr (s : State) : (wipeKey s).nr = 0 := rfl
@[simp] theorem wipeKey_keyValid (s : State) : (wipeKey s).keyValid = false := rfl
@[simp] theorem wipeKey_state (s : State) : (wipeKey s).state = s.state := rfl
@[simp] theorem wipeKey_din (s : State) : (wipeKey s).din = s.din := rfl
@[simp] theorem wipeKey_dout (s : State) : (wipeKey s).dout = s.dout := rfl
@[simp] theorem wipeKey_result (s : State) : (wipeKey s).result = s.result := rfl
@[simp] theorem wipeKey_h (s : State) : (wipeKey s).h = s.h := rfl
@[simp] theorem wipeKey_x (s : State) : (wipeKey s).x = s.x := rfl
@[simp] theorem wipeKey_alen (s : State) : (wipeKey s).alen = s.alen := rfl
@[simp] theorem wipeKey_clen (s : State) : (wipeKey s).clen = s.clen := rfl
@[simp] theorem wipeKey_nonce (s : State) : (wipeKey s).nonce = s.nonce := rfl
@[simp] theorem wipeKey_j0 (s : State) : (wipeKey s).j0 = s.j0 := rfl
@[simp] theorem wipeKey_cb (s : State) : (wipeKey s).cb = s.cb := rfl
@[simp] theorem wipeKey_tag (s : State) : (wipeKey s).tag = s.tag := rfl
@[simp] theorem wipeKey_rtag (s : State) : (wipeKey s).rtag = s.rtag := rfl
@[simp] theorem wipeKey_cmdLast (s : State) : (wipeKey s).cmdLast = s.cmdLast := rfl
@[simp] theorem wipeKey_pending (s : State) : (wipeKey s).pending = s.pending := rfl
@[simp] theorem wipeKey_busy (s : State) : (wipeKey s).busy = s.busy := rfl
@[simp] theorem wipeKey_tagValid (s : State) : (wipeKey s).tagValid = s.tagValid := rfl
@[simp] theorem wipeKey_tagOk (s : State) : (wipeKey s).tagOk = s.tagOk := rfl
@[simp] theorem wipeKey_authFail (s : State) : (wipeKey s).authFail = s.authFail := rfl
@[simp] theorem wipeKey_err (s : State) : (wipeKey s).err = s.err := rfl
@[simp] theorem wipeKey_errcode (s : State) : (wipeKey s).errcode = s.errcode := rfl
@[simp] theorem wipeKey_response (s : State) : (wipeKey s).response = s.response := rfl
@[simp] theorem wipeKey_hosts (s : State) : (wipeKey s).hosts = s.hosts := rfl
@[simp] theorem wipeKey_agenda (s : State) : (wipeKey s).agenda = s.agenda := rfl
@[simp] theorem wipeKey_platformReads (s : State) : (wipeKey s).platformReads = s.platformReads := rfl

/-! ## loadSchedule -/

@[simp] theorem loadSchedule_key (nk : Nat) (s : State) : (loadSchedule nk s).key = s.key := rfl
@[simp] theorem loadSchedule_ks (nk : Nat) (s : State) : (loadSchedule nk s).ks = keySchedule s.key nk := rfl
@[simp] theorem loadSchedule_nr (nk : Nat) (s : State) : (loadSchedule nk s).nr = BitVec.ofNat 4 (roundsOf nk) := rfl
@[simp] theorem loadSchedule_keyValid (nk : Nat) (s : State) : (loadSchedule nk s).keyValid = true := rfl
@[simp] theorem loadSchedule_state (nk : Nat) (s : State) : (loadSchedule nk s).state = s.state := rfl
@[simp] theorem loadSchedule_din (nk : Nat) (s : State) : (loadSchedule nk s).din = s.din := rfl
@[simp] theorem loadSchedule_dout (nk : Nat) (s : State) : (loadSchedule nk s).dout = s.dout := rfl
@[simp] theorem loadSchedule_result (nk : Nat) (s : State) : (loadSchedule nk s).result = s.result := rfl
@[simp] theorem loadSchedule_h (nk : Nat) (s : State) : (loadSchedule nk s).h = s.h := rfl
@[simp] theorem loadSchedule_x (nk : Nat) (s : State) : (loadSchedule nk s).x = s.x := rfl
@[simp] theorem loadSchedule_alen (nk : Nat) (s : State) : (loadSchedule nk s).alen = s.alen := rfl
@[simp] theorem loadSchedule_clen (nk : Nat) (s : State) : (loadSchedule nk s).clen = s.clen := rfl
@[simp] theorem loadSchedule_nonce (nk : Nat) (s : State) : (loadSchedule nk s).nonce = s.nonce := rfl
@[simp] theorem loadSchedule_j0 (nk : Nat) (s : State) : (loadSchedule nk s).j0 = s.j0 := rfl
@[simp] theorem loadSchedule_cb (nk : Nat) (s : State) : (loadSchedule nk s).cb = s.cb := rfl
@[simp] theorem loadSchedule_tag (nk : Nat) (s : State) : (loadSchedule nk s).tag = s.tag := rfl
@[simp] theorem loadSchedule_rtag (nk : Nat) (s : State) : (loadSchedule nk s).rtag = s.rtag := rfl
@[simp] theorem loadSchedule_cmdLast (nk : Nat) (s : State) : (loadSchedule nk s).cmdLast = s.cmdLast := rfl
@[simp] theorem loadSchedule_pending (nk : Nat) (s : State) : (loadSchedule nk s).pending = s.pending := rfl
@[simp] theorem loadSchedule_busy (nk : Nat) (s : State) : (loadSchedule nk s).busy = s.busy := rfl
@[simp] theorem loadSchedule_tagValid (nk : Nat) (s : State) : (loadSchedule nk s).tagValid = s.tagValid := rfl
@[simp] theorem loadSchedule_tagOk (nk : Nat) (s : State) : (loadSchedule nk s).tagOk = s.tagOk := rfl
@[simp] theorem loadSchedule_authFail (nk : Nat) (s : State) : (loadSchedule nk s).authFail = s.authFail := rfl
@[simp] theorem loadSchedule_err (nk : Nat) (s : State) : (loadSchedule nk s).err = s.err := rfl
@[simp] theorem loadSchedule_errcode (nk : Nat) (s : State) : (loadSchedule nk s).errcode = s.errcode := rfl
@[simp] theorem loadSchedule_response (nk : Nat) (s : State) : (loadSchedule nk s).response = s.response := rfl
@[simp] theorem loadSchedule_hosts (nk : Nat) (s : State) : (loadSchedule nk s).hosts = s.hosts := rfl
@[simp] theorem loadSchedule_agenda (nk : Nat) (s : State) : (loadSchedule nk s).agenda = s.agenda := rfl
@[simp] theorem loadSchedule_platformReads (nk : Nat) (s : State) : (loadSchedule nk s).platformReads = s.platformReads := rfl

/-! ## latch -/

@[simp] theorem latch_key (w : Word) (s : State) : (latch w s).key = s.key := rfl
@[simp] theorem latch_ks (w : Word) (s : State) : (latch w s).ks = s.ks := rfl
@[simp] theorem latch_nr (w : Word) (s : State) : (latch w s).nr = s.nr := rfl
@[simp] theorem latch_keyValid (w : Word) (s : State) : (latch w s).keyValid = s.keyValid := rfl
@[simp] theorem latch_state (w : Word) (s : State) : (latch w s).state = s.state := rfl
@[simp] theorem latch_din (w : Word) (s : State) : (latch w s).din = s.din := rfl
@[simp] theorem latch_dout (w : Word) (s : State) : (latch w s).dout = s.dout := rfl
@[simp] theorem latch_result (w : Word) (s : State) : (latch w s).result = s.result := rfl
@[simp] theorem latch_h (w : Word) (s : State) : (latch w s).h = s.h := rfl
@[simp] theorem latch_x (w : Word) (s : State) : (latch w s).x = s.x := rfl
@[simp] theorem latch_alen (w : Word) (s : State) : (latch w s).alen = s.alen := rfl
@[simp] theorem latch_clen (w : Word) (s : State) : (latch w s).clen = s.clen := rfl
@[simp] theorem latch_nonce (w : Word) (s : State) : (latch w s).nonce = s.nonce := rfl
@[simp] theorem latch_j0 (w : Word) (s : State) : (latch w s).j0 = s.j0 := rfl
@[simp] theorem latch_cb (w : Word) (s : State) : (latch w s).cb = s.cb := rfl
@[simp] theorem latch_tag (w : Word) (s : State) : (latch w s).tag = s.tag := rfl
@[simp] theorem latch_rtag (w : Word) (s : State) : (latch w s).rtag = s.rtag := rfl
@[simp] theorem latch_cmdLast (w : Word) (s : State) : (latch w s).cmdLast = w := rfl
@[simp] theorem latch_pending (w : Word) (s : State) : (latch w s).pending = w := rfl
@[simp] theorem latch_busy (w : Word) (s : State) : (latch w s).busy = true := rfl
@[simp] theorem latch_tagValid (w : Word) (s : State) : (latch w s).tagValid = s.tagValid := rfl
@[simp] theorem latch_tagOk (w : Word) (s : State) : (latch w s).tagOk = s.tagOk := rfl
@[simp] theorem latch_authFail (w : Word) (s : State) : (latch w s).authFail = s.authFail := rfl
@[simp] theorem latch_err (w : Word) (s : State) : (latch w s).err = s.err := rfl
@[simp] theorem latch_errcode (w : Word) (s : State) : (latch w s).errcode = s.errcode := rfl
@[simp] theorem latch_response (w : Word) (s : State) : (latch w s).response = s.response := rfl
@[simp] theorem latch_hosts (w : Word) (s : State) : (latch w s).hosts = s.hosts := rfl
@[simp] theorem latch_agenda (w : Word) (s : State) : (latch w s).agenda = s.agenda := rfl
@[simp] theorem latch_platformReads (w : Word) (s : State) : (latch w s).platformReads = s.platformReads := rfl

/-! ## complete -/

@[simp] theorem complete_key (s : State) : (complete s).key = s.key := rfl
@[simp] theorem complete_ks (s : State) : (complete s).ks = s.ks := rfl
@[simp] theorem complete_nr (s : State) : (complete s).nr = s.nr := rfl
@[simp] theorem complete_keyValid (s : State) : (complete s).keyValid = s.keyValid := rfl
@[simp] theorem complete_state (s : State) : (complete s).state = s.state := rfl
@[simp] theorem complete_din (s : State) : (complete s).din = s.din := rfl
@[simp] theorem complete_dout (s : State) : (complete s).dout = s.dout := rfl
@[simp] theorem complete_result (s : State) : (complete s).result = s.result := rfl
@[simp] theorem complete_h (s : State) : (complete s).h = s.h := rfl
@[simp] theorem complete_x (s : State) : (complete s).x = s.x := rfl
@[simp] theorem complete_alen (s : State) : (complete s).alen = s.alen := rfl
@[simp] theorem complete_clen (s : State) : (complete s).clen = s.clen := rfl
@[simp] theorem complete_nonce (s : State) : (complete s).nonce = s.nonce := rfl
@[simp] theorem complete_j0 (s : State) : (complete s).j0 = s.j0 := rfl
@[simp] theorem complete_cb (s : State) : (complete s).cb = s.cb := rfl
@[simp] theorem complete_tag (s : State) : (complete s).tag = s.tag := rfl
@[simp] theorem complete_rtag (s : State) : (complete s).rtag = s.rtag := rfl
@[simp] theorem complete_cmdLast (s : State) : (complete s).cmdLast = s.cmdLast := rfl
@[simp] theorem complete_pending (s : State) : (complete s).pending = s.pending := rfl
@[simp] theorem complete_busy (s : State) : (complete s).busy = false := rfl
@[simp] theorem complete_tagValid (s : State) : (complete s).tagValid = s.tagValid := rfl
@[simp] theorem complete_tagOk (s : State) : (complete s).tagOk = s.tagOk := rfl
@[simp] theorem complete_authFail (s : State) : (complete s).authFail = s.authFail := rfl
@[simp] theorem complete_err (s : State) : (complete s).err = s.err := rfl
@[simp] theorem complete_errcode (s : State) : (complete s).errcode = s.errcode := rfl
@[simp] theorem complete_response (s : State) : (complete s).response = s.response := rfl
@[simp] theorem complete_hosts (s : State) : (complete s).hosts = s.hosts := rfl
@[simp] theorem complete_agenda (s : State) : (complete s).agenda = s.agenda := rfl
@[simp] theorem complete_platformReads (s : State) : (complete s).platformReads = s.platformReads := rfl

/-! ## respond -/

@[simp] theorem respond_key (r : Response) (s : State) : (respond r s).key = s.key := rfl
@[simp] theorem respond_ks (r : Response) (s : State) : (respond r s).ks = s.ks := rfl
@[simp] theorem respond_nr (r : Response) (s : State) : (respond r s).nr = s.nr := rfl
@[simp] theorem respond_keyValid (r : Response) (s : State) : (respond r s).keyValid = s.keyValid := rfl
@[simp] theorem respond_state (r : Response) (s : State) : (respond r s).state = s.state := rfl
@[simp] theorem respond_din (r : Response) (s : State) : (respond r s).din = s.din := rfl
@[simp] theorem respond_dout (r : Response) (s : State) : (respond r s).dout = s.dout := rfl
@[simp] theorem respond_result (r : Response) (s : State) : (respond r s).result = s.result := rfl
@[simp] theorem respond_h (r : Response) (s : State) : (respond r s).h = s.h := rfl
@[simp] theorem respond_x (r : Response) (s : State) : (respond r s).x = s.x := rfl
@[simp] theorem respond_alen (r : Response) (s : State) : (respond r s).alen = s.alen := rfl
@[simp] theorem respond_clen (r : Response) (s : State) : (respond r s).clen = s.clen := rfl
@[simp] theorem respond_nonce (r : Response) (s : State) : (respond r s).nonce = s.nonce := rfl
@[simp] theorem respond_j0 (r : Response) (s : State) : (respond r s).j0 = s.j0 := rfl
@[simp] theorem respond_cb (r : Response) (s : State) : (respond r s).cb = s.cb := rfl
@[simp] theorem respond_tag (r : Response) (s : State) : (respond r s).tag = s.tag := rfl
@[simp] theorem respond_rtag (r : Response) (s : State) : (respond r s).rtag = s.rtag := rfl
@[simp] theorem respond_cmdLast (r : Response) (s : State) : (respond r s).cmdLast = s.cmdLast := rfl
@[simp] theorem respond_pending (r : Response) (s : State) : (respond r s).pending = s.pending := rfl
@[simp] theorem respond_busy (r : Response) (s : State) : (respond r s).busy = s.busy := rfl
@[simp] theorem respond_tagValid (r : Response) (s : State) : (respond r s).tagValid = s.tagValid := rfl
@[simp] theorem respond_tagOk (r : Response) (s : State) : (respond r s).tagOk = s.tagOk := rfl
@[simp] theorem respond_authFail (r : Response) (s : State) : (respond r s).authFail = s.authFail := rfl
@[simp] theorem respond_err (r : Response) (s : State) : (respond r s).err = s.err := rfl
@[simp] theorem respond_errcode (r : Response) (s : State) : (respond r s).errcode = s.errcode := rfl
@[simp] theorem respond_response (r : Response) (s : State) : (respond r s).response = some r := rfl
@[simp] theorem respond_hosts (r : Response) (s : State) : (respond r s).hosts = s.hosts := rfl
@[simp] theorem respond_agenda (r : Response) (s : State) : (respond r s).agenda = s.agenda := rfl
@[simp] theorem respond_platformReads (r : Response) (s : State) : (respond r s).platformReads = s.platformReads := rfl

/-! ## placeCommand -/

@[simp] theorem placeCommand_key (w : Word) (s : State) : (placeCommand w s).key = s.key := rfl
@[simp] theorem placeCommand_ks (w : Word) (s : State) : (placeCommand w s).ks = s.ks := rfl
@[simp] theorem placeCommand_nr (w : Word) (s : State) : (placeCommand w s).nr = s.nr := rfl
@[simp] theorem placeCommand_keyValid (w : Word) (s : State) : (placeCommand w s).keyValid = s.keyValid := rfl
@[simp] theorem placeCommand_state (w : Word) (s : State) : (placeCommand w s).state = s.state := rfl
@[simp] theorem placeCommand_din (w : Word) (s : State) : (placeCommand w s).din = s.din := rfl
@[simp] theorem placeCommand_dout (w : Word) (s : State) : (placeCommand w s).dout = s.dout := rfl
@[simp] theorem placeCommand_result (w : Word) (s : State) : (placeCommand w s).result = s.result := rfl
@[simp] theorem placeCommand_h (w : Word) (s : State) : (placeCommand w s).h = s.h := rfl
@[simp] theorem placeCommand_x (w : Word) (s : State) : (placeCommand w s).x = s.x := rfl
@[simp] theorem placeCommand_alen (w : Word) (s : State) : (placeCommand w s).alen = s.alen := rfl
@[simp] theorem placeCommand_clen (w : Word) (s : State) : (placeCommand w s).clen = s.clen := rfl
@[simp] theorem placeCommand_nonce (w : Word) (s : State) : (placeCommand w s).nonce = s.nonce := rfl
@[simp] theorem placeCommand_j0 (w : Word) (s : State) : (placeCommand w s).j0 = s.j0 := rfl
@[simp] theorem placeCommand_cb (w : Word) (s : State) : (placeCommand w s).cb = s.cb := rfl
@[simp] theorem placeCommand_tag (w : Word) (s : State) : (placeCommand w s).tag = s.tag := rfl
@[simp] theorem placeCommand_rtag (w : Word) (s : State) : (placeCommand w s).rtag = s.rtag := rfl
@[simp] theorem placeCommand_cmdLast (w : Word) (s : State) : (placeCommand w s).cmdLast = w := rfl
@[simp] theorem placeCommand_pending (w : Word) (s : State) : (placeCommand w s).pending = w := rfl
@[simp] theorem placeCommand_busy (w : Word) (s : State) : (placeCommand w s).busy = true := rfl
@[simp] theorem placeCommand_tagValid (w : Word) (s : State) : (placeCommand w s).tagValid = s.tagValid := rfl
@[simp] theorem placeCommand_tagOk (w : Word) (s : State) : (placeCommand w s).tagOk = s.tagOk := rfl
@[simp] theorem placeCommand_authFail (w : Word) (s : State) : (placeCommand w s).authFail = s.authFail := rfl
@[simp] theorem placeCommand_err (w : Word) (s : State) : (placeCommand w s).err = s.err := rfl
@[simp] theorem placeCommand_errcode (w : Word) (s : State) : (placeCommand w s).errcode = s.errcode := rfl
@[simp] theorem placeCommand_response (w : Word) (s : State) : (placeCommand w s).response = s.response := rfl
@[simp] theorem placeCommand_hosts (w : Word) (s : State) : (placeCommand w s).hosts = s.hosts := rfl
@[simp] theorem placeCommand_agenda (w : Word) (s : State) : (placeCommand w s).agenda = .core :: s.agenda := rfl
@[simp] theorem placeCommand_platformReads (w : Word) (s : State) : (placeCommand w s).platformReads = s.platformReads := rfl

/-! ## ackStatus: the fields it leaves alone -/

@[simp] theorem ackStatus_key (v : Word) (s : State) : (ackStatus v s).key = s.key := by
  simp only [ackStatus, clearErr, clearAuthFail]; split <;> split <;> rfl
@[simp] theorem ackStatus_ks (v : Word) (s : State) : (ackStatus v s).ks = s.ks := by
  simp only [ackStatus, clearErr, clearAuthFail]; split <;> split <;> rfl
@[simp] theorem ackStatus_nr (v : Word) (s : State) : (ackStatus v s).nr = s.nr := by
  simp only [ackStatus, clearErr, clearAuthFail]; split <;> split <;> rfl
@[simp] theorem ackStatus_keyValid (v : Word) (s : State) : (ackStatus v s).keyValid = s.keyValid := by
  simp only [ackStatus, clearErr, clearAuthFail]; split <;> split <;> rfl
@[simp] theorem ackStatus_state (v : Word) (s : State) : (ackStatus v s).state = s.state := by
  simp only [ackStatus, clearErr, clearAuthFail]; split <;> split <;> rfl
@[simp] theorem ackStatus_din (v : Word) (s : State) : (ackStatus v s).din = s.din := by
  simp only [ackStatus, clearErr, clearAuthFail]; split <;> split <;> rfl
@[simp] theorem ackStatus_dout (v : Word) (s : State) : (ackStatus v s).dout = s.dout := by
  simp only [ackStatus, clearErr, clearAuthFail]; split <;> split <;> rfl
@[simp] theorem ackStatus_result (v : Word) (s : State) : (ackStatus v s).result = s.result := by
  simp only [ackStatus, clearErr, clearAuthFail]; split <;> split <;> rfl
@[simp] theorem ackStatus_h (v : Word) (s : State) : (ackStatus v s).h = s.h := by
  simp only [ackStatus, clearErr, clearAuthFail]; split <;> split <;> rfl
@[simp] theorem ackStatus_x (v : Word) (s : State) : (ackStatus v s).x = s.x := by
  simp only [ackStatus, clearErr, clearAuthFail]; split <;> split <;> rfl
@[simp] theorem ackStatus_alen (v : Word) (s : State) : (ackStatus v s).alen = s.alen := by
  simp only [ackStatus, clearErr, clearAuthFail]; split <;> split <;> rfl
@[simp] theorem ackStatus_clen (v : Word) (s : State) : (ackStatus v s).clen = s.clen := by
  simp only [ackStatus, clearErr, clearAuthFail]; split <;> split <;> rfl
@[simp] theorem ackStatus_nonce (v : Word) (s : State) : (ackStatus v s).nonce = s.nonce := by
  simp only [ackStatus, clearErr, clearAuthFail]; split <;> split <;> rfl
@[simp] theorem ackStatus_j0 (v : Word) (s : State) : (ackStatus v s).j0 = s.j0 := by
  simp only [ackStatus, clearErr, clearAuthFail]; split <;> split <;> rfl
@[simp] theorem ackStatus_cb (v : Word) (s : State) : (ackStatus v s).cb = s.cb := by
  simp only [ackStatus, clearErr, clearAuthFail]; split <;> split <;> rfl
@[simp] theorem ackStatus_tag (v : Word) (s : State) : (ackStatus v s).tag = s.tag := by
  simp only [ackStatus, clearErr, clearAuthFail]; split <;> split <;> rfl
@[simp] theorem ackStatus_rtag (v : Word) (s : State) : (ackStatus v s).rtag = s.rtag := by
  simp only [ackStatus, clearErr, clearAuthFail]; split <;> split <;> rfl
@[simp] theorem ackStatus_cmdLast (v : Word) (s : State) : (ackStatus v s).cmdLast = s.cmdLast := by
  simp only [ackStatus, clearErr, clearAuthFail]; split <;> split <;> rfl
@[simp] theorem ackStatus_pending (v : Word) (s : State) : (ackStatus v s).pending = s.pending := by
  simp only [ackStatus, clearErr, clearAuthFail]; split <;> split <;> rfl
@[simp] theorem ackStatus_busy (v : Word) (s : State) : (ackStatus v s).busy = s.busy := by
  simp only [ackStatus, clearErr, clearAuthFail]; split <;> split <;> rfl
@[simp] theorem ackStatus_tagValid (v : Word) (s : State) : (ackStatus v s).tagValid = s.tagValid := by
  simp only [ackStatus, clearErr, clearAuthFail]; split <;> split <;> rfl
@[simp] theorem ackStatus_tagOk (v : Word) (s : State) : (ackStatus v s).tagOk = s.tagOk := by
  simp only [ackStatus, clearErr, clearAuthFail]; split <;> split <;> rfl
@[simp] theorem ackStatus_response (v : Word) (s : State) : (ackStatus v s).response = s.response := by
  simp only [ackStatus, clearErr, clearAuthFail]; split <;> split <;> rfl
@[simp] theorem ackStatus_hosts (v : Word) (s : State) : (ackStatus v s).hosts = s.hosts := by
  simp only [ackStatus, clearErr, clearAuthFail]; split <;> split <;> rfl
@[simp] theorem ackStatus_platformReads (v : Word) (s : State) : (ackStatus v s).platformReads = s.platformReads := by
  simp only [ackStatus, clearErr, clearAuthFail]; split <;> split <;> rfl
@[simp] theorem ackStatus_agenda (v : Word) (s : State) : (ackStatus v s).agenda = s.agenda := by
  simp only [ackStatus, clearErr, clearAuthFail]; split <;> split <;> rfl

/-! ## verdict: the fields it leaves alone -/

@[simp] theorem verdict_key (s : State) : (verdict s).key = s.key := by
  unfold verdict; split <;> rfl
@[simp] theorem verdict_ks (s : State) : (verdict s).ks = s.ks := by
  unfold verdict; split <;> rfl
@[simp] theorem verdict_nr (s : State) : (verdict s).nr = s.nr := by
  unfold verdict; split <;> rfl
@[simp] theorem verdict_keyValid (s : State) : (verdict s).keyValid = s.keyValid := by
  unfold verdict; split <;> rfl
@[simp] theorem verdict_state (s : State) : (verdict s).state = s.state := by
  unfold verdict; split <;> rfl
@[simp] theorem verdict_din (s : State) : (verdict s).din = s.din := by
  unfold verdict; split <;> rfl
@[simp] theorem verdict_dout (s : State) : (verdict s).dout = s.dout := by
  unfold verdict; split <;> rfl
@[simp] theorem verdict_result (s : State) : (verdict s).result = s.result := by
  unfold verdict; split <;> rfl
@[simp] theorem verdict_h (s : State) : (verdict s).h = s.h := by
  unfold verdict; split <;> rfl
@[simp] theorem verdict_x (s : State) : (verdict s).x = s.x := by
  unfold verdict; split <;> rfl
@[simp] theorem verdict_alen (s : State) : (verdict s).alen = s.alen := by
  unfold verdict; split <;> rfl
@[simp] theorem verdict_clen (s : State) : (verdict s).clen = s.clen := by
  unfold verdict; split <;> rfl
@[simp] theorem verdict_nonce (s : State) : (verdict s).nonce = s.nonce := by
  unfold verdict; split <;> rfl
@[simp] theorem verdict_j0 (s : State) : (verdict s).j0 = s.j0 := by
  unfold verdict; split <;> rfl
@[simp] theorem verdict_cb (s : State) : (verdict s).cb = s.cb := by
  unfold verdict; split <;> rfl
@[simp] theorem verdict_tag (s : State) : (verdict s).tag = s.tag := by
  unfold verdict; split <;> rfl
@[simp] theorem verdict_rtag (s : State) : (verdict s).rtag = s.rtag := by
  unfold verdict; split <;> rfl
@[simp] theorem verdict_cmdLast (s : State) : (verdict s).cmdLast = s.cmdLast := by
  unfold verdict; split <;> rfl
@[simp] theorem verdict_pending (s : State) : (verdict s).pending = s.pending := by
  unfold verdict; split <;> rfl
@[simp] theorem verdict_busy (s : State) : (verdict s).busy = s.busy := by
  unfold verdict; split <;> rfl
@[simp] theorem verdict_tagValid (s : State) : (verdict s).tagValid = s.tagValid := by
  unfold verdict; split <;> rfl
@[simp] theorem verdict_err (s : State) : (verdict s).err = s.err := by
  unfold verdict; split <;> rfl
@[simp] theorem verdict_errcode (s : State) : (verdict s).errcode = s.errcode := by
  unfold verdict; split <;> rfl
@[simp] theorem verdict_response (s : State) : (verdict s).response = s.response := by
  unfold verdict; split <;> rfl
@[simp] theorem verdict_hosts (s : State) : (verdict s).hosts = s.hosts := by
  unfold verdict; split <;> rfl
@[simp] theorem verdict_platformReads (s : State) : (verdict s).platformReads = s.platformReads := by
  unfold verdict; split <;> rfl
@[simp] theorem verdict_agenda (s : State) : (verdict s).agenda = s.agenda := by
  unfold verdict; split <;> rfl

/-! ## What ackStatus and verdict write -/

theorem ackStatus_err (v : Word) (s : State) :
    (ackStatus v s).err = (s.err && !v.getLsbD 5) := by
  simp only [ackStatus, clearErr, clearAuthFail]
  split <;> split <;> simp_all

theorem ackStatus_errcode (v : Word) (s : State) :
    (ackStatus v s).errcode = if v.getLsbD 5 then .none else s.errcode := by
  simp only [ackStatus, clearErr, clearAuthFail]
  split <;> split <;> simp_all

theorem ackStatus_authFail (v : Word) (s : State) :
    (ackStatus v s).authFail = (s.authFail && !v.getLsbD 4) := by
  simp only [ackStatus, clearErr, clearAuthFail]
  split <;> split <;> simp_all

theorem verdict_tagOk (s : State) : (verdict s).tagOk = decide (tagDifference s.tag s.rtag = 0) := by
  unfold verdict
  split <;> simp_all

theorem verdict_authFail (s : State) :
    (verdict s).authFail = (s.authFail || !decide (tagDifference s.tag s.rtag = 0)) := by
  unfold verdict
  split <;> simp_all

/-! ## resetCore -/

@[simp] theorem resetCore_response (s : State) : (resetCore s).response = s.response := rfl
@[simp] theorem resetCore_hosts (s : State) : (resetCore s).hosts = s.hosts := rfl
@[simp] theorem resetCore_agenda (s : State) : (resetCore s).agenda = s.agenda := rfl
@[simp] theorem resetCore_platformReads (s : State) : (resetCore s).platformReads = s.platformReads := rfl
@[simp] theorem resetCore_busy (s : State) : (resetCore s).busy = false := rfl
@[simp] theorem resetCore_keyValid (s : State) : (resetCore s).keyValid = false := rfl

end Sys2Proof.Machine
end

