-- ==== Sys2Proof/Laws/Ops.lean ====
section
/-! SUPPORT. One lemma per shared operation that says everything it can do, to be cited instead of unfolding it: the
checks of a command, the end of a perform step, a bus write, a bus access, a step of a host, a step of the machine. -/

namespace Sys2Proof.Machine

/-! ## Checks -/

@[simp] theorem failIf_true (code : ErrCode) (s : State) (rest : Result) :
    failIf true code s rest = .next (raiseError code s) := rfl

@[simp] theorem failIf_false (code : ErrCode) (s : State) (rest : Result) : failIf false code s rest = rest := rfl

/-- A check either raises its error or hands on to the rest of the command. -/
theorem failIf_next {c : Bool} {code : ErrCode} {s t : State} {rest : Result} :
    failIf c code s rest = .next t ↔ (c = true ∧ t = raiseError code s) ∨ (c = false ∧ rest = .next t) := by
  cases c <;> simp [eq_comm]

theorem needKey_valid {s : State} {rest : Result} (h : s.keyValid = true) : needKey s rest = rest := by
  simp [needKey, h]

theorem needKey_invalid {s : State} {rest : Result} (h : s.keyValid = false) :
    needKey s rest = .next (raiseError .noKey s) := by
  simp [needKey, h]

/-- The key check either raises NO_KEY or hands on. -/
theorem needKey_next {s t : State} {rest : Result} :
    needKey s rest = .next t ↔
      (s.keyValid = false ∧ t = raiseError .noKey s) ∨ (s.keyValid = true ∧ rest = .next t) := by
  simp [needKey, failIf_next]

/-! ## Meanings that run whatever the state: their next state -/

theorem execGhashAad_legal {nb : Nat} (src : Src) (s : State) (h : nbIllegal nb = false) :
    execGhashAad nb src s =
      .next (invalidateTag { s with x := hashedX nb src s, alen := s.alen + bitsOf nb }) := by
  simp [execGhashAad, h]

theorem execGhashCt_legal {nb : Nat} (src : Src) (s : State) (h : nbIllegal nb = false) :
    execGhashCt nb src s =
      .next (invalidateTag { s with x := hashedX nb src s, clen := s.clen + bitsOf nb }) := by
  simp [execGhashCt, h]

theorem nbIllegal_eq_false {nb : Nat} : nbIllegal nb = false ↔ 1 ≤ nb ∧ nb ≤ 16 := by
  simp [nbIllegal]; omega

/-! ## The perform step -/

theorem finish_next {r : Result} {t : State} : finish r = .next t ↔ ∃ u, r = .next u ∧ t = complete u := by
  cases r <;> simp [finish, eq_comm]

theorem perform_ok {s : State} {i : Instr} (h : decode s.pending = .ok i) : perform s = finish (exec i s) := by
  simp [perform, h]

theorem perform_error {s : State} {r : Reject} (h : decode s.pending = .error r) :
    perform s = .next (complete (raiseError .illegalOp s)) := by
  simp [perform, h, finish]

/-- Everything a perform step that answers a state can have done. -/
theorem perform_next {s t : State} (h : perform s = .next t) :
    (∃ i u, decode s.pending = .ok i ∧ exec i s = .next u ∧ t = complete u) ∨
    (∃ r, decode s.pending = .error r ∧ t = complete (raiseError .illegalOp s)) := by
  cases hd : decode s.pending with
  | ok i =>
    rw [perform_ok hd, finish_next] at h
    obtain ⟨u, hu, rfl⟩ := h
    exact .inl ⟨i, u, rfl, hu, rfl⟩
  | error r =>
    rw [perform_error hd] at h
    cases h
    exact .inr ⟨r, rfl, rfl⟩

/-! ## The window -/

theorem writeWord_idle {s : State} (off : Nat) (v : Word) (h : s.busy = false) :
    writeWord off v s = writeSlot (slotAt off) v s := by
  simp [writeWord, h]

theorem writeWord_busy {s : State} (off : Nat) (v : Word) (h : s.busy = true) :
    writeWord off v s = raiseError .cmdBusy s := by
  simp [writeWord, h]

/-- What a write to STATUS leaves, in one form. -/
theorem ackStatus_eq (v : Word) (s : State) :
    ackStatus v s = { s with
      authFail := s.authFail && !v.getLsbD 4
      err := s.err && !v.getLsbD 5
      errcode := if v.getLsbD 5 then .none else s.errcode } := by
  unfold ackStatus clearErr clearAuthFail
  cases h4 : v.getLsbD 4 <;> cases h5 : v.getLsbD 5 <;> simp

/-- A write is the same whatever hosts and agenda stand beside the registers, and leaves them. -/
theorem writeWord_outside (off : Nat) (v : Word) (s : State) (hs : List HostRun) (ag : List Turn) :
    writeWord off v { s with hosts := hs, agenda := ag } = { writeWord off v s with hosts := hs, agenda := ag } := by
  by_cases hb : s.busy = true
  · rw [writeWord_busy off v hb, writeWord_busy (s := { s with hosts := hs, agenda := ag }) off v hb]
    rfl
  · rw [Bool.not_eq_true] at hb
    rw [writeWord_idle off v hb, writeWord_idle (s := { s with hosts := hs, agenda := ag }) off v hb]
    cases slotAt off <;> simp only [writeSlot, ackStatus_eq, latch]

/-- A read is the same whatever hosts and agenda stand beside the registers. -/
theorem readWord_outside (off : Nat) (s : State) (hs : List HostRun) (ag : List Turn) :
    readWord off { s with hosts := hs, agenda := ag } = readWord off s := by
  unfold readWord
  cases slotAt off <;> rfl

/-- The three things an access at an offset can be. -/
theorem accessAt_cases (off bytes : Nat) (op : BusOp) (s : State) :
    (Config.windowBytes ≤ off ∧ accessAt off bytes op s = respond (.outside (Config.mmioBase + off)) s) ∨
    (off < Config.windowBytes ∧ (bytes ≠ 4 ∨ off % 4 ≠ 0) ∧
      accessAt off bytes op s = respond (.accessFault (Config.mmioBase + off)) s) ∨
    (off < Config.windowBytes ∧ bytes = 4 ∧ off % 4 = 0 ∧
      accessAt off bytes op s = respond (busAnswer off op s) (busEffect off op s)) := by
  unfold accessAt
  by_cases h1 : Config.windowBytes ≤ off
  · simp [h1]
  · by_cases h2 : bytes ≠ 4 ∨ off % 4 ≠ 0
    · exact .inr (.inl ⟨by omega, h2, by simp only [h1, h2, if_false, if_true]⟩)
    · exact .inr (.inr ⟨by omega, by omega, by omega, by simp only [h1, h2, if_false]⟩)

/-- An access at an address of the window is the access at its offset. -/
theorem busAccess_base_add (off bytes : Nat) (op : BusOp) (s : State) :
    busAccess ⟨Config.mmioBase + off, bytes, op⟩ s = accessAt off bytes op s := by
  simp [busAccess]

/-! ## Hosts -/

/-- A procedure that has not ended takes the next step of its text. -/
theorem hostStep_running {h : HostRun} {op : HostOp} {rest : List HostOp} (s : State) (he : h.ending = .running)
    (hs : h.rest = op :: rest) : hostStep h s = opStep op { h with rest := rest } s := by
  obtain ⟨prog, r, locals, ending⟩ := h
  cases he
  cases hs
  rfl

/-- A procedure that has ended takes no step. -/
theorem hostStep_ended {h : HostRun} (s : State) (he : h.ending ≠ .running) : hostStep h s = (h, s) := by
  unfold hostStep
  split
  · exact absurd ‹_› he
  all_goals rfl

/-- An access of a procedure is a 32-bit bus access at its address. -/
theorem hostAccess_bus (addr : HostAddr) (vs : List Val) (op : BusOp) (s : State) :
    ∃ a, hostAccess addr vs op s = busAccess ⟨a, 4, op⟩ s := by
  cases addr with
  | window off => exact ⟨_, (busAccess_base_add _ _ _ _).symm⟩
  | absolute a => exact ⟨_, rfl⟩

/-- Counting a free word changes the counter at most. -/
theorem countPlatformRead_eq (s : State) : ∃ n, countPlatformRead s = { s with platformReads := n } := by
  unfold countPlatformRead
  split
  · exact ⟨_, rfl⟩
  all_goals exact ⟨s.platformReads, rfl⟩

/-- A read by a procedure is one bus access, and the counter of free words. -/
theorem hostLoad_state (x : Nat) (addr : HostAddr) (h : HostRun) (s : State) :
    ∃ a n, (hostLoad x addr h s).2 = { busAccess ⟨a, 4, .read⟩ s with platformReads := n } := by
  obtain ⟨a, ha⟩ := hostAccess_bus addr h.locals .read s
  obtain ⟨n, hn⟩ := countPlatformRead_eq (hostAccess addr h.locals .read s)
  exact ⟨a, n, by rw [← ha]; exact hn⟩

/-- A bus access leaves the counter of free words. -/
theorem busAccess_platformReads (a : Access) (s : State) : (busAccess a s).platformReads = s.platformReads := by
  unfold busAccess accessAt
  split
  · rfl
  split
  · rfl
  split
  · rfl
  cases a.op with
  | read => rfl
  | write v =>
    show (writeWord _ v s).platformReads = _
    unfold writeWord
    split
    · rfl
    · cases slotAt (a.addr - Config.mmioBase) <;> first | rfl | simp [writeSlot]

/-- Whatever a host does in a step, the core sees nothing or one 32-bit access. -/
theorem hostStep_state (h : HostRun) (s : State) :
    (hostStep h s).2 = s ∨ ∃ a op n, (hostStep h s).2 = { busAccess ⟨a, 4, op⟩ s with platformReads := n } := by
  cases he : h.ending with
  | returned v => exact .inl (by rw [hostStep_ended s (by simp [he])])
  | failed e => exact .inl (by rw [hostStep_ended s (by simp [he])])
  | faulted a => exact .inl (by rw [hostStep_ended s (by simp [he])])
  | running =>
    cases hs : h.rest with
    | nil => exact .inl (by unfold hostStep; rw [he]; show (runStep h s).2 = s; unfold runStep; rw [hs])
    | cons op rest =>
      rw [hostStep_running s he hs]
      cases op with
      | store addr v =>
        refine .inr ?_
        obtain ⟨a, ha⟩ := hostAccess_bus addr h.locals (.write (BitVec.ofNat 32 (v.eval h.locals).toNum)) s
        refine ⟨a, .write (BitVec.ofNat 32 (v.eval h.locals).toNum), s.platformReads, ?_⟩
        show hostAccess addr h.locals _ s = _
        rw [ha, ← busAccess_platformReads]
      | load x addr =>
        obtain ⟨a, n, e⟩ := hostLoad_state x addr { h with rest := rest } s
        exact .inr ⟨a, .read, n, e⟩
      | wait x =>
        obtain ⟨a, n, e⟩ := hostLoad_state x (.window (.num 0x004)) { h with rest := rest } s
        refine .inr ⟨a, .read, n, ?_⟩
        show (hostWait x _ s).2 = _
        unfold hostWait
        dsimp only
        split <;> exact e
      | assign x e => exact .inl rfl
      | label l => exact .inl rfl
      | goto l => exact .inl rfl
      | ifGoto c l => exact .inl rfl
      | fail e => exact .inl rfl
      | failIf c e => exact .inl rfl
      | ret vs => exact .inl rfl

/-- An access is the same whatever hosts and agenda stand beside the registers, and leaves them. -/
theorem accessAt_outside (off bytes : Nat) (op : BusOp) (s : State) (hs : List HostRun) (ag : List Turn) :
    accessAt off bytes op { s with hosts := hs, agenda := ag } =
      { accessAt off bytes op s with hosts := hs, agenda := ag } := by
  unfold accessAt
  split
  · rfl
  split
  · rfl
  cases op with
  | read => simp only [busEffect, busAnswer, readWord_outside, respond]
  | write v => simp only [busEffect, busAnswer, writeWord_outside, respond]

/-! ## The step of the machine -/

theorem step_empty {s : State} (h : s.agenda = []) : step s = coreTurn s := by
  simp [step, nextTurn, h]

theorem step_turn {s : State} {t : Turn} {rest : List Turn} (h : s.agenda = t :: rest) :
    step s = takeTurn t { s with agenda := rest } := by
  simp [step, nextTurn, h]

/-- A step is the turn of `turnOf`, taken with the agenda moved on. -/
theorem step_eq (s : State) :
    step s = (match s.agenda with
      | [] => coreTurn s
      | t :: rest => takeTurn t { s with agenda := rest }) := rfl

end Sys2Proof.Machine
end

