-- ==== Sys2Proof/Laws/Chunks.lean ====
section
/-! SUPPORT. Laws of byte strings cut into chunks and of chunks loaded into and read out of blocks: what SEAL and OPEN do
word by word is what R98, R106 and R116 say of whole strings. -/

namespace Sys2Proof.Machine

/-- A block has sixteen bytes. -/
theorem bytesOf_length (b : Block) : (bytesOf b).length = 16 := by simp [bytesOf]

/-- A byte of a block is a byte of one of its words (R10). -/
theorem byteOf_wordOf (b : Block) (i : Nat) (hi : i < 16) : byteOf b i = byteOf (wordOf b (i / 4)) (i % 4) := by
  apply BitVec.eq_of_getLsbD_eq
  intro j hj
  rw [byteOf_getLsbD, byteOf_getLsbD, wordOf_getLsbD]
  have h1 : 32 - 8 * (i % 4 + 1) + j < 32 := by omega
  have h2 : 128 - 32 * (i / 4 + 1) + (32 - 8 * (i % 4 + 1) + j) = 128 - 8 * (i + 1) + j := by omega
  simp only [h1, h2, decide_true, Bool.true_and]

/-- The bytes of a big-endian word (R10). -/
theorem byteOf_wordBE (b0 b1 b2 b3 : Byte) :
    byteOf (wordBE b0 b1 b2 b3) 0 = b0 ∧ byteOf (wordBE b0 b1 b2 b3) 1 = b1 ∧ byteOf (wordBE b0 b1 b2 b3) 2 = b2 ∧
      byteOf (wordBE b0 b1 b2 b3) 3 = b3 := by
  unfold byteOf wordBE
  refine ⟨?_, ?_, ?_, ?_⟩ <;>
    simp only [Nat.reduceAdd, Nat.reduceMul, Nat.reduceSub, extract_append_low, extract_append_high, BitVec.extractLsb'_eq_self]

/-- The bytes of the word at a place of a byte string. -/
theorem byteOf_wordAt (s : List Byte) (i : Nat) : byteOf (wordAt s (i / 4)) (i % 4) = s.getD i 0 := by
  obtain ⟨h0, h1, h2, h3⟩ := byteOf_wordBE (s.getD (4 * (i / 4)) 0) (s.getD (4 * (i / 4) + 1) 0) (s.getD (4 * (i / 4) + 2) 0) (s.getD (4 * (i / 4) + 3) 0)
  unfold wordAt
  rcases (by omega : i % 4 = 0 ∨ i % 4 = 1 ∨ i % 4 = 2 ∨ i % 4 = 3) with h | h | h | h <;> rw [h]
  · rw [h0]; congr 1; omega
  · rw [h1]; congr 1; omega
  · rw [h2]; congr 1; omega
  · rw [h3]; congr 1; omega

/-- The four word writes of WRBLK load the padded block, whatever was there (R55). -/
theorem setWords_blockAt (d : Block) (s : List Byte) :
    setWord (setWord (setWord (setWord d 0 (wordAt s 0)) 1 (wordAt s 1)) 2 (wordAt s 2)) 3 (wordAt s 3) = blockAt s := by
  apply block_ext
  intro i hi
  rw [byteOf_wordOf _ i hi, blockAt, byteOf_blockOf _ i hi, ← byteOf_wordAt s i]
  congr 1
  have same := fun (b : Block) k v hk => wordOf_setWord_same (n := 4) b k v hk
  have other := fun (b : Block) k l v hk hl h => wordOf_setWord_other (n := 4) b k l v hk hl h
  rcases (by omega : i / 4 = 0 ∨ i / 4 = 1 ∨ i / 4 = 2 ∨ i / 4 = 3) with h | h | h | h <;> rw [h]
  · rw [other _ 3 0 _ (by decide) (by decide) (by decide), other _ 2 0 _ (by decide) (by decide) (by decide),
      other _ 1 0 _ (by decide) (by decide) (by decide), same _ 0 _ (by decide)]
  · rw [other _ 3 1 _ (by decide) (by decide) (by decide), other _ 2 1 _ (by decide) (by decide) (by decide), same _ 1 _ (by decide)]
  · rw [other _ 3 2 _ (by decide) (by decide) (by decide), same _ 2 _ (by decide)]
  · rw [same _ 3 _ (by decide)]

/-- The bytes of a block are those of its four words. -/
theorem wordBytes_bytesOf (b : Block) :
    bytesOf b = wordBytes (wordOf b 0) ++ wordBytes (wordOf b 1) ++ wordBytes (wordOf b 2) ++ wordBytes (wordOf b 3) := by
  have e : ∀ i, i < 16 → byteOf b i = byteOf (wordOf b (i / 4)) (i % 4) := byteOf_wordOf b
  simp only [bytesOf, List.range, List.range.loop, List.map_cons, List.map_nil, wordBytes, List.cons_append, List.nil_append]
  rw [e 0 (by decide), e 1 (by decide), e 2 (by decide), e 3 (by decide), e 4 (by decide), e 5 (by decide), e 6 (by decide),
    e 7 (by decide), e 8 (by decide), e 9 (by decide), e 10 (by decide), e 11 (by decide), e 12 (by decide), e 13 (by decide),
    e 14 (by decide), e 15 (by decide)]

/-- What RDBLK keeps of each word is what it keeps of the block (R55). -/
theorem take_words (b : Block) (n : Nat) (hn : n ≤ 16) (o : List Byte) :
    o ++ (wordBytes (wordOf b 0)).take (min 4 (n - 4 * 0)) ++ (wordBytes (wordOf b 1)).take (min 4 (n - 4 * 1)) ++
      (wordBytes (wordOf b 2)).take (min 4 (n - 4 * 2)) ++ (wordBytes (wordOf b 3)).take (min 4 (n - 4 * 3)) =
    o ++ (bytesOf b).take n := by
  rw [wordBytes_bytesOf]
  simp only [List.append_assoc, List.append_cancel_left_eq]
  unfold wordBytes
  interval_cases n <;> rfl

/-- The three word writes of SEAL and OPEN load NONCE, whatever was there (R116, R117). -/
theorem setWords_nonce (n : Nonce) (b : List Byte) :
    setWord (setWord (setWord n 0 (wordAt b 0)) 1 (wordAt b 1)) 2 (wordAt b 2) = nonceOf b := by
  apply BitVec.eq_of_getLsbD_eq
  intro j hj
  have g := fun (x : Nonce) k v hk => setWord_getLsbD (n := 3) x k v j hk
  rw [g _ 2 _ (by decide), g _ 1 _ (by decide), g _ 0 _ (by decide)]
  unfold nonceOf
  rw [BitVec.getLsbD_append, BitVec.getLsbD_append]
  by_cases h1 : j < 32
  · rw [if_pos (by omega), if_pos h1]; rfl
  · by_cases h2 : j < 64
    · rw [if_neg (by omega), if_pos (by omega), if_neg h1, if_pos (by omega)]
    · rw [if_neg (by omega), if_neg (by omega), if_pos (by omega), if_neg h1, if_neg (by omega)]
      congr 1

/-- The empty string has no chunks. -/
theorem chunksOf_nil : chunksOf [] = [] := rfl

/-- The first chunk of a string, and the chunks of the rest (R116). -/
theorem chunksOf_step {s : List Byte} (h : s ≠ []) : chunksOf s = s.take 16 :: chunksOf (s.drop 16) := by
  have hl : 0 < s.length := List.length_pos_iff.2 h
  have e : (s.length + 15) / 16 = ((s.drop 16).length + 15) / 16 + 1 := by simp only [List.length_drop]; omega
  unfold chunksOf
  rw [e, List.range_succ_eq_map, List.map_cons, List.map_map]
  simp only [Nat.mul_zero, List.drop_zero, List.cons.injEq, true_and]
  apply List.map_congr_left
  intro j _
  simp only [Function.comp, List.drop_drop]
  congr 2
  omega

/-- Induction over a string, sixteen bytes at a time. -/
theorem chunks_induct {P : List Byte → Prop} (nil : P []) (step : ∀ s, s ≠ [] → P (s.drop 16) → P s) : ∀ s, P s := by
  intro s
  induction hn : s.length using Nat.strong_induction_on generalizing s with
  | _ n ih =>
    by_cases h : s = []
    · rw [h]; exact nil
    · have hl : 0 < s.length := List.length_pos_iff.2 h
      exact step s h (ih _ (by rw [← hn, List.length_drop]; omega) _ rfl)

/-- A chunk has 1 to 16 bytes. -/
theorem chunksOf_length : ∀ (s : List Byte), ∀ b ∈ chunksOf s, 1 ≤ b.length ∧ b.length ≤ 16 := by
  apply chunks_induct
  · simp [chunksOf_nil]
  · intro s h ih b hb
    rw [chunksOf_step h, List.mem_cons] at hb
    have hl : 0 < s.length := List.length_pos_iff.2 h
    rcases hb with rfl | hb
    · rw [List.length_take]; omega
    · exact ih b hb

/-- The chunks of a string have its bytes, in number. -/
theorem chunksOf_total : ∀ (s : List Byte), ((chunksOf s).map List.length).sum = s.length := by
  apply chunks_induct
  · rfl
  · intro s h ih
    rw [chunksOf_step h, List.map_cons, List.sum_cons, ih, List.length_take, List.length_drop]
    omega

/-- Each chunk XORed with the encryption of its counter block (R106). -/
def maskedChunks (enc : Block → Block) : Block → List (List Byte) → List (List Byte)
  | _, [] => []
  | cb, b :: bs => List.zipWith (· ^^^ ·) b (bytesOf (enc cb)) :: maskedChunks enc (inc32 cb) bs

/-- Masking keeps the length of every chunk. -/
theorem maskedChunks_lengths (enc : Block → Block) (cb : Block) (bs : List (List Byte)) (h : ∀ b ∈ bs, b.length ≤ 16) :
    (maskedChunks enc cb bs).map List.length = bs.map List.length := by
  induction bs generalizing cb with
  | nil => rfl
  | cons b bs ih =>
    have := h b (by simp)
    rw [maskedChunks, List.map_cons, List.map_cons, ih _ (fun b hb => h b (by simp [hb])), List.length_zipWith, bytesOf_length]
    congr 1; omega

/-- The counter block after a list of chunks. -/
def incBy : Block → List (List Byte) → Block
  | cb, [] => cb
  | cb, _ :: bs => incBy (inc32 cb) bs

/-- The counter-mode fold, from any output and counter block. -/
theorem gctr_foldl (enc : Block → Block) (bs : List (List Byte)) (out : List Byte) (cb : Block) :
    bs.foldl (gctrStep enc) (out, cb) = (out ++ (maskedChunks enc cb bs).flatten, incBy cb bs) := by
  induction bs generalizing out cb with
  | nil => simp [maskedChunks, incBy]
  | cons b bs ih => simp only [List.foldl_cons, gctrStep, ih, maskedChunks, incBy, List.flatten_cons, List.append_assoc]

/-- The counter-mode transform is the masked chunks, one after another (R106). -/
theorem gctr_eq (enc : Block → Block) (cb : Block) (data : List Byte) :
    gctr enc cb data = ((maskedChunks enc cb (chunksOf data)).flatten, incBy cb (chunksOf data)) := by
  simp [gctr, gctr_foldl]

/-- The chunks of the transform are the masked chunks. -/
theorem chunksOf_masked (enc : Block → Block) : ∀ (s : List Byte) (cb : Block),
    chunksOf (maskedChunks enc cb (chunksOf s)).flatten = maskedChunks enc cb (chunksOf s) := by
  apply chunks_induct
  · intro cb; simp [chunksOf_nil, maskedChunks]
  · intro s h ih cb
    have hl : 0 < s.length := List.length_pos_iff.2 h
    rw [chunksOf_step h]
    simp only [maskedChunks, List.flatten_cons]
    set z := List.zipWith (· ^^^ ·) (s.take 16) (bytesOf (enc cb)) with hz
    have zl : z.length = min 16 s.length := by simp [hz, bytesOf_length]
    have ne : z ++ (maskedChunks enc (inc32 cb) (chunksOf (s.drop 16))).flatten ≠ [] := by
      intro e
      have := congrArg List.length e
      simp only [List.length_append, List.length_nil] at this
      omega
    rw [chunksOf_step ne]
    by_cases h16 : 16 ≤ s.length
    · have z16 : z.length = 16 := by omega
      rw [List.take_append_of_le_length (by omega), List.drop_append_of_le_length (by omega), List.take_of_length_le (by omega),
        List.drop_of_length_le (by omega), List.nil_append, ih]
    · have d : s.drop 16 = [] := List.drop_of_length_le (by omega)
      rw [d]
      simp only [chunksOf_nil, maskedChunks, List.flatten_nil, List.append_nil]
      rw [List.take_of_length_le (by omega), List.drop_of_length_le (by omega), chunksOf_nil]

/-- The bits of a list of chunks, in 64 bits. -/
def bitsTotal (bs : List (List Byte)) : Half := BitVec.ofNat 64 (8 * (bs.map List.length).sum)

/-- One chunk more. -/
theorem bitsTotal_cons (b : List Byte) (bs : List (List Byte)) : bitsTotal (b :: bs) = bitsOf b.length + bitsTotal bs := by
  simp [bitsTotal, bitsOf, Nat.mul_add, BitVec.ofNat_add]

/-- GHASH over a list of chunks, each padded (R98). -/
def hashFold (h x : Block) (bs : List (List Byte)) : Block := bs.foldl (fun x b => ghashStep h x (blockAt b)) x

/-- A loaded chunk is its own padding (R100). -/
theorem pad_blockAt (b : List Byte) : pad (blockAt b) b.length = blockAt b := by
  unfold pad
  conv_rhs => unfold blockAt
  apply blockOf_congr
  intro i hi
  show (if i < b.length then _ else _) = _
  rw [blockAt, byteOf_blockOf _ i hi]
  split
  · rfl
  · rw [List.getD_eq_default _ _ (by omega)]

/-- The bytes GCTR gives for a chunk are the chunk XORed with the mask (R106). -/
theorem bytesOf_gctrOut (b : List Byte) (m : Block) (hb : b.length ≤ 16) :
    (bytesOf (gctrOut b.length (blockAt b) m)).take b.length = List.zipWith (· ^^^ ·) b (bytesOf m) := by
  apply List.ext_getElem
  · simp [bytesOf_length]
  · intro i h1 h2
    have hi : i < b.length := by simp [bytesOf_length] at h1; omega
    have hi16 : i < 16 := by omega
    simp only [List.getElem_take, List.getElem_zipWith]
    simp only [bytesOf, List.getElem_map, List.getElem_range]
    rw [gctrOut, byteOf_blockOf _ i hi16, if_pos hi, blockAt, byteOf_blockOf _ i hi16]
    simp [hi]

/-- And, padded, they are the block of the masked chunk. -/
theorem pad_gctrOut (b : List Byte) (m : Block) (hb : b.length ≤ 16) :
    pad (gctrOut b.length (blockAt b) m) b.length = blockAt (List.zipWith (· ^^^ ·) b (bytesOf m)) := by
  unfold pad
  conv_rhs => unfold blockAt
  apply blockOf_congr
  intro i hi
  show (if i < b.length then _ else _) = _
  rw [gctrOut, byteOf_blockOf _ i hi]
  split
  · rename_i h
    have e := bytesOf_gctrOut b m hb
    rw [blockAt, byteOf_blockOf _ i hi]
    have h2 : i < (List.zipWith (· ^^^ ·) b (bytesOf m)).length := by simp [bytesOf_length]; omega
    rw [List.getD_eq_getElem _ _ h2]
    simp [bytesOf, h]
  · rename_i h
    rw [List.getD_eq_default]
    simp [bytesOf_length]; omega

/-- The bytes of a loaded block. -/
theorem bytesOf_blockAt {t : List Byte} (h : t.length = 16) : bytesOf (blockAt t) = t := by
  apply List.ext_getElem
  · simp [bytesOf_length, h]
  · intro i h1 h2
    simp only [bytesOf, List.getElem_map, List.getElem_range]
    rw [blockAt, byteOf_blockOf _ i (by omega), List.getD_eq_getElem _ _ h2]

/-- The number of chunks. -/
theorem chunksOf_count (s : List Byte) : (chunksOf s).length = (s.length + 15) / 16 := by simp [chunksOf]

/-- One chunk more of a prefix of the chunks. -/
theorem chunksOf_take_succ (s : List Byte) (j : Nat) (h : j < (s.length + 15) / 16) :
    (chunksOf s).take (j + 1) = (chunksOf s).take j ++ [(s.drop (16 * j)).take 16] := by
  rw [List.take_add_one, List.getElem?_eq_getElem (by rw [chunksOf_count]; exact h)]
  simp [chunksOf]

/-- All of them. -/
theorem chunksOf_take_all (s : List Byte) : (chunksOf s).take ((s.length + 15) / 16) = chunksOf s := by
  rw [← chunksOf_count, List.take_length]

/-- A chunk is the block of bytes that SEAL and OPEN cut out by its length (R116). -/
theorem take_chunk (s : List Byte) (j : Nat) :
    (s.drop (16 * j)).take (min 16 (s.length - 16 * j)) = (s.drop (16 * j)).take 16 := by
  rw [← List.length_drop, List.take_eq_take_iff]
  omega

/-- The bytes of chunk number `j`. -/
theorem chunk_length (s : List Byte) (j : Nat) (h : j < (s.length + 15) / 16) :
    ((s.drop (16 * j)).take 16).length = min 16 (s.length - 16 * j) ∧ 1 ≤ ((s.drop (16 * j)).take 16).length ∧
      ((s.drop (16 * j)).take 16).length ≤ 16 := by
  have hj : 16 * j < s.length := by
    have := (Nat.le_div_iff_mul_le (by decide : 0 < 16)).1 h
    omega
  have e : ((s.drop (16 * j)).take 16).length = min 16 (s.length - 16 * j) := by simp
  exact ⟨e, by rw [e]; exact Nat.le_min.2 ⟨by decide, by omega⟩, by rw [e]; exact Nat.min_le_left _ _⟩

/-- The bits of a string are those of its chunks. -/
theorem bitLength_total (l : List Byte) : bitLength l = bitsTotal (chunksOf l) := by
  rw [bitLength, bitsTotal, chunksOf_total]

theorem hashFold_snoc (h x : Block) (bs : List (List Byte)) (b : List Byte) :
    hashFold h x (bs ++ [b]) = ghashStep h (hashFold h x bs) (blockAt b) := by simp [hashFold]

theorem bitsTotal_snoc (bs : List (List Byte)) (b : List Byte) :
    bitsTotal (bs ++ [b]) = bitsTotal bs + bitsOf b.length := by
  simp [bitsTotal, bitsOf, Nat.mul_add, BitVec.ofNat_add]

theorem incBy_snoc (cb : Block) (bs : List (List Byte)) (b : List Byte) : incBy cb (bs ++ [b]) = inc32 (incBy cb bs) := by
  induction bs generalizing cb with
  | nil => rfl
  | cons a bs ih => exact ih _

theorem maskedChunks_snoc (enc : Block → Block) (cb : Block) (bs : List (List Byte)) (b : List Byte) :
    maskedChunks enc cb (bs ++ [b]) =
      maskedChunks enc cb bs ++ [List.zipWith (· ^^^ ·) b (bytesOf (enc (incBy cb bs)))] := by
  induction bs generalizing cb with
  | nil => rfl
  | cons a bs ih => simp only [List.cons_append, maskedChunks, ih, incBy]

end Sys2Proof.Machine
end

