-- ==== Sys2Proof/Laws/Decode.lean ====
section
/-! SUPPORT. What the decoder answers, said once: the row a word matches is unique (40_command_engine.md R59), and decode
gives that row's command. -/

namespace Sys2Proof.Laws

/-- Every mask of the map covers `w[5:0]`, so a word that matches a row has the row's OP. -/
theorem op_of_match {w : Word} {r : Row} (hr : r ∈ opcodeTable) (h : w &&& r.mask = r.pattern) :
    opOf w = opOf r.pattern := by
  have covers : ∀ r ∈ opcodeTable, r.mask &&& 0x3F#32 = 0x3F#32 := by decide
  have low : w &&& 0x3F#32 = r.pattern &&& 0x3F#32 := by rw [← h, BitVec.and_assoc, covers r hr]
  have op : ∀ v : Word, opOf v = (v &&& 0x3F#32).extractLsb' 0 6 := by
    intro v
    apply BitVec.eq_of_getLsbD_eq
    intro j hj
    unfold opOf
    interval_cases j <;> simp
  rw [op, op, low]

/-- No two rows of the map match one word. -/
theorem row_unique {w : Word} {r r' : Row} (hr : r ∈ opcodeTable) (hr' : r' ∈ opcodeTable)
    (h : w &&& r.mask = r.pattern) (h' : w &&& r'.mask = r'.pattern) : r = r' := by
  have same : opOf r.pattern = opOf r'.pattern := by rw [← op_of_match hr h, op_of_match hr' h']
  have distinct : (opcodeTable.map (fun r => opOf r.pattern)).Nodup := by decide
  exact List.inj_on_of_nodup_map distinct hr hr' same

/-- decode gives the command of the row that matches. -/
theorem decode_ok_iff (w : Word) (i : Instr) :
    decode w = .ok i ↔ ∃ r ∈ opcodeTable, w &&& r.mask = r.pattern ∧ r.build w = i := by
  unfold decode
  constructor
  · intro h
    split at h
    · rename_i r hf
      have hm := List.find?_some hf
      cases h
      exact ⟨r, List.mem_of_find?_eq_some hf, by simpa [Row.accepts] using hm, rfl⟩
    · cases h
  · rintro ⟨r, hr, hm, rfl⟩
    split
    · rename_i r' hf
      have hm' := List.find?_some hf
      rw [row_unique (List.mem_of_find?_eq_some hf) hr (by simpa [Row.accepts] using hm') hm]
    · rename_i hf
      exact absurd (List.find?_eq_none.1 hf r hr) (by simp [Row.accepts, hm])

/-- A word is illegal exactly when no row matches it, and OP says of which kind. -/
theorem decode_error_iff (w : Word) (e : Reject) :
    decode w = .error e ↔ (∀ r ∈ opcodeTable, w &&& r.mask ≠ r.pattern) ∧
      e = (if opAssigned (opOf w) then .reservedBitSet else .unassignedOpcode) := by
  unfold decode
  split
  · rename_i r hf
    have hm := List.find?_some hf
    simp only [Row.accepts, beq_iff_eq] at hm
    simp only [reduceCtorEq, false_iff, not_and]
    intro h
    exact absurd hm (h r (List.mem_of_find?_eq_some hf))
  · rename_i hf
    have hn : ∀ r ∈ opcodeTable, w &&& r.mask ≠ r.pattern := by
      intro r hr hm
      exact List.find?_eq_none.1 hf r hr (by simp [Row.accepts, hm])
    constructor
    · intro h
      exact ⟨hn, by cases h; rfl⟩
    · rintro ⟨-, rfl⟩
      rfl

end Sys2Proof.Laws
end

