-- ==== Sys2Proof/Laws/Run.lean ====
section
/-! SUPPORT. Steps in the terms of Safety, one round of the eager schedule, and the verdict of GCM_VERIFY as equality of
the tags. -/

namespace Sys2Proof.Machine

/-- The OR of a list of bytes is zero exactly when every one is. -/
theorem foldl_or_eq_zero (f : Nat → Byte) (l : List Nat) (d : Byte) :
    l.foldl (fun d i => d ||| f i) d = 0 ↔ d = 0 ∧ ∀ i ∈ l, f i = 0 := by
  induction l generalizing d with
  | nil => simp
  | cons a l ih =>
    rw [List.foldl_cons, ih, List.forall_mem_cons, ← and_assoc]
    exact and_congr_left fun _ => BitVec.or_eq_zero_iff

/-- GCM_VERIFY compares the whole tags (46_gcm.md R114). -/
theorem tagDifference_eq_zero (a b : Block) : tagDifference a b = 0 ↔ a = b := by
  rw [tagDifference, foldl_or_eq_zero]
  constructor
  · rintro ⟨-, h⟩
    exact block_ext a b fun i hi => BitVec.xor_eq_zero_iff.1 (h i (List.mem_range.2 hi))
  · rintro rfl
    exact ⟨rfl, fun i _ => BitVec.xor_self⟩

/-- Every step is the turn of `turnOf`, with the agenda moved on. -/
theorem step_takeTurn (s : State) : step s = takeTurn (turnOf s) (popTurn s) := by
  cases h : s.agenda with
  | nil =>
    have e : popTurn s = s := by cases s; simp_all [popTurn]
    rw [step_empty h, e, turnOf, h]
    rfl
  | cons t rest =>
    rw [step_turn h, turnOf, h, popTurn, h]
    rfl

/-- The core's turn in a state where a command is pending. -/
theorem step_core {s : State} (h : turnOf s = .core) (hb : s.busy = true) : step s = perform (popTurn s) := by
  rw [step_takeTurn, h]
  exact if_pos hb

/-- The core's turn in a state where none is. -/
theorem step_idle {s : State} (h : turnOf s = .core) (hb : s.busy = false) : step s = .next (popTurn s) := by
  rw [step_takeTurn, h]
  exact if_neg (by simpa [popTurn] using hb)

/-- A run of one more step, on any machine. -/
theorem core_run_succ (M : Host.Core) (n : Nat) {s t : M.State} (h : M.step s = .next t) :
    M.run (n + 1) s = M.run n t := by
  simp only [Host.Core.run, h]

theorem run_succ (n : Nat) {s t : State} (h : step s = .next t) :
    Host.Core.run Sys2Proof.core (n + 1) s = Host.Core.run Sys2Proof.core n t :=
  core_run_succ Sys2Proof.core n h

/-- One round of the eager schedule: host procedure 0 takes its next step, and the core its turn. -/
theorem run_eager (n : Nat) {s u t : State} (ha : s.agenda = eagerAgenda (n + 1))
    (hu : hostTurn 0 { s with agenda := .core :: eagerAgenda n } = u) (hg : u.agenda = .core :: eagerAgenda n)
    (ht : coreTurn { u with agenda := eagerAgenda n } = .next t) :
    Host.Core.run Sys2Proof.core (2 * (n + 1)) s = Host.Core.run Sys2Proof.core (2 * n) t := by
  have first : step s = .next u := by
    rw [step_turn (t := .host 0) (rest := .core :: eagerAgenda n) ha, ← hu]
    rfl
  have second : step u = .next t := by
    rw [step_turn hg]
    exact ht
  exact (run_succ (2 * n + 1) first).trans (run_succ (2 * n) second)

end Sys2Proof.Machine
end

