-- ==== Sys2Proof/Laws/Eager.lean ====
section
/-! SUPPORT. Host procedures under the eager schedule: what each kind of step of a procedure does to its variables and to
the registers, composed by `Reaches.trans`, the rule of the for loop, and the parts SEAL and OPEN are made of. -/

namespace Sys2Proof.Machine

/-! ## What no command reads -/

/-- The state `s` with the fields that no command reads set: PENDING, CMD_LAST, BUSY, the bus answer, the hosts
and the agenda. -/
def dress (p c : Word) (b : Bool) (r : Option Response) (hs : List HostRun) (a : List Turn) (s : State) : State :=
  { s with pending := p, cmdLast := c, busy := b, response := r, hosts := hs, agenda := a }

/-- `f` applied to the next state of an outcome. -/
def mapNext (f : State → State) (r : Result) : Result :=
  match r with
  | .next t => .next (f t)
  | .fault e => .fault e
  | .refused e => .refused e

/-- The verdict of GCM_VERIFY neither reads nor writes the dressed fields. -/
theorem verdict_dress (p c : Word) (b : Bool) (r : Option Response) (hs : List HostRun) (a : List Turn)
    (s : State) : verdict (dress p c b r hs a s) = dress p c b r hs a (verdict s) := by
  unfold verdict
  by_cases h : tagDifference s.tag s.rtag = 0
  · rw [if_pos h, if_pos (show tagDifference (dress p c b r hs a s).tag (dress p c b r hs a s).rtag = 0 from h)]; rfl
  · rw [if_neg h, if_neg (show ¬ tagDifference (dress p c b r hs a s).tag (dress p c b r hs a s).rtag = 0 from h)]; rfl

/-- No command reads or writes the dressed fields. -/
theorem exec_dress (p c : Word) (b : Bool) (r : Option Response) (hs : List HostRun) (a : List Turn)
    (i : Instr) (s : State) :
    exec i (dress p c b r hs a s) = mapNext (dress p c b r hs a) (exec i s) := by
  have one : ∀ (k : Bool) (code : ErrCode) (x y : State), x = dress p c b r hs a y →
      failIf k code (dress p c b r hs a s) (.next x) = mapNext (dress p c b r hs a) (failIf k code s (.next y)) := by
    rintro k code _ y rfl; cases k <;> rfl
  cases i with
  | keyExpand kl => cases kl <;> rfl
  | encrypt => exact one (!s.keyValid) .noKey _ _ rfl
  | decrypt => exact one (!s.keyValid) .noKey _ _ rfl
  | addRoundKey rnd =>
    show failIf (!s.keyValid) .noKey _ (failIf (rndIllegal rnd s) .badArg _ (.next _)) =
      mapNext _ (failIf (!s.keyValid) .noKey s (failIf (rndIllegal rnd s) .badArg s (.next _)))
    cases (!s.keyValid) <;> cases rndIllegal rnd s <;> rfl
  | ghashInit => exact one (!s.keyValid) .noKey _ _ rfl
  | ghashAad nb src => cases src <;> exact one (nbIllegal nb) .badArg _ _ rfl
  | ghashCt nb src => cases src <;> exact one (nbIllegal nb) .badArg _ _ rfl
  | gctr nb dir =>
    show failIf (!s.keyValid) .noKey _ (failIf (nbIllegal nb) .badArg _ (failIf (openingUnverified dir s) .authRequired _ (.next _))) =
      mapNext _ (failIf (!s.keyValid) .noKey s (failIf (nbIllegal nb) .badArg s (failIf (openingUnverified dir s) .authRequired s (.next _))))
    cases (!s.keyValid) <;> cases nbIllegal nb <;> cases openingUnverified dir s <;> rfl
  | gcmTag => exact one (!s.keyValid) .noKey _ _ rfl
  | gcmVerify => exact one (!s.tagValid) .noTag _ _ (verdict_dress p c b r hs a s)
  | _ => rfl

/-- Nor does a write of any word but CMD. -/
theorem writeSlot_dress (p c : Word) (b : Bool) (r : Option Response) (hs : List HostRun) (a : List Turn)
    (slot : Slot) (v : Word) (s : State) (h : slot ≠ .cmd) :
    writeSlot slot v (dress p c b r hs a s) = dress p c b r hs a (writeSlot slot v s) := by
  cases slot <;> first | rfl | (exact absurd rfl h) | simp only [writeSlot, ackStatus_eq, dress]

/-- Nor does a read of any word but CMD and STATUS. -/
theorem readSlot_dress (p c : Word) (b : Bool) (r : Option Response) (hs : List HostRun) (a : List Turn)
    (slot : Slot) (s : State) (h : slot ≠ .cmd) (h' : slot ≠ .status) :
    readSlot slot (dress p c b r hs a s) = readSlot slot s := by
  cases slot <;> first | rfl | exact absurd rfl h | exact absurd rfl h'

/-- An aligned word access inside the window is performed (R34, R121). -/
theorem accessAt_ok {off : Nat} (op : BusOp) (s : State) (h : off < 4096) (h4 : off % 4 = 0) :
    accessAt off 4 op s = respond (busAnswer off op s) (busEffect off op s) := by
  unfold accessAt
  rw [if_neg (by simp only [Config.windowBytes]; omega), if_neg (by simp [h4])]

/-- The bits of STATUS that the procedures test (R28). -/
theorem statusWord_bits (s : State) :
    (statusWord s).getLsbD 0 = s.busy ∧ (statusWord s).getLsbD 3 = s.tagOk ∧ (statusWord s).getLsbD 5 = s.err := by
  simp only [statusWord, BitVec.getLsbD_append]
  refine ⟨?_, ?_, ?_⟩ <;> simp

/-- STATUS does not depend on the dressed fields but BUSY. -/
theorem statusWord_dress (p c : Word) (b : Bool) (r : Option Response) (hs : List HostRun) (a : List Turn) (s : State) :
    statusWord (dress p c b r hs a s) = statusWord { s with busy := b } := rfl

/-! ## Rounds -/

/-- `n` rounds of the eager schedule from the registers of `s`, BUSY clear, `h` the only host. -/
def eagerRun (n : Nat) (p c : Word) (r : Option Response) (h : HostRun) (s : State) : Result :=
  Host.Core.run Sys2Proof.core (2 * n) (dress p c false r [h] (eagerAgenda n) s)

/-- One round: the step the procedure takes, then the core's turn. -/
theorem eagerRun_round {n : Nat} {p c : Word} {r : Option Response} {h h' : HostRun} {s u t : State} {p' c' : Word}
    {r' : Option Response}
    (hh : hostStep h (dress p c false r [h] (.core :: eagerAgenda n) s) = (h', u))
    (hg : u.agenda = .core :: eagerAgenda n)
    (ht : coreTurn { u with hosts := [h'], agenda := eagerAgenda n } = .next (dress p' c' false r' [h'] (eagerAgenda n) t)) :
    eagerRun (n + 1) p c r h s = eagerRun n p' c' r' h' t := by
  refine run_eager n (u := { u with hosts := [h'] }) rfl ?_ hg ht
  show hostTurn 0 (dress p c false r [h] (.core :: eagerAgenda n) s) = _
  unfold hostTurn
  show { (hostStep h (dress p c false r [h] (.core :: eagerAgenda n) s)).2 with
    hosts := [(hostStep h (dress p c false r [h] (.core :: eagerAgenda n) s)).1] } = { u with hosts := [h'] }
  rw [hh]

/-- A procedure that has ended takes no more steps, whatever turns it has. -/
theorem eagerRun_ended (n : Nat) (p c : Word) (r : Option Response) {h : HostRun} (s : State)
    (he : h.ending ≠ .running) : eagerRun n p c r h s = .next (dress p c false r [h] [] s) := by
  induction n with
  | zero => rfl
  | succ n ih => rw [← ih]; exact eagerRun_round (hostStep_ended _ he) rfl rfl

/-! ## Reaching -/

/-- From the steps `rest` with the local variables `vs` and the registers of `s`, the procedure comes to `rest'`, `vs'`, `t`
in some number of rounds. -/
def Reaches (prog rest : List HostOp) (vs : List Val) (s : State) (rest' : List HostOp) (vs' : List Val) (t : State) :
    Prop :=
  ∃ k, ∀ (p c : Word) (r : Option Response), ∃ (p' c' : Word) (r' : Option Response), ∀ n,
    eagerRun (n + k) p c r ⟨prog, rest, vs, .running⟩ s = eagerRun n p' c' r' ⟨prog, rest', vs', .running⟩ t

/-- From there the procedure ends as `e` says, with the registers of `t`. -/
def Ends (prog rest : List HostOp) (vs : List Val) (s : State) (e : HostEnd) (t : State) : Prop :=
  ∃ k, ∀ (p c : Word) (r : Option Response), ∃ (p' c' : Word) (r' : Option Response) (h : HostRun), h.ending = e ∧
    ∀ n, eagerRun (n + k) p c r ⟨prog, rest, vs, .running⟩ s = .next (dress p' c' false r' [h] [] t)

theorem Reaches.refl (prog rest : List HostOp) (vs : List Val) (s : State) : Reaches prog rest vs s rest vs s :=
  ⟨0, fun p c r => ⟨p, c, r, fun _ => rfl⟩⟩

theorem Reaches.trans {prog r0 r1 r2 : List HostOp} {v0 v1 v2 : List Val} {s0 s1 s2 : State}
    (h1 : Reaches prog r0 v0 s0 r1 v1 s1) (h2 : Reaches prog r1 v1 s1 r2 v2 s2) : Reaches prog r0 v0 s0 r2 v2 s2 := by
  obtain ⟨k1, e1⟩ := h1
  obtain ⟨k2, e2⟩ := h2
  refine ⟨k2 + k1, fun p c r => ?_⟩
  obtain ⟨p1, c1, q1, f1⟩ := e1 p c r
  obtain ⟨p2, c2, q2, f2⟩ := e2 p1 c1 q1
  exact ⟨p2, c2, q2, fun n => by rw [← f2, ← f1, Nat.add_assoc]⟩

theorem Reaches.ends {prog r0 r1 : List HostOp} {v0 v1 : List Val} {s0 s1 t : State} {e : HostEnd}
    (h1 : Reaches prog r0 v0 s0 r1 v1 s1) (h2 : Ends prog r1 v1 s1 e t) : Ends prog r0 v0 s0 e t := by
  obtain ⟨k1, e1⟩ := h1
  obtain ⟨k2, e2⟩ := h2
  refine ⟨k2 + k1, fun p c r => ?_⟩
  obtain ⟨p1, c1, q1, f1⟩ := e1 p c r
  obtain ⟨p2, c2, q2, h, he, f2⟩ := e2 p1 c1 q1
  exact ⟨p2, c2, q2, h, he, fun n => by rw [← f2, ← f1, Nat.add_assoc]⟩

/-- One round, whatever stands beside the registers. -/
theorem reaches_round {prog rest rest' : List HostOp} {vs vs' : List Val} {s t : State}
    (step : ∀ (p c : Word) (r : Option Response), ∃ (p' c' : Word) (r' : Option Response), ∀ n,
      eagerRun (n + 1) p c r ⟨prog, rest, vs, .running⟩ s = eagerRun n p' c' r' ⟨prog, rest', vs', .running⟩ t) :
    Reaches prog rest vs s rest' vs' t := ⟨1, step⟩

/-- One round in which the procedure takes a step of local work: the registers and the bus answer stay as they are. -/
theorem eagerRun_work {prog rest : List HostOp} {vs : List Val} {h' : HostRun} (n : Nat) (p c : Word) (r : Option Response)
    (s : State) (op : HostOp) (noAccess : ∀ h t, opStep op h t = (h.work op, t))
    (work : HostRun.work ⟨prog, rest, vs, .running⟩ op = h') :
    eagerRun (n + 1) p c r ⟨prog, op :: rest, vs, .running⟩ s = eagerRun n p c r h' s := by
  refine eagerRun_round
    (u := dress p c false r [⟨prog, op :: rest, vs, .running⟩] (.core :: eagerAgenda n) s) ?_ rfl rfl
  rw [hostStep_running _ rfl rfl, noAccess]
  exact congrArg (·, _) work

/-- A step of local work after which the procedure goes on. -/
theorem reaches_work {prog rest rest' : List HostOp} {vs vs' : List Val} (s : State) (op : HostOp)
    (noAccess : ∀ h t, opStep op h t = (h.work op, t))
    (work : HostRun.work ⟨prog, rest, vs, .running⟩ op = ⟨prog, rest', vs', .running⟩) :
    Reaches prog (op :: rest) vs s rest' vs' s :=
  reaches_round fun p c r => ⟨p, c, r, fun n => eagerRun_work n p c r s op noAccess work⟩

/-- A step of local work that ends the procedure. -/
theorem ends_work {prog rest : List HostOp} {vs : List Val} (s : State) (op : HostOp) {e : HostEnd}
    (noAccess : ∀ h t, opStep op h t = (h.work op, t)) (he : e ≠ .running)
    (work : HostRun.work ⟨prog, rest, vs, .running⟩ op = HostRun.finish ⟨prog, rest, vs, .running⟩ e) :
    Ends prog (op :: rest) vs s e s :=
  ⟨1, fun p c r => ⟨p, c, r, HostRun.finish ⟨prog, rest, vs, .running⟩ e, rfl, fun n =>
    (eagerRun_work n p c r s op noAccess work).trans (eagerRun_ended n p c r s he)⟩⟩

/-- A test that holds ends the procedure, with nothing else changed. -/
theorem eagerRun_fails {prog rest : List HostOp} {vs : List Val} {cond : HostCond} (n : Nat) (p c : Word)
    (r : Option Response) (s : State) (e : SoftError) (h : cond.holds vs = true) :
    eagerRun (n + 1) p c r ⟨prog, .failIf cond e :: rest, vs, .running⟩ s =
      .next (dress p c false r [HostRun.finish ⟨prog, rest, vs, .running⟩ (.failed e)] [] s) := by
  refine (eagerRun_work n p c r s _ (fun _ _ => rfl) ?_).trans (eagerRun_ended n p c r s (by simp [HostRun.finish]))
  exact if_pos h

/-- A test that does not hold changes nothing. -/
theorem eagerRun_passes {prog rest : List HostOp} {vs : List Val} {cond : HostCond} (n : Nat) (p c : Word)
    (r : Option Response) (s : State) (e : SoftError) (h : cond.holds vs = false) :
    eagerRun (n + 1) p c r ⟨prog, .failIf cond e :: rest, vs, .running⟩ s =
      eagerRun n p c r ⟨prog, rest, vs, .running⟩ s :=
  eagerRun_work n p c r s _ (fun _ _ => rfl) (if_neg (by simp [h]))

/-! ## Steps -/

theorem reaches_assign {prog rest : List HostOp} {vs : List Val} (s : State) (x : Nat) (e : HostExpr) :
    Reaches prog (.assign x e :: rest) vs s rest (setLocal x (e.eval vs) vs) s :=
  reaches_work s _ (fun _ _ => rfl) rfl

theorem reaches_label {prog rest : List HostOp} {vs : List Val} (s : State) (l : Nat) :
    Reaches prog (.label l :: rest) vs s rest vs s := reaches_work s _ (fun _ _ => rfl) rfl

theorem reaches_goto {prog rest : List HostOp} {vs : List Val} (s : State) (l : Nat) :
    Reaches prog (.goto l :: rest) vs s (afterLabel l prog) vs s := reaches_work s _ (fun _ _ => rfl) rfl

theorem reaches_ifGoto {prog rest : List HostOp} {vs : List Val} (s : State) (c : HostCond) (l : Nat) :
    Reaches prog (.ifGoto c l :: rest) vs s (if c.holds vs then afterLabel l prog else rest) vs s := by
  refine reaches_work s _ (fun _ _ => rfl) ?_
  show (if c.holds vs then _ else _) = _
  split <;> rfl

theorem reaches_failIf {prog rest : List HostOp} {vs : List Val} (s : State) {c : HostCond} (e : SoftError)
    (h : c.holds vs = false) : Reaches prog (.failIf c e :: rest) vs s rest vs s := by
  refine reaches_work s _ (fun _ _ => rfl) ?_
  show (if c.holds vs then _ else _) = _
  rw [h]; rfl

theorem ends_failIf {prog rest : List HostOp} {vs : List Val} (s : State) {c : HostCond} (e : SoftError)
    (h : c.holds vs = true) : Ends prog (.failIf c e :: rest) vs s (.failed e) s := by
  refine ends_work s _ (fun _ _ => rfl) (by simp) ?_
  show (if c.holds vs then _ else _) = _
  rw [h]; rfl

theorem ends_ret {prog rest : List HostOp} {vs : List Val} (s : State) (es : List HostExpr) :
    Ends prog (.ret es :: rest) vs s (.returned (es.map fun e => (e.eval vs).toBytes)) s :=
  ends_work s _ (fun _ _ => rfl) (by simp) rfl

/-- A write of a word other than CMD. -/
theorem reaches_store {prog rest : List HostOp} {vs : List Val} (s : State) {off : HostExpr} {e : HostExpr} (k : Nat)
    (v : Word) (ho : (off.eval vs).toNum = k) (hv : BitVec.ofNat 32 (e.eval vs).toNum = v) (hk : k < 4096)
    (h4 : k % 4 = 0) (hc : slotAt k ≠ .cmd) :
    Reaches prog (.store (.window off) e :: rest) vs s rest vs (writeSlot (slotAt k) v s) := by
  refine reaches_round fun p c r => ⟨p, c, some .done, fun n => ?_⟩
  refine eagerRun_round
    (u := dress p c false (some .done) [⟨prog, .store (.window off) e :: rest, vs, .running⟩] (.core :: eagerAgenda n)
      (writeSlot (slotAt k) v s)) ?_ rfl rfl
  rw [hostStep_running _ rfl rfl]
  show hostStore (.window off) e ⟨prog, rest, vs, .running⟩ _ = _
  unfold hostStore hostAccess
  dsimp only
  rw [ho, hv, accessAt_ok _ _ hk h4]
  simp only [busEffect, busAnswer]
  rw [writeWord_idle _ _ rfl, writeSlot_dress _ _ _ _ _ _ _ _ _ hc]
  rfl

/-- A read of a word other than CMD and STATUS. -/
theorem reaches_load {prog rest : List HostOp} {vs : List Val} (s : State) {off : HostExpr} (x k : Nat)
    (ho : (off.eval vs).toNum = k) (hk : k < 4096) (h4 : k % 4 = 0) (hc : slotAt k ≠ .cmd) (hs : slotAt k ≠ .status) :
    Reaches prog (.load x (.window off) :: rest) vs s rest (setLocal x (.num (readWord k s).toNat) vs) s := by
  refine reaches_round fun p c r => ⟨p, c, some (.data (readWord k s)), fun n => ?_⟩
  have rd : ∀ hs' a, readWord k (dress p c false r hs' a s) = readWord k s := fun hs' a =>
    readSlot_dress p c false r hs' a _ s hc hs
  refine eagerRun_round
    (u := dress p c false (some (.data (readWord k s))) [⟨prog, .load x (.window off) :: rest, vs, .running⟩]
      (.core :: eagerAgenda n) s) ?_ rfl rfl
  rw [hostStep_running _ rfl rfl]
  show hostLoad x (.window off) ⟨prog, rest, vs, .running⟩ _ = _
  unfold hostLoad hostAccess
  dsimp only
  rw [ho, accessAt_ok _ _ hk h4]
  simp only [busEffect, busAnswer, rd]
  rfl

/-- A read by a procedure of an aligned word of the window, in any state (R38, R41, R64). -/
theorem hostLoad_window (x : Nat) (h : HostRun) (s : State) {off : Nat} (ho : off < 4096) (h4 : off % 4 = 0) :
    hostLoad x (.window (.num off)) h s =
      (h.set x (.num (readWord off s).toNat), { s with response := some (.data (readWord off s)) }) := by
  have e : hostAccess (.window (.num off)) h.locals .read s = respond (busAnswer off .read s) (busEffect off .read s) :=
    accessAt_ok (off := off) _ _ ho h4
  unfold hostLoad
  rw [e]
  rfl

/-- What a read of STATUS gives while the core is idle. -/
def idleStatus (s : State) : Word := statusWord { s with busy := false }

/-- A read of STATUS in a state where the core is idle, as a step of its own or as the last turn of WAIT. -/
theorem hostLoad_status (x : Nat) (h : HostRun) (p c : Word) (r : Option Response) (hs : List HostRun) (a : List Turn)
    (s : State) :
    hostLoad x (.window (.num 0x004)) h (dress p c false r hs a s) =
      (h.set x (.num (idleStatus s).toNat), dress p c false (some (.data (idleStatus s))) hs a s) := by
  have e : hostAccess (.window (.num 0x004)) h.locals .read (dress p c false r hs a s) =
      respond (busAnswer 0x004 .read (dress p c false r hs a s)) (busEffect 0x004 .read (dress p c false r hs a s)) :=
    accessAt_ok (off := 0x004) _ _ (by decide) (by decide)
  unfold hostLoad
  rw [e]
  rfl

theorem reaches_status {prog rest : List HostOp} {vs : List Val} (s : State) (x : Nat) :
    Reaches prog (.load x (.window (.num 0x004)) :: rest) vs s rest (setLocal x (.num (idleStatus s).toNat) vs) s := by
  refine reaches_round fun p c r => ⟨p, c, some (.data (idleStatus s)), fun n => ?_⟩
  refine eagerRun_round (u := dress p c false (some (.data (idleStatus s)))
    [⟨prog, .load x (.window (.num 0x004)) :: rest, vs, .running⟩] (.core :: eagerAgenda n) s) ?_ rfl rfl
  rw [hostStep_running _ rfl rfl]
  exact hostLoad_status x _ _ _ _ _ _ _

/-- A variable just assigned. -/
theorem getLocal_setLocal (x : Nat) (v : Val) (vs : List Val) : getLocal (setLocal x v vs) x = v := by
  induction x generalizing vs with
  | zero => cases vs <;> rfl
  | succ x ih => cases vs <;> exact ih _

/-- A field of one bit of a word. -/
theorem field_one (w : Word) (i : Nat) : w.toNat / 2 ^ i % 2 ^ 1 = (w.getLsbD i).toNat := by
  rw [BitVec.getLsbD, Nat.testBit_eq_decide_div_mod_eq, pow_one]
  rcases Nat.mod_two_eq_zero_or_one (w.toNat / 2 ^ i) with h | h <;> simp [h]

/-- WAIT in a state where the core is idle. -/
theorem reaches_wait {prog rest : List HostOp} {vs : List Val} (s : State) (x : Nat) :
    Reaches prog (.wait x :: rest) vs s rest (setLocal x (.num (idleStatus s).toNat) vs) s := by
  refine reaches_round fun p c r => ⟨p, c, some (.data (idleStatus s)), fun n => ?_⟩
  refine eagerRun_round (u := dress p c false (some (.data (idleStatus s)))
    [⟨prog, .wait x :: rest, vs, .running⟩] (.core :: eagerAgenda n) s) ?_ rfl rfl
  rw [hostStep_running _ rfl rfl]
  show hostWait x _ _ = _
  unfold hostWait
  rw [hostLoad_status]
  have hb : (idleStatus s).getLsbD 0 = false := (statusWord_bits _).1
  have hf : (HostCond.eq (.field (.var x) 0 1) (.num 1)).holds (setLocal x (.num (idleStatus s).toNat) vs) = false := by
    simp only [HostCond.holds, HostExpr.eval, getLocal_setLocal, Val.toNum, field_one, hb]
    rfl
  exact if_neg (by rw [Bool.not_eq_true]; exact hf)

/-- RUN of a command whose meaning gives a next state: the write of CMD, and a WAIT that ends at once. -/
theorem reaches_run {prog rest : List HostOp} {vs : List Val} {s u : State} {e : HostExpr} (x : Nat) {i : Instr}
    (he : BitVec.ofNat 32 (e.eval vs).toNum = encode i) (hd : decode (encode i) = .ok i) (hx : exec i s = .next u) :
    Reaches prog (runWord e x ++ rest) vs s rest (setLocal x (.num (idleStatus u).toNat) vs) u := by
  refine Reaches.trans (r1 := .wait x :: rest) (v1 := vs) (s1 := u) ?_ (reaches_wait u x)
  refine reaches_round fun p c r => ⟨encode i, encode i, some .done, fun n => ?_⟩
  refine eagerRun_round
    (u := dress (encode i) (encode i) true (some .done) [⟨prog, runWord e x ++ rest, vs, .running⟩]
      (.core :: eagerAgenda n) s) ?_ rfl ?_
  · rw [hostStep_running _ rfl rfl]
    show hostStore (.window (.num 0x000)) e ⟨prog, .wait x :: rest, vs, .running⟩ _ = _
    unfold hostStore
    have a : ∀ (w : Word) (t : State), hostAccess (.window (.num 0x000)) vs (.write w) t =
        respond (busAnswer 0x000 (.write w) t) (busEffect 0x000 (.write w) t) := fun _ _ =>
      accessAt_ok (off := 0x000) _ _ (by decide) (by decide)
    dsimp only
    rw [he, a]
    simp only [busEffect, busAnswer]
    rw [writeWord_idle _ _ rfl]
    rfl
  · show perform (dress (encode i) (encode i) true (some .done) [⟨prog, .wait x :: rest, vs, .running⟩] (eagerAgenda n) s) = _
    rw [perform_ok (i := i) hd, exec_dress, hx]
    rfl

theorem toNum_num (n : Nat) : (Val.num n).toNum = n := rfl

theorem toBytes_bytes (b : List Byte) : (Val.bytes b).toBytes = b := rfl

/-- What follows the body of a for loop. -/
abbrev loopTail (v top done : Nat) (rest : List HostOp) : List HostOp :=
  .assign v (.arith .add (.var v) (.num 1)) :: .goto top :: .label done :: rest

/-- The rule of the increasing for loop: an invariant of its variable's value, the local variables and the registers. An
empty range, `N ≤ A`, runs no pass. -/
theorem reaches_forFrom {prog rest body : List HostOp} {v top done A N : Nat} {first stop : HostExpr}
    (I : Nat → List Val → State → Prop) {vs : List Val} {s : State}
    (hTop : afterLabel top prog = .ifGoto (.not (.lt (.var v) stop)) done ::
      (body ++ loopTail v top done rest))
    (hDone : afterLabel done prog = rest)
    (first_ : first.eval vs = .num A)
    (start : I A (setLocal v (.num A) vs) s)
    (stop_ : ∀ j ws t, I j ws t → (stop.eval ws).toNum = N ∧ getLocal ws v = .num j)
    (next : ∀ j ws t, I j ws t → j < N → ∃ ws' t',
      Reaches prog (body ++ loopTail v top done rest) ws t (loopTail v top done rest) ws' t' ∧ getLocal ws' v = .num j ∧
        I (j + 1) (setLocal v (.num (j + 1)) ws') t') :
    ∃ ws t, Reaches prog (forFrom v first stop top done body ++ rest) vs s rest ws t ∧ I (max A N) ws t := by
  have loop : ∀ m j ws t, I j ws t → N - j = m →
      ∃ ws' t', Reaches prog (afterLabel top prog) ws t rest ws' t' ∧ I (j + m) ws' t' := by
    intro m
    induction m with
    | zero =>
      intro j ws t hI hj
      obtain ⟨hc, hv⟩ := stop_ j ws t hI
      refine ⟨ws, t, ?_, hI⟩
      rw [hTop]
      refine (reaches_ifGoto t _ _).trans ?_
      rw [if_pos (by simp [HostCond.holds, HostExpr.eval, hv, hc, toNum_num]; omega), hDone]
      exact Reaches.refl _ _ _ _
    | succ m ih =>
      intro j ws t hI hj
      obtain ⟨hc, hv⟩ := stop_ j ws t hI
      obtain ⟨ws', t', body_, hv', hI'⟩ := next j ws t hI (by omega)
      obtain ⟨ws2, t2, hr, hI2⟩ := ih (j + 1) _ t' hI' (by omega)
      refine ⟨ws2, t2, ?_, by rw [show j + (m + 1) = j + 1 + m by omega]; exact hI2⟩
      conv => arg 2; rw [hTop]
      refine (reaches_ifGoto t _ _).trans ?_
      rw [if_neg (by simp [HostCond.holds, HostExpr.eval, hv, hc, toNum_num]; omega)]
      refine body_.trans ((reaches_assign t' _ _).trans ((reaches_goto t' _).trans ?_))
      simpa [HostExpr.eval, hv', Val.toNum, Arith.apply] using hr
  obtain ⟨ws, t, hr, hI⟩ := loop (N - A) A _ s start rfl
  refine ⟨ws, t, ?_, by rw [show max A N = A + (N - A) by omega]; exact hI⟩
  rw [hTop] at hr
  have e : forFrom v first stop top done body ++ rest = .assign v first :: .label top ::
      .ifGoto (.not (.lt (.var v) stop)) done ::
      (body ++ (.assign v (.arith .add (.var v) (.num 1)) :: .goto top :: .label done :: rest)) := by
    simp [forFrom]
  rw [e]
  exact (first_ ▸ reaches_assign s v first).trans ((reaches_label s top).trans hr)

/-- The rule of `for v in 0 .. count-1`. -/
theorem reaches_for {prog rest body : List HostOp} {v top done N : Nat} {count : HostExpr}
    (I : Nat → List Val → State → Prop) {vs : List Val} {s : State}
    (hTop : afterLabel top prog = .ifGoto (.not (.lt (.var v) count)) done ::
      (body ++ loopTail v top done rest))
    (hDone : afterLabel done prog = rest)
    (start : I 0 (setLocal v (.num 0) vs) s)
    (count_ : ∀ j ws t, I j ws t → (count.eval ws).toNum = N ∧ getLocal ws v = .num j)
    (next : ∀ j ws t, I j ws t → j < N → ∃ ws' t',
      Reaches prog (body ++ loopTail v top done rest) ws t (loopTail v top done rest) ws' t' ∧ getLocal ws' v = .num j ∧
        I (j + 1) (setLocal v (.num (j + 1)) ws') t') :
    ∃ ws t, Reaches prog (forLoop v count top done body ++ rest) vs s rest ws t ∧ I N ws t := by
  have := reaches_forFrom I hTop hDone (first := .num 0) rfl start count_ next
  rwa [Nat.zero_max] at this

/-- What follows the body of a decreasing for loop. -/
abbrev downTail (v : Nat) (b : HostExpr) (top done : Nat) (rest : List HostOp) : List HostOp :=
  .ifGoto (.not (.lt b (.var v))) done :: .assign v (.arith .sub (.var v) (.num 1)) :: .goto top :: .label done :: rest

/-- The rule of the decreasing for loop: an invariant of the number of passes done, the local variables and the registers,
which the loop variable's own value does not touch. Pass `k` runs with the variable at `A - k`; `A + 1 - B` passes run, none
of an empty range. -/
theorem reaches_forDownto {prog rest body : List HostOp} {v top done A B : Nat} {a b : HostExpr}
    (I : Nat → List Val → State → Prop) {vs : List Val} {s : State}
    (hTop : afterLabel top prog = body ++ downTail v b top done rest)
    (hDone : afterLabel done prog = rest)
    (first : a.eval vs = .num A)
    (bound : ∀ k ws t, I k ws t → (b.eval ws).toNum = B)
    (free : ∀ k w ws t, I k ws t → I k (setLocal v w ws) t)
    (start : I 0 vs s)
    (next : ∀ k ws t, I k ws t → k < A + 1 - B → getLocal ws v = .num (A - k) → ∃ ws' t',
      Reaches prog (body ++ downTail v b top done rest) ws t (downTail v b top done rest) ws' t' ∧
        getLocal ws' v = .num (A - k) ∧ I (k + 1) ws' t') :
    ∃ ws t, Reaches prog (forDownto v a b top done body ++ rest) vs s rest ws t ∧ I (A + 1 - B) ws t := by
  have loop : ∀ m k ws t, I k ws t → k + m + 1 = A + 1 - B → getLocal ws v = .num (A - k) →
      ∃ ws' t', Reaches prog (body ++ downTail v b top done rest) ws t rest ws' t' ∧ I (A + 1 - B) ws' t' := by
    intro m
    induction m with
    | zero =>
      intro k ws t hI hk hv
      obtain ⟨ws', t', body_, hv', hI'⟩ := next k ws t hI (by omega) hv
      refine ⟨ws', t', body_.trans ((reaches_ifGoto t' _ _).trans ?_), by rw [← hk]; exact hI'⟩
      rw [if_pos (by simp [HostCond.holds, HostExpr.eval, hv', bound _ _ _ hI', toNum_num]; omega), hDone]
      exact Reaches.refl _ _ _ _
    | succ m ih =>
      intro k ws t hI hk hv
      obtain ⟨ws', t', body_, hv', hI'⟩ := next k ws t hI (by omega) hv
      obtain ⟨ws2, t2, hr, hI2⟩ := ih (k + 1) (setLocal v (.num (A - (k + 1))) ws') t' (free _ _ _ _ hI') (by omega)
        (getLocal_setLocal _ _ _)
      refine ⟨ws2, t2, body_.trans ((reaches_ifGoto t' _ _).trans ?_), hI2⟩
      rw [if_neg (by simp [HostCond.holds, HostExpr.eval, hv', bound _ _ _ hI', toNum_num]; omega)]
      refine (reaches_assign t' _ _).trans ((reaches_goto t' _).trans ?_)
      rw [hTop]
      simpa [HostExpr.eval, hv', Val.toNum, Arith.apply, Nat.sub_sub] using hr
  have e : forDownto v a b top done body ++ rest = .assign v a :: .ifGoto (.lt (.var v) b) done :: .label top ::
      (body ++ downTail v b top done rest) := by
    simp [forDownto]
  have b_ := bound _ _ _ (free 0 (.num A) _ _ start)
  rw [e]
  by_cases h : A < B
  · refine ⟨_, s, (first ▸ reaches_assign s v a).trans ((reaches_ifGoto s _ _).trans ?_),
      by rw [show A + 1 - B = 0 by omega]; exact free 0 (.num A) _ _ start⟩
    rw [if_pos (by simp [HostCond.holds, HostExpr.eval, getLocal_setLocal, b_, toNum_num, h]), hDone]
    exact Reaches.refl _ _ _ _
  · obtain ⟨ws, t, hr, hI⟩ := loop (A - B) 0 _ s (free 0 (.num A) _ _ start) (by omega) (getLocal_setLocal _ _ _)
    refine ⟨ws, t, (first ▸ reaches_assign s v a).trans ((reaches_ifGoto s _ _).trans ?_), hI⟩
    rw [if_neg (by simp [HostCond.holds, HostExpr.eval, getLocal_setLocal, b_, toNum_num, h])]
    exact (reaches_label s top).trans hr

/-! ## Blocks -/

/-- The word of GHASH_AAD with a count that fits. -/
theorem decode_aad (n : Nat) (h : n ≤ 16) : decode (encode (.ghashAad n .din)) = .ok (.ghashAad n .din) := by
  interval_cases n <;> decide

/-- The word of GHASH_CT with a count that fits. -/
theorem decode_ct (n : Nat) (src : Src) (h : n ≤ 16) : decode (encode (.ghashCt n src)) = .ok (.ghashCt n src) := by
  interval_cases n <;> cases src <;> decide

/-- The word of GCTR with a count that fits. -/
theorem decode_gctr (n : Nat) (dir : Dir) (h : n ≤ 16) : decode (encode (.gctr n dir)) = .ok (.gctr n dir) := by
  interval_cases n <;> cases dir <;> decide

theorem ofNat_toNat_word (w : Word) : BitVec.ofNat 32 w.toNat = w := by simp

/-- WRBLK of DIN. -/
theorem reaches_din {prog rest : List HostOp} {vs : List Val} (s : State) {e : HostExpr} (b : List Byte)
    (he : e.eval vs = .bytes b) : Reaches prog (wrblk 0x030 e ++ rest) vs s rest vs { s with din := blockAt b } := by
  have v : ∀ k, BitVec.ofNat 32 ((HostExpr.word e (.num k)).eval vs).toNum = wordAt b k := fun k => by
    simp [HostExpr.eval, he, Val.toNum, Val.toBytes]
  have := (((reaches_store (prog := prog) (vs := vs) (off := .num 0x030)
      (rest := [.store (.window (.num 0x034)) (.word e (.num 1)), .store (.window (.num 0x038)) (.word e (.num 2)),
        .store (.window (.num 0x03C)) (.word e (.num 3))] ++ rest) s 0x030 _ rfl (v 0) (by decide) (by decide) (by decide)).trans
    (reaches_store (off := .num 0x034) _ 0x034 _ rfl (v 1) (by decide) (by decide) (by decide))).trans
    (reaches_store (off := .num 0x038) _ 0x038 _ rfl (v 2) (by decide) (by decide) (by decide))).trans
    (reaches_store (rest := rest) (off := .num 0x03C) _ 0x03C _ rfl (v 3) (by decide) (by decide) (by decide))
  rw [← setWords_blockAt s.din b]
  exact this

/-- WRBLK of RTAG. -/
theorem reaches_rtag {prog rest : List HostOp} {vs : List Val} (s : State) {e : HostExpr} (b : List Byte)
    (he : e.eval vs = .bytes b) : Reaches prog (wrblk 0x0C0 e ++ rest) vs s rest vs { s with rtag := blockAt b } := by
  have v : ∀ k, BitVec.ofNat 32 ((HostExpr.word e (.num k)).eval vs).toNum = wordAt b k := fun k => by
    simp [HostExpr.eval, he, Val.toNum, Val.toBytes]
  have := (((reaches_store (prog := prog) (vs := vs) (off := .num 0x0C0)
      (rest := [.store (.window (.num 0x0C4)) (.word e (.num 1)), .store (.window (.num 0x0C8)) (.word e (.num 2)),
        .store (.window (.num 0x0CC)) (.word e (.num 3))] ++ rest) s 0x0C0 _ rfl (v 0) (by decide) (by decide) (by decide)).trans
    (reaches_store (off := .num 0x0C4) _ 0x0C4 _ rfl (v 1) (by decide) (by decide) (by decide))).trans
    (reaches_store (off := .num 0x0C8) _ 0x0C8 _ rfl (v 2) (by decide) (by decide) (by decide))).trans
    (reaches_store (rest := rest) (off := .num 0x0CC) _ 0x0CC _ rfl (v 3) (by decide) (by decide) (by decide))
  rw [← setWords_blockAt s.rtag b]
  exact this

/-! ## The parts of SEAL and OPEN -/

/-- The local variables of SEAL, and of OPEN with its c and t as `more`: nonce, p or ct, a, s, j, n, c or p, a word, and the
block read (R116, R117). -/
abbrev gcmLocals (nonce p a : List Byte) (s j n c w b : Val) (more : List Val) : List Val :=
  .bytes nonce :: .bytes p :: .bytes a :: s :: j :: n :: c :: w :: b :: more

section
variable {prog rest : List HostOp} {nonce p a : List Byte} {st j n c w b : Val} {more : List Val}

/-- One word of RDBLK. -/
theorem reaches_rdword (s : State) (off : Nat) (o : List Byte) (hk : off < 4096) (h4 : off % 4 = 0)
    (hc : slotAt off ≠ .cmd) (hs : slotAt off ≠ .status) :
    Reaches prog ([.load 7 (.window (.num off)), .assign 8 (.cat (.var 8) (.serial (.var 7)))] ++ rest)
      (gcmLocals nonce p a st j n c w (.bytes o) more) s rest
      (gcmLocals nonce p a st j n c (.num (readWord off s).toNat) (.bytes (o ++ wordBytes (readWord off s))) more) s := by
  refine (reaches_load s 7 off rfl hk h4 hc hs).trans ((reaches_assign s 8 _).trans ?_)
  have e : setLocal 8 ((HostExpr.cat (.var 8) (.serial (.var 7))).eval
      (setLocal 7 (.num (readWord off s).toNat) (gcmLocals nonce p a st j n c w (.bytes o) more)))
      (setLocal 7 (.num (readWord off s).toNat) (gcmLocals nonce p a st j n c w (.bytes o) more)) =
      gcmLocals nonce p a st j n c (.num (readWord off s).toNat) (.bytes (o ++ wordBytes (BitVec.ofNat 32 (readWord off s).toNat))) more :=
    rfl
  rw [e, ofNat_toNat_word]
  exact Reaches.refl _ _ _ _

/-- RDBLK of four words of the window. -/
theorem reaches_rdblk (s : State) (off : Nat) (blk : Block) (h4 : off % 4 = 0)
    (hw : ∀ k, k < 4 → readWord (off + 4 * k) s = wordOf blk k)
    (hok : ∀ k, k < 4 → off + 4 * k < 4096 ∧ slotAt (off + 4 * k) ≠ .cmd ∧ slotAt (off + 4 * k) ≠ .status) :
    ∃ w', Reaches prog (rdblk 8 7 off ++ rest) (gcmLocals nonce p a st j n c w b more) s rest
      (gcmLocals nonce p a st j n c w' (.bytes (bytesOf blk)) more) s := by
  have r := fun (k : Nat) (hk : k < 4) (o : List Byte) (rest' : List HostOp) (w' : Val) =>
    reaches_rdword (prog := prog) (rest := rest') (nonce := nonce) (p := p) (a := a) (st := st) (j := j) (n := n) (c := c)
      (w := w') (more := more) s (off + 4 * k) o (hok k hk).1 (by omega) (hok k hk).2.1 (hok k hk).2.2
  refine ⟨.num (readWord (off + 4 * 3) s).toNat, ?_⟩
  have h := (reaches_assign (prog := prog) (vs := gcmLocals nonce p a st j n c w b more)
      (rest := (List.range 4).flatMap (fun k => [HostOp.load 7 (.window (.num (off + 4 * k))),
        .assign 8 (.cat (.var 8) (.serial (.var 7)))]) ++ rest) s 8 (.bytes [])).trans
    (((r 0 (by decide) [] _ _).trans (r 1 (by decide) _ _ _)).trans ((r 2 (by decide) _ _ _).trans (r 3 (by decide) _ rest _)))
  rw [hw 0 (by decide), hw 1 (by decide), hw 2 (by decide), List.nil_append] at h
  rw [wordBytes_bytesOf, ← hw 3 (by decide)]
  exact h

/-- RDBLK of DOUT. -/
theorem reaches_dout (s : State) :
    ∃ w', Reaches prog (rdblk 8 7 0x040 ++ rest) (gcmLocals nonce p a st j n c w b more) s rest
      (gcmLocals nonce p a st j n c w' (.bytes (bytesOf s.dout)) more) s :=
  reaches_rdblk s 0x040 s.dout (by decide) (by intro k hk; interval_cases k <;> rfl)
    (by intro k hk; interval_cases k <;> decide)

/-- RDBLK of TAG. -/
theorem reaches_tag (s : State) :
    ∃ w', Reaches prog (rdblk 8 7 0x0B0 ++ rest) (gcmLocals nonce p a st j n c w b more) s rest
      (gcmLocals nonce p a st j n c w' (.bytes (bytesOf s.tag)) more) s :=
  reaches_rdblk s 0x0B0 s.tag (by decide) (by intro k hk; interval_cases k <;> rfl)
    (by intro k hk; interval_cases k <;> decide)

/-- The loading of chunk number `i` of a byte string. -/
theorem reaches_loadBlock (s : State) {e : HostExpr} (d : List Byte) (i : Nat) (hi : i < (d.length + 15) / 16)
    (he : ∀ n, e.eval (gcmLocals nonce p a st (.num i) n c w b more) = .bytes d) :
    Reaches prog (loadBlock e ++ rest) (gcmLocals nonce p a st (.num i) n c w b more) s rest
      (gcmLocals nonce p a st (.num i) (.num ((d.drop (16 * i)).take 16).length) c w b more)
      { s with din := blockAt ((d.drop (16 * i)).take 16) } := by
  refine (reaches_assign s 5 _).trans ?_
  have e5 : (HostExpr.arith .min (.num 16) (.arith .sub (.len e) (.arith .mul (.num 16) (.var 4)))).eval
      (gcmLocals nonce p a st (.num i) n c w b more) = .num (min 16 (d.length - 16 * i)) := by
    show Val.num (Nat.min 16 ((e.eval _).toBytes.length - 16 * i)) = _
    rw [he]
    rfl
  rw [e5, (chunk_length d i hi).1]
  refine reaches_din s _ ?_
  rw [← take_chunk d i]
  exact congrArg (fun v : Val => Val.bytes ((v.toBytes.drop (16 * i)).take (min 16 (d.length - 16 * i))))
    (he (.num (min 16 (d.length - 16 * i))))

/-- The write of the nonce, and the commands up to GHASH_INIT, on a core with a valid key (R116, R117). -/
def opened (nonce : List Byte) (s : State) : State :=
  { s with
    err := false, errcode := .none, authFail := false, nonce := nonceOf nonce, j0 := genCounter (nonceOf nonce)
    cb := inc32 (genCounter (nonceOf nonce)), h := cipherE s 0, x := 0, alen := 0, clen := 0
    tagValid := false, tagOk := false }

/-- RUN of a command without a computed operand. -/
theorem reaches_runInstr {vs : List Val} {s u : State} (i : Instr) (x : Nat) (hd : decode (encode i) = .ok i)
    (hx : exec i s = .next u) :
    Reaches prog (run i x ++ rest) vs s rest (setLocal x (.num (idleStatus u).toNat) vs) u :=
  reaches_run x (ofNat_toNat_word _) hd hx

theorem reaches_opening (s : State) (hk : s.keyValid = true)
    (hTop : afterLabel 0 prog = .ifGoto (.not (.lt (.var 4) (.num 3))) 1 ::
      ([.store (wordAddr 0x0A0 (.var 4)) (.word (.var 0) (.var 4))] ++
        loopTail 4 0 1 (run .ctrInit 3 ++ (run .ctrInc 3 ++ (run .ghashInit 3 ++ rest)))))
    (hDone : afterLabel 1 prog = run .ctrInit 3 ++ (run .ctrInc 3 ++ (run .ghashInit 3 ++ rest))) :
    ∃ st' j', Reaches prog (openingProg ++ rest) (gcmLocals nonce p a st j n c w b more) s rest
      (gcmLocals nonce p a st' j' n c w b more) (opened nonce s) := by
  let s0 : State := { s with authFail := false, err := false, errcode := .none }
  let nth : Nat → Nonce := fun k => match k with
    | 0 => s.nonce
    | 1 => setWord s.nonce 0 (wordAt nonce 0)
    | 2 => setWord (setWord s.nonce 0 (wordAt nonce 0)) 1 (wordAt nonce 1)
    | _ => nonceOf nonce
  have h0 : Reaches prog ([.store (.window (.num 0x004)) (.num 0x00000030)] ++ (forLoop 4 (.num 3) 0 1
      [.store (wordAddr 0x0A0 (.var 4)) (.word (.var 0) (.var 4))] ++
      (run .ctrInit 3 ++ (run .ctrInc 3 ++ (run .ghashInit 3 ++ rest)))))
      (gcmLocals nonce p a st j n c w b more) s
      (forLoop 4 (.num 3) 0 1 [.store (wordAddr 0x0A0 (.var 4)) (.word (.var 0) (.var 4))] ++
        (run .ctrInit 3 ++ (run .ctrInc 3 ++ (run .ghashInit 3 ++ rest))))
      (gcmLocals nonce p a st j n c w b more) s0 := by
    have := reaches_store (prog := prog) (vs := gcmLocals nonce p a st j n c w b more) (off := .num 0x004) (e := .num 0x00000030)
      (rest := forLoop 4 (.num 3) 0 1
      [.store (wordAddr 0x0A0 (.var 4)) (.word (.var 0) (.var 4))] ++
      (run .ctrInit 3 ++ (run .ctrInc 3 ++ (run .ghashInit 3 ++ rest)))) s 0x004 0x00000030 rfl rfl
      (by decide) (by decide) (by decide)
    have e0 : writeSlot (slotAt 0x004) 0x00000030 s = s0 := by
      show ackStatus 0x00000030 s = _
      rw [ackStatus_eq]; simp [s0]
    rw [e0] at this
    exact this
  obtain ⟨vs1, s1, h1, st1, hv1, hs1⟩ := reaches_for (prog := prog) (v := 4) (top := 0) (done := 1) (N := 3) (count := .num 3)
    (fun k vs t => ∃ st', vs = gcmLocals nonce p a st' (.num k) n c w b more ∧ t = { s0 with nonce := nth k })
    (vs := gcmLocals nonce p a st j n c w b more) (s := s0) hTop hDone ⟨st, rfl, rfl⟩
    (by rintro k _ _ ⟨st', rfl, rfl⟩; exact ⟨rfl, rfl⟩)
    (by
      rintro k _ _ ⟨st', rfl, rfl⟩ hk3
      refine ⟨gcmLocals nonce p a st' (.num k) n c w b more, { s0 with nonce := nth (k + 1) }, ?_, rfl,
        st', rfl, rfl⟩
      have v : BitVec.ofNat 32 ((HostExpr.word (.var 0) (.var 4)).eval (gcmLocals nonce p a st' (.num k) n c w b more)).toNum =
          wordAt nonce k := ofNat_toNat_word _
      have := reaches_store (prog := prog) (rest := loopTail 4 0 1 (run .ctrInit 3 ++ (run .ctrInc 3 ++ (run .ghashInit 3 ++ rest)))) (off := .arith .add (.num 0x0A0) (.arith .mul (.num 4) (.var 4)))
        { s0 with nonce := nth k } (0x0A0 + 4 * k) _ rfl v (by omega) (by omega) (by interval_cases k <;> decide)
      have e : writeSlot (slotAt (0x0A0 + 4 * k)) (wordAt nonce k) { s0 with nonce := nth k } =
          { s0 with nonce := nth (k + 1) } := by
        interval_cases k
        · rfl
        · rfl
        · show ({ s0 with nonce := setWord (setWord (setWord s.nonce 0 (wordAt nonce 0)) 1 (wordAt nonce 1)) 2 (wordAt nonce 2) } : State) = _
          rw [setWords_nonce]; rfl
      rw [e] at this
      exact this)
  subst hv1 hs1
  let s2 : State := { s0 with nonce := nonceOf nonce }
  let s3 : State := { s2 with j0 := genCounter (nonceOf nonce), cb := genCounter (nonceOf nonce), tagValid := false, tagOk := false }
  let s4 : State := { s3 with cb := inc32 (genCounter (nonceOf nonce)) }
  have c0 : exec .ctrInit s2 = .next s3 := rfl
  have c1 : exec .ctrInc s3 = .next s4 := rfl
  have c2 : exec .ghashInit s4 = .next (opened nonce s) := by
    have g : ∀ u : State, u.keyValid = true → exec .ghashInit u = .next { u with
        h := cipherE u 0, x := 0, alen := 0, clen := 0, tagValid := false, tagOk := false } := by
      intro u hu; show execGhashInit u = _; rw [execGhashInit, needKey_valid hu]; rfl
    exact g _ hk
  have hr := h0.trans (h1.trans ((reaches_runInstr .ctrInit 3 (by decide) c0).trans
    ((reaches_runInstr .ctrInc 3 (by decide) c1).trans (reaches_runInstr (rest := rest) .ghashInit 3 (by decide) c2))))
  have e : openingProg ++ rest = [.store (.window (.num 0x004)) (.num 0x00000030)] ++ (forLoop 4 (.num 3) 0 1
      [.store (wordAddr 0x0A0 (.var 4)) (.word (.var 0) (.var 4))] ++
      (run .ctrInit 3 ++ (run .ctrInc 3 ++ (run .ghashInit 3 ++ rest)))) := by simp [openingProg]
  rw [e]
  exact ⟨_, _, hr⟩

/-- RUN of a command whose NB is the variable n, which holds the length of a chunk. -/
theorem reaches_runCounted {s u : State} (i : Instr) (m : Nat) (hd : decode (encode (withOperand i m)) = .ok (withOperand i m))
    (hx : exec (withOperand i m) s = .next u) :
    Reaches prog (runWord (.command i (.var 5)) 3 ++ rest) (gcmLocals nonce p a st j (.num m) c w b more) s rest
      (gcmLocals nonce p a (.num (idleStatus u).toNat) j (.num m) c w b more) u :=
  reaches_run 3 (ofNat_toNat_word _) hd hx

/-- GHASH_AAD of a chunk loaded in DIN (R102). -/
theorem exec_aadChunk (s : State) (b : List Byte) (l1 : 1 ≤ b.length) (l2 : b.length ≤ 16) :
    exec (.ghashAad b.length .din) { s with din := blockAt b } = .next { s with
      din := blockAt b, x := ghashStep s.h s.x (blockAt b), alen := s.alen + bitsOf b.length
      tagValid := false, tagOk := false } := by
  show execGhashAad b.length .din _ = _
  rw [execGhashAad_legal .din _ (nbIllegal_eq_false.2 ⟨l1, l2⟩)]
  simp only [hashedX, sourceBlock, pad_blockAt, invalidateTag]

/-- GHASH_CT of a chunk loaded in DIN (R103). -/
theorem exec_ctChunk (s : State) (b : List Byte) (l1 : 1 ≤ b.length) (l2 : b.length ≤ 16) :
    exec (.ghashCt b.length .din) { s with din := blockAt b } = .next { s with
      din := blockAt b, x := ghashStep s.h s.x (blockAt b), clen := s.clen + bitsOf b.length
      tagValid := false, tagOk := false } := by
  show execGhashCt b.length .din _ = _
  rw [execGhashCt_legal .din _ (nbIllegal_eq_false.2 ⟨l1, l2⟩)]
  simp only [hashedX, sourceBlock, pad_blockAt, invalidateTag]

/-- The state in which GCTR leaves a chunk loaded in DIN (R112). -/
def masked (s : State) (b : List Byte) : State :=
  { s with din := blockAt b, dout := gctrOut b.length (blockAt b) (cipherE s s.cb), cb := inc32 s.cb }

/-- GCTR of a chunk loaded in DIN (R112). -/
theorem exec_gctrChunk (s : State) (b : List Byte) (dir : Dir) (hk : s.keyValid = true) (l1 : 1 ≤ b.length)
    (l2 : b.length ≤ 16) (hd : openingUnverified dir s = false) :
    exec (.gctr b.length dir) { s with din := blockAt b } = .next (masked s b) := by
  show execGctr b.length dir _ = _
  rw [execGctr, needKey_valid (s := { s with din := blockAt b }) hk, nbIllegal_eq_false.2 ⟨l1, l2⟩]
  show failIf false _ _ (failIf (openingUnverified dir s) _ _ _) = _
  rw [hd]
  rfl

/-- The bytes GCTR gives for a chunk (R106). -/
theorem masked_bytes (s : State) (b : List Byte) (l2 : b.length ≤ 16) :
    (bytesOf (masked s b).dout).take b.length = List.zipWith (· ^^^ ·) b (bytesOf (cipherE s s.cb)) :=
  bytesOf_gctrOut b _ l2

/-- GHASH_CT, from DOUT, of what GCTR left there (R103). -/
theorem exec_ctMasked (s : State) (b : List Byte) (l1 : 1 ≤ b.length) (l2 : b.length ≤ 16) :
    exec (.ghashCt b.length .dout) (masked s b) = .next { masked s b with
      x := ghashStep s.h s.x (blockAt (List.zipWith (· ^^^ ·) b (bytesOf (cipherE s s.cb))))
      clen := s.clen + bitsOf b.length, tagValid := false, tagOk := false } := by
  show execGhashCt b.length .dout _ = _
  rw [execGhashCt_legal .dout _ (nbIllegal_eq_false.2 ⟨l1, l2⟩)]
  simp only [hashedX, sourceBlock, invalidateTag, masked, pad_gctrOut b _ l2]

/-- One chunk of associated data (R116, R117). -/
theorem reaches_aadBlock (s : State) (k : Nat) (hk : k < (a.length + 15) / 16) :
    ∃ st' n', Reaches prog ((loadBlock (.var 2) ++ runWord (.command (.ghashAad 0 .din) (.var 5)) 3) ++ rest)
      (gcmLocals nonce p a st (.num k) n c w b more) s rest (gcmLocals nonce p a st' (.num k) n' c w b more)
      { s with
        din := blockAt ((a.drop (16 * k)).take 16), x := ghashStep s.h s.x (blockAt ((a.drop (16 * k)).take 16))
        alen := s.alen + bitsOf ((a.drop (16 * k)).take 16).length, tagValid := false, tagOk := false } := by
  obtain ⟨-, l1, l2⟩ := chunk_length a k hk
  rw [List.append_assoc]
  exact ⟨_, _, (reaches_loadBlock s a k hk (fun _ => rfl)).trans
    (reaches_runCounted (.ghashAad 0 .din) _ (decode_aad _ l2) (exec_aadChunk s _ l1 l2))⟩

/-- The associated data of SEAL and OPEN (R116, R117). -/
theorem reaches_aad (s : State) (ht : s.tagValid = false) (ho : s.tagOk = false)
    (hTop : afterLabel 2 prog = .ifGoto (.not (.lt (.var 4) (blockCount (.var 2)))) 3 ::
      ((loadBlock (.var 2) ++ runWord (.command (.ghashAad 0 .din) (.var 5)) 3) ++
        loopTail 4 2 3 rest))
    (hDone : afterLabel 3 prog = rest) :
    ∃ st' j' n' d, Reaches prog (aadProg ++ rest) (gcmLocals nonce p a st j n c w b more) s rest
      (gcmLocals nonce p a st' j' n' c w b more)
      { s with
        din := d, x := hashFold s.h s.x (chunksOf a), alen := s.alen + bitsTotal (chunksOf a)
        tagValid := false, tagOk := false } := by
  obtain ⟨vs1, s1, h1, st1, n1, d1, hv1, hs1⟩ := reaches_for (prog := prog) (v := 4) (N := (a.length + 15) / 16)
    (count := blockCount (.var 2)) (vs := gcmLocals nonce p a st j n c w b more) (s := s)
    (fun k vs t => ∃ st' n' d, vs = gcmLocals nonce p a st' (.num k) n' c w b more ∧ t = { s with
      din := d, x := hashFold s.h s.x ((chunksOf a).take k), alen := s.alen + bitsTotal ((chunksOf a).take k)
      tagValid := false, tagOk := false }) hTop hDone
    ⟨st, n, s.din, rfl, by cases s; simp_all [hashFold, bitsTotal]⟩
    (by rintro k _ _ ⟨st', n', d, rfl, rfl⟩; exact ⟨rfl, rfl⟩)
    (by
      rintro k _ _ ⟨st', n', d, rfl, rfl⟩ hk
      obtain ⟨st2, n2, hb⟩ := reaches_aadBlock (prog := prog) (rest := loopTail 4 2 3 rest) (nonce := nonce) (p := p) (a := a)
        (st := st') (n := n') (c := c) (w := w) (b := b) (more := more) _ k hk
      refine ⟨_, _, hb, rfl, st2, n2, blockAt ((a.drop (16 * k)).take 16), rfl, ?_⟩
      rw [chunksOf_take_succ a k hk, hashFold_snoc, bitsTotal_snoc, ← BitVec.add_assoc])
  subst hv1 hs1
  rw [chunksOf_take_all] at h1
  exact ⟨_, _, _, _, h1⟩

/-- One chunk of OPEN's pass 1, the ciphertext being variable 9 (R117). -/
theorem reaches_authBlock {d t : List Byte} (s : State) (k : Nat) (hk : k < (d.length + 15) / 16) :
    ∃ st' n', Reaches prog (authBlockProg ++ rest) (gcmLocals nonce p a st (.num k) n c w b [.bytes d, .bytes t]) s rest
      (gcmLocals nonce p a st' (.num k) n' c w b [.bytes d, .bytes t])
      { s with
        din := blockAt ((d.drop (16 * k)).take 16), x := ghashStep s.h s.x (blockAt ((d.drop (16 * k)).take 16))
        clen := s.clen + bitsOf ((d.drop (16 * k)).take 16).length, tagValid := false, tagOk := false } := by
  obtain ⟨-, l1, l2⟩ := chunk_length d k hk
  rw [authBlockProg, List.append_assoc]
  exact ⟨_, _, (reaches_loadBlock s d k hk (fun _ => rfl)).trans
    (reaches_runCounted (.ghashCt 0 .din) _ (decode_ct _ _ l2) (exec_ctChunk s _ l1 l2))⟩

/-- Pass 1 of OPEN (R117). -/
theorem reaches_auth {d t : List Byte} (s : State) (ht : s.tagValid = false) (ho : s.tagOk = false)
    (hTop : afterLabel 4 prog = .ifGoto (.not (.lt (.var 4) (blockCount (.var 9)))) 5 ::
      (authBlockProg ++ loopTail 4 4 5 rest))
    (hDone : afterLabel 5 prog = rest) :
    ∃ st' j' n' q, Reaches prog (forLoop 4 (blockCount (.var 9)) 4 5 authBlockProg ++ rest)
      (gcmLocals nonce p a st j n c w b [.bytes d, .bytes t]) s rest
      (gcmLocals nonce p a st' j' n' c w b [.bytes d, .bytes t])
      { s with
        din := q, x := hashFold s.h s.x (chunksOf d), clen := s.clen + bitsTotal (chunksOf d)
        tagValid := false, tagOk := false } := by
  obtain ⟨vs1, s1, h1, st1, n1, d1, hv1, hs1⟩ := reaches_for (prog := prog) (v := 4) (N := (d.length + 15) / 16)
    (count := blockCount (.var 9)) (vs := gcmLocals nonce p a st j n c w b [.bytes d, .bytes t]) (s := s)
    (fun k vs u => ∃ st' n' q, vs = gcmLocals nonce p a st' (.num k) n' c w b [.bytes d, .bytes t] ∧ u = { s with
      din := q, x := hashFold s.h s.x ((chunksOf d).take k), clen := s.clen + bitsTotal ((chunksOf d).take k)
      tagValid := false, tagOk := false }) hTop hDone
    ⟨st, n, s.din, rfl, by cases s; simp_all [hashFold, bitsTotal]⟩
    (by rintro k _ _ ⟨st', n', q, rfl, rfl⟩; exact ⟨rfl, rfl⟩)
    (by
      rintro k _ _ ⟨st', n', q, rfl, rfl⟩ hk
      obtain ⟨st2, n2, hb⟩ := reaches_authBlock (prog := prog) (rest := loopTail 4 4 5 rest) (nonce := nonce) (p := p) (a := a)
        (st := st') (n := n') (c := c) (w := w) (b := b) (d := d) (t := t) _ k hk
      refine ⟨_, _, hb, rfl, st2, n2, blockAt ((d.drop (16 * k)).take 16), rfl, ?_⟩
      rw [chunksOf_take_succ d k hk, hashFold_snoc, bitsTotal_snoc, ← BitVec.add_assoc])
  subst hv1 hs1
  rw [chunksOf_take_all] at h1
  exact ⟨_, _, _, _, h1⟩

/-- The first bytes of the block read, appended to the output (R116, R117). -/
theorem reaches_append {m : Nat} (s : State) (o blk : List Byte) :
    Reaches prog ([.assign 6 (.cat (.var 6) (.slice (.var 8) (.num 0) (.var 5)))] ++ rest)
      (gcmLocals nonce p a st j (.num m) (.bytes o) w (.bytes blk) more) s rest
      (gcmLocals nonce p a st j (.num m) (.bytes (o ++ blk.take m)) w (.bytes blk) more) s :=
  reaches_assign s 6 _

/-- GCTR of a chunk, and its bytes read and appended: what SEAL and OPEN's pass 2 have in common (R116, R117). -/
theorem reaches_gctrBlock (s : State) (dir : Dir) {e : HostExpr} (d o : List Byte) (k : Nat) (hk : k < (d.length + 15) / 16)
    (he : ∀ n, e.eval (gcmLocals nonce p a st (.num k) n (.bytes o) w b more) = .bytes d) (hv : s.keyValid = true)
    (hd : openingUnverified dir s = false) :
    ∃ st' n' w' b', n' = .num ((d.drop (16 * k)).take 16).length ∧
    Reaches prog (loadBlock e ++ (runWord (.command (.gctr 0 dir) (.var 5)) 3 ++ (rdblk 8 7 0x040 ++
        ([.assign 6 (.cat (.var 6) (.slice (.var 8) (.num 0) (.var 5)))] ++ rest))))
      (gcmLocals nonce p a st (.num k) n (.bytes o) w b more) s rest
      (gcmLocals nonce p a st' (.num k) n' (.bytes (o ++ List.zipWith (· ^^^ ·) ((d.drop (16 * k)).take 16)
        (bytesOf (cipherE s s.cb)))) w' b' more)
      (masked s ((d.drop (16 * k)).take 16)) := by
  obtain ⟨-, l1, l2⟩ := chunk_length d k hk
  obtain ⟨w', rd⟩ := reaches_dout (prog := prog)
    (rest := [.assign 6 (.cat (.var 6) (.slice (.var 8) (.num 0) (.var 5)))] ++ rest) (nonce := nonce) (p := p) (a := a)
    (st := .num (idleStatus (masked s ((d.drop (16 * k)).take 16))).toNat) (j := .num k)
    (n := .num ((d.drop (16 * k)).take 16).length) (c := .bytes o) (w := w) (b := b) (more := more)
    (masked s ((d.drop (16 * k)).take 16))
  have h := (reaches_loadBlock (n := n) s d k hk he).trans
    ((reaches_runCounted (.gctr 0 dir) _ (decode_gctr _ dir l2) (exec_gctrChunk s _ dir hv l1 l2 hd)).trans
      (rd.trans (reaches_append (rest := rest) _ o _)))
  rw [masked_bytes s _ l2] at h
  exact ⟨_, _, _, _, rfl, h⟩

/-- One chunk of plaintext in SEAL (R116). -/
theorem reaches_sealBlock (s : State) (o : List Byte) (k : Nat) (hk : k < (p.length + 15) / 16) (hv : s.keyValid = true) :
    ∃ st' n' w' b', Reaches prog (sealBlockProg ++ rest) (gcmLocals nonce p a st (.num k) n (.bytes o) w b more) s rest
      (gcmLocals nonce p a st' (.num k) n' (.bytes (o ++ List.zipWith (· ^^^ ·) ((p.drop (16 * k)).take 16)
        (bytesOf (cipherE s s.cb)))) w' b' more)
      { masked s ((p.drop (16 * k)).take 16) with
        x := ghashStep s.h s.x (blockAt (List.zipWith (· ^^^ ·) ((p.drop (16 * k)).take 16) (bytesOf (cipherE s s.cb))))
        clen := s.clen + bitsOf ((p.drop (16 * k)).take 16).length, tagValid := false, tagOk := false } := by
  obtain ⟨-, l1, l2⟩ := chunk_length p k hk
  obtain ⟨st', n', w', b', hn, h⟩ := reaches_gctrBlock (prog := prog) (rest := runWord (.command (.ghashCt 0 .dout) (.var 5)) 3 ++ rest)
    (nonce := nonce) (p := p) (a := a) (st := st) (n := n) (w := w) (b := b) (more := more) (e := .var 1) s .sealing p o k hk
    (fun _ => rfl) hv rfl
  subst hn
  have e : sealBlockProg ++ rest = loadBlock (.var 1) ++ (runWord (.command (.gctr 0 .sealing) (.var 5)) 3 ++
      (rdblk 8 7 0x040 ++ ([.assign 6 (.cat (.var 6) (.slice (.var 8) (.num 0) (.var 5)))] ++
        (runWord (.command (.ghashCt 0 .dout) (.var 5)) 3 ++ rest)))) := by
    simp only [sealBlockProg, List.append_assoc]
  rw [e]
  exact ⟨_, _, _, _, h.trans (reaches_runCounted (.ghashCt 0 .dout) _ (decode_ct _ _ l2) (exec_ctMasked s _ l1 l2))⟩

/-- The plaintext of SEAL (R116). -/
theorem reaches_seal (s : State) (hv : s.keyValid = true) (ht : s.tagValid = false) (ho : s.tagOk = false)
    (hTop : afterLabel 4 prog = .ifGoto (.not (.lt (.var 4) (blockCount (.var 1)))) 5 ::
      (sealBlockProg ++ loopTail 4 4 5 rest))
    (hDone : afterLabel 5 prog = rest) :
    ∃ st' j' n' w' b' d q, Reaches prog (forLoop 4 (blockCount (.var 1)) 4 5 sealBlockProg ++ rest)
      (gcmLocals nonce p a st j n (.bytes []) w b more) s rest
      (gcmLocals nonce p a st' j' n' (.bytes (maskedChunks (cipherE s) s.cb (chunksOf p)).flatten) w' b' more)
      { s with
        din := d, dout := q, cb := incBy s.cb (chunksOf p)
        x := hashFold s.h s.x (maskedChunks (cipherE s) s.cb (chunksOf p)), clen := s.clen + bitsTotal (chunksOf p)
        tagValid := false, tagOk := false } := by
  obtain ⟨vs1, s1, h1, st1, n1, w1, b1, d1, q1, hv1, hs1⟩ := reaches_for (prog := prog) (v := 4) (N := (p.length + 15) / 16)
    (count := blockCount (.var 1)) (vs := gcmLocals nonce p a st j n (.bytes []) w b more) (s := s)
    (fun k vs t => ∃ st' n' w' b' d q,
      vs = gcmLocals nonce p a st' (.num k) n' (.bytes (maskedChunks (cipherE s) s.cb ((chunksOf p).take k)).flatten) w' b' more ∧
      t = { s with
        din := d, dout := q, cb := incBy s.cb ((chunksOf p).take k)
        x := hashFold s.h s.x (maskedChunks (cipherE s) s.cb ((chunksOf p).take k))
        clen := s.clen + bitsTotal ((chunksOf p).take k), tagValid := false, tagOk := false }) hTop hDone
    ⟨st, n, w, b, s.din, s.dout, rfl, by cases s; simp_all [hashFold, bitsTotal, maskedChunks, incBy]⟩
    (by rintro k _ _ ⟨st', n', w', b', d, q, rfl, rfl⟩; exact ⟨rfl, rfl⟩)
    (by
      rintro k _ _ ⟨st', n', w', b', d, q, rfl, rfl⟩ hk
      obtain ⟨st2, n2, w2, b2, hb⟩ := reaches_sealBlock (prog := prog) (rest := loopTail 4 4 5 rest) (nonce := nonce) (p := p)
        (a := a) (st := st') (n := n') (w := w') (b := b') (more := more) { s with
          din := d, dout := q, cb := incBy s.cb ((chunksOf p).take k)
          x := hashFold s.h s.x (maskedChunks (cipherE s) s.cb ((chunksOf p).take k))
          clen := s.clen + bitsTotal ((chunksOf p).take k), tagValid := false, tagOk := false }
        (maskedChunks (cipherE s) s.cb ((chunksOf p).take k)).flatten k hk hv
      refine ⟨_, _, hb, rfl, st2, n2, w2, b2, blockAt ((p.drop (16 * k)).take 16),
        gctrOut ((p.drop (16 * k)).take 16).length (blockAt ((p.drop (16 * k)).take 16))
          (cipherE s (incBy s.cb ((chunksOf p).take k))), ?_, ?_⟩
      · rw [chunksOf_take_succ p k hk, maskedChunks_snoc, List.flatten_append, List.flatten_singleton]
        rfl
      · rw [chunksOf_take_succ p k hk, maskedChunks_snoc, incBy_snoc, hashFold_snoc, bitsTotal_snoc, ← BitVec.add_assoc]
        rfl)
  subst hv1 hs1
  rw [chunksOf_take_all] at h1
  exact ⟨_, _, _, _, _, _, _, h1⟩

/-- Pass 2 of OPEN, with a verified tag (R117). -/
theorem reaches_open {d t : List Byte} (s : State) (hv : s.keyValid = true) (ho : s.tagOk = true)
    (hTop : afterLabel 6 prog = .ifGoto (.not (.lt (.var 4) (blockCount (.var 9)))) 7 ::
      (openBlockProg ++ loopTail 4 6 7 rest))
    (hDone : afterLabel 7 prog = rest) :
    ∃ st' j' n' w' b' q z, Reaches prog (forLoop 4 (blockCount (.var 9)) 6 7 openBlockProg ++ rest)
      (gcmLocals nonce p a st j n (.bytes []) w b [.bytes d, .bytes t]) s rest
      (gcmLocals nonce p a st' j' n' (.bytes (maskedChunks (cipherE s) s.cb (chunksOf d)).flatten) w' b' [.bytes d, .bytes t])
      { s with din := q, dout := z, cb := incBy s.cb (chunksOf d) } := by
  obtain ⟨vs1, s1, h1, st1, n1, w1, b1, d1, q1, hv1, hs1⟩ := reaches_for (prog := prog) (v := 4) (N := (d.length + 15) / 16)
    (count := blockCount (.var 9)) (vs := gcmLocals nonce p a st j n (.bytes []) w b [.bytes d, .bytes t]) (s := s)
    (fun k vs u => ∃ st' n' w' b' q z,
      vs = gcmLocals nonce p a st' (.num k) n' (.bytes (maskedChunks (cipherE s) s.cb ((chunksOf d).take k)).flatten) w' b'
        [.bytes d, .bytes t] ∧
      u = { s with din := q, dout := z, cb := incBy s.cb ((chunksOf d).take k) }) hTop hDone
    ⟨st, n, w, b, s.din, s.dout, rfl, rfl⟩
    (by rintro k _ _ ⟨st', n', w', b', q, z, rfl, rfl⟩; exact ⟨rfl, rfl⟩)
    (by
      rintro k _ _ ⟨st', n', w', b', q, z, rfl, rfl⟩ hk
      obtain ⟨st2, n2, w2, b2, -, hb⟩ := reaches_gctrBlock (prog := prog) (rest := loopTail 4 6 7 rest) (nonce := nonce) (p := p)
        (a := a) (st := st') (n := n') (w := w') (b := b') (more := [.bytes d, .bytes t]) (e := .var 9)
        { s with din := q, dout := z, cb := incBy s.cb ((chunksOf d).take k) } .opening d
        (maskedChunks (cipherE s) s.cb ((chunksOf d).take k)).flatten k hk (fun _ => rfl) hv
        (by simp [openingUnverified, ho])
      have e : openBlockProg ++ loopTail 4 6 7 rest = loadBlock (.var 9) ++ (runWord (.command (.gctr 0 .opening) (.var 5)) 3 ++
          (rdblk 8 7 0x040 ++ ([.assign 6 (.cat (.var 6) (.slice (.var 8) (.num 0) (.var 5)))] ++ loopTail 4 6 7 rest))) := by
        simp only [openBlockProg, List.append_assoc]
      rw [← e] at hb
      refine ⟨_, _, hb, rfl, st2, n2, w2, b2, blockAt ((d.drop (16 * k)).take 16),
        gctrOut ((d.drop (16 * k)).take 16).length (blockAt ((d.drop (16 * k)).take 16))
          (cipherE s (incBy s.cb ((chunksOf d).take k))), ?_, ?_⟩
      · rw [chunksOf_take_succ d k hk, maskedChunks_snoc, List.flatten_append, List.flatten_singleton]
        rfl
      · rw [chunksOf_take_succ d k hk, incBy_snoc]
        rfl)
  subst hv1 hs1
  rw [chunksOf_take_all] at h1
  exact ⟨_, _, _, _, _, _, _, h1⟩

end

/-! ## The verdict of STATUS -/

theorem num_beq (m n : Nat) : (Val.num m == Val.num n) = decide (m = n) := by
  rw [beq_eq_decide]
  exact decide_eq_decide.2 (by simp)

/-- A test of one bit of STATUS. -/
theorem fieldIs_holds {vs : List Val} {x : Nat} {w : Word} (i v : Nat) (hx : getLocal vs x = .num w.toNat) :
    (fieldIs x i 1 v).holds vs = decide ((w.getLsbD i).toNat = v) := by
  show (Val.num ((getLocal vs x).toNum / 2 ^ i % 2 ^ 1) == Val.num v) = _
  rw [hx, toNum_num, field_one, num_beq]

/-- A test of a length. -/
theorem lengthIsNot_holds {vs : List Val} {x : Nat} {b : List Byte} (n : Nat) (hx : getLocal vs x = .bytes b) :
    (lengthIsNot (.var x) n).holds vs = decide (b.length ≠ n) := by
  show (!(Val.num (getLocal vs x).toBytes.length == Val.num n)) = _
  rw [hx, toBytes_bytes, num_beq, decide_not]

/-! ## Whole runs -/

/-- A run of the machine with one procedure under the eager schedule, as rounds. -/
theorem run_alone {h : HostRun} {s : State} (hb : s.busy = false) (hh : s.hosts = [h]) (n : Nat) :
    Host.Core.run Sys2Proof.core (2 * n) { s with agenda := eagerAgenda n } =
      eagerRun n s.pending s.cmdLast s.response h s := by
  have e : { s with agenda := eagerAgenda n } =
      dress s.pending s.cmdLast false s.response [h] (eagerAgenda n) s := by cases s; simp_all [dress]
  exact congrArg (Host.Core.run Sys2Proof.core (2 * n)) e

/-- The machine runs a procedure alone, from its first step: it has ended from some round on. -/
theorem Ends.run {h : HostRun} {s t : State} {e : HostEnd} (hb : s.busy = false) (hh : s.hosts = [h])
    (hr : h.ending = .running) (ends : Ends h.prog h.rest h.locals s e t) :
    ∃ rounds, ∀ n, rounds ≤ n → ∃ (p c : Word) (r : Option Response) (g : HostRun), g.ending = e ∧
      Host.Core.run Sys2Proof.core (2 * n) { s with agenda := eagerAgenda n } = .next (dress p c false r [g] [] t) := by
  obtain ⟨k, hk⟩ := ends
  obtain ⟨p, c, r, g, hg, f⟩ := hk s.pending s.cmdLast s.response
  refine ⟨k, fun n hn => ⟨p, c, r, g, hg, ?_⟩⟩
  have := f (n - k)
  rw [Nat.sub_add_cancel hn] at this
  obtain ⟨prog, rest, vs, e'⟩ := h
  cases hr
  exact (run_alone hb hh n).trans this

/-- A procedure that, from some round on, has failed with nothing else changed. -/
theorem endsAlone_failed {h g : HostRun} {s : State} {e : SoftError} (hb : s.busy = false) (hh : s.hosts = [h]) (k : Nat)
    (hg : g.ending = .failed e)
    (run : ∀ n, eagerRun (n + k) s.pending s.cmdLast s.response h s =
      .next (dress s.pending s.cmdLast false s.response [g] [] s)) :
    EndsAlone s (FailedUntouched e s) := by
  refine ⟨k, fun n hn => ⟨dress s.pending s.cmdLast false s.response [g] [] s, g, (run_alone hb hh n).trans ?_, rfl, rfl,
    rfl, hg, ?_⟩⟩
  · have := run (n - k)
    rw [Nat.sub_add_cancel hn] at this
    exact this
  · cases s; cases hb; rfl

/-- The listing SEAL as one list of parts (R116). -/
theorem sealProg_parts : sealProg = nonceCheck :: (openingProg ++ (aadProg ++ (.assign 6 (.bytes []) ::
    (forLoop 4 (blockCount (.var 1)) 4 5 sealBlockProg ++ (run .ghashLen 3 ++ (run .gcmTag 3 ++
      (.load 3 (.window (.num 0x004)) :: .failIf (fieldIs 3 5 1 1) .preconditionViolation ::
        (rdblk 8 7 0x0B0 ++ [.ret [.cat (.var 6) (.var 8)]])))))))) := by decide +kernel

/-- The listing OPEN as one list of parts (R117). -/
theorem openProg_parts : openProg = nonceCheck :: .failIf (.lt (.len (.var 1)) (.num Config.overhead)) .authError ::
    .assign 9 (.slice (.var 1) (.num 0) bodyLength) :: .assign 10 (.slice (.var 1) bodyLength (.num Config.overhead)) ::
    (openingProg ++ (aadProg ++ (forLoop 4 (blockCount (.var 9)) 4 5 authBlockProg ++
      (run .ghashLen 3 ++ (run .gcmTag 3 ++ (wrblk 0x0C0 (.var 10) ++ (run .gcmVerify 3 ++
        (.load 3 (.window (.num 0x004)) :: .failIf (fieldIs 3 5 1 1) .preconditionViolation ::
          .failIf (fieldIs 3 3 1 0) .authError :: .assign 6 (.bytes []) ::
          (forLoop 4 (blockCount (.var 9)) 6 7 openBlockProg ++ [.ret [.var 6]]))))))))) := by decide +kernel

end Sys2Proof.Machine
end

