-- ==== Sys2Proof/Laws/PerInstr.lean ====
section
/-! SUPPORT. Facts about every command as syntax, one lemma per constructor: the OP field of a command's word is the
command's opcode (30_encoding.md R48, R50). -/

namespace Sys2Proof.Laws

/-- `OP = w[5:0]` is the low field of every format. -/
theorem op_of_append (m : Nat) (hi : BitVec m) (op : BitVec 6) : (hi ++ op).extractLsb' 0 6 = op := by
  apply BitVec.eq_of_getLsbD_eq
  intro j hj
  simp only [BitVec.getLsbD_extractLsb', hj, decide_true, Bool.true_and, BitVec.getLsbD_append, Nat.zero_add, if_true]

/-- The OP field of the encoded command is its opcode. -/
def OpField.Statement (i : Instr) : Prop := opOf (encode i) = i.opcode

theorem OpField.nop : OpField.Statement .nop := op_of_append _ _ _
theorem OpField.keyExpand (kl : KeyCode) : OpField.Statement (.keyExpand kl) := op_of_append _ _ _
theorem OpField.encrypt : OpField.Statement .encrypt := op_of_append _ _ _
theorem OpField.decrypt : OpField.Statement .decrypt := op_of_append _ _ _
theorem OpField.subBytes : OpField.Statement .subBytes := op_of_append _ _ _
theorem OpField.invSubBytes : OpField.Statement .invSubBytes := op_of_append _ _ _
theorem OpField.shiftRows : OpField.Statement .shiftRows := op_of_append _ _ _
theorem OpField.invShiftRows : OpField.Statement .invShiftRows := op_of_append _ _ _
theorem OpField.mixColumns : OpField.Statement .mixColumns := op_of_append _ _ _
theorem OpField.invMixColumns : OpField.Statement .invMixColumns := op_of_append _ _ _
theorem OpField.addRoundKey (rnd : Nat) : OpField.Statement (.addRoundKey rnd) := op_of_append _ _ _
theorem OpField.gf8Mul (a b : Byte) : OpField.Statement (.gf8Mul a b) := op_of_append _ _ _
theorem OpField.gf128Mul : OpField.Statement .gf128Mul := op_of_append _ _ _
theorem OpField.ghashInit : OpField.Statement .ghashInit := op_of_append _ _ _
theorem OpField.ghashAad (nb : Nat) (src : Src) : OpField.Statement (.ghashAad nb src) := op_of_append _ _ _
theorem OpField.ghashCt (nb : Nat) (src : Src) : OpField.Statement (.ghashCt nb src) := op_of_append _ _ _
theorem OpField.ghashLen : OpField.Statement .ghashLen := op_of_append _ _ _
theorem OpField.ctrInit : OpField.Statement .ctrInit := op_of_append _ _ _
theorem OpField.ctrInc : OpField.Statement .ctrInc := op_of_append _ _ _
theorem OpField.gctr (nb : Nat) (dir : Dir) : OpField.Statement (.gctr nb dir) := op_of_append _ _ _
theorem OpField.gcmTag : OpField.Statement .gcmTag := op_of_append _ _ _
theorem OpField.gcmVerify : OpField.Statement .gcmVerify := op_of_append _ _ _

end Sys2Proof.Laws
end

