-- ==== Sys2Proof/Tests/Slice0.lean ====
section
/-! SUPPORT. The model's own tests, each a named theorem about one decoding or one step, with expected values from the
examples of the rules and from 95_test_vectors.md, and one witness for every statement that has hypotheses. -/

namespace Sys2Proof.Tests

open Sys2Proof.Machine

/-! ## Well-formedness: each check refuses an ill-formed term (30_encoding.md R49) -/

theorem test_wf_refuses_rnd_16 : Instr.wf (.addRoundKey 16) = false := by decide
theorem test_wf_refuses_aad_nb_32 : Instr.wf (.ghashAad 32 .din) = false := by decide
theorem test_wf_refuses_ct_nb_32 : Instr.wf (.ghashCt 32 .dout) = false := by decide
theorem test_wf_refuses_gctr_nb_32 : Instr.wf (.gctr 32 .opening) = false := by decide

/-! ## Decoding, one word or more for every constructor (95_test_vectors.md section 2; bits as in 30_encoding.md R48) -/

theorem test_decode_nop : decode 0b00000000000000000000000000000000#32 = .ok .nop := by decide
theorem test_decode_key_expand :
    decode 0b00000000000000000000000000000001#32 = .ok (.keyExpand .k128) ∧
    decode 0b00000000000000000000000001000001#32 = .ok (.keyExpand .k192) ∧
    decode 0b00000000000000000000000010000001#32 = .ok (.keyExpand .k256) ∧
    decode 0b00000000000000000000000011000001#32 = .ok (.keyExpand .invalid) := by decide
theorem test_decode_encrypt : decode 0b00000000000000000000000000000010#32 = .ok .encrypt := by decide
theorem test_decode_decrypt : decode 0b00000000000000000000000000000011#32 = .ok .decrypt := by decide
theorem test_decode_sub_bytes : decode 0b00000000000000000000000000001000#32 = .ok .subBytes := by decide
theorem test_decode_inv_sub_bytes : decode 0b00000000000000000000000000001001#32 = .ok .invSubBytes := by decide
theorem test_decode_shift_rows : decode 0b00000000000000000000000000001010#32 = .ok .shiftRows := by decide
theorem test_decode_inv_shift_rows : decode 0b00000000000000000000000000001011#32 = .ok .invShiftRows := by decide
theorem test_decode_mix_columns : decode 0b00000000000000000000000000001100#32 = .ok .mixColumns := by decide
theorem test_decode_inv_mix_columns : decode 0b00000000000000000000000000001101#32 = .ok .invMixColumns := by decide
theorem test_decode_add_round_key :
    decode 0b00000000000000000000000000001110#32 = .ok (.addRoundKey 0) ∧
    decode 0b00000000000000000000111000001110#32 = .ok (.addRoundKey 14) := by decide
theorem test_decode_gf8_mul : decode 0b00000000100000110101011100010000#32 = .ok (.gf8Mul 0x57 0x83) := by decide
theorem test_decode_gf128_mul : decode 0b00000000000000000000000000010001#32 = .ok .gf128Mul := by decide
theorem test_decode_ghash_init : decode 0b00000000000000000000000000011000#32 = .ok .ghashInit := by decide
theorem test_decode_ghash_aad : decode 0b00000000000000000000010000011001#32 = .ok (.ghashAad 4 .din) := by decide
theorem test_decode_ghash_ct : decode 0b00000000000000010000110000011010#32 = .ok (.ghashCt 12 .dout) := by decide
theorem test_decode_ghash_len : decode 0b00000000000000000000000000011011#32 = .ok .ghashLen := by decide
theorem test_decode_ctr_init : decode 0b00000000000000000000000000100000#32 = .ok .ctrInit := by decide
theorem test_decode_ctr_inc : decode 0b00000000000000000000000000100001#32 = .ok .ctrInc := by decide
theorem test_decode_gctr :
    decode 0b00000000000000000000110000100010#32 = .ok (.gctr 12 .sealing) ∧
    decode 0b00000000000000010000010100100010#32 = .ok (.gctr 5 .opening) := by decide
theorem test_decode_gcm_tag : decode 0b00000000000000000000000000100011#32 = .ok .gcmTag := by decide
theorem test_decode_gcm_verify : decode 0b00000000000000000000000000100100#32 = .ok .gcmVerify := by decide

/-- The ends of every range of unassigned OPs (R51). -/
theorem test_decode_unassigned :
    [0x04, 0x07, 0x0F, 0x12, 0x17, 0x1C, 0x1F, 0x25, 0x3F].map (fun w => decode (BitVec.ofNat 32 w)) =
      List.replicate 9 (.error .unassignedOpcode) := by decide

/-- One reserved bit set in each format (R51, R63, R73). -/
theorem test_decode_reserved :
    [0x00000040, 0x00000101, 0x0000100E, 0x01835710, 0x00835750, 0x00002019, 0x00020022].map
      (fun w => decode (BitVec.ofNat 32 w)) = List.replicate 7 (.error .reservedBitSet) := by decide

/-- The encodings R54 gives as examples, and their written forms. -/
theorem test_encode_examples :
    encode (.gf8Mul 0x57 0x83) = 0x00835710 ∧ encode (.ghashCt 16 .dout) = 0x0001101A ∧
    encode (.gctr 5 .opening) = 0x00010522 ∧ encode (.keyExpand .k256) = 0x00000081 := by decide
theorem test_written :
    Instr.written (.gctr 5 .opening) = "GCTR nb=5, dir=open" ∧
    Instr.written (.keyExpand .invalid) = "KEY_EXPAND kl=#3" := by decide

/-! ## One step of each command -/

/-- The command answers a state in which `p` holds. -/
def after (i : Instr) (s : State) (p : State → Bool) : Bool :=
  match exec i s with
  | .next t => p t
  | .fault _ => false
  | .refused _ => false

/-- A state whose STATE register holds `b`. -/
def withState (b : Block) : State := { State.reset with state := b }

/-- A state with the 128-bit key `k` expanded. -/
def withKey (k : Block) : State :=
  { State.reset with ks := keySchedule (k ++ 0#128) 4, nr := 10, keyValid := true }

/-- The key of FIPS-197 appendix A.1 as 95_test_vectors.md gives it. -/
def k128 : Block := 0x2b7e151628aed2a6abf7158809cf4f3c

/-- R63. -/
theorem test_nop : after .nop State.reset (fun t => statusWord t == 0 && t.cmdLast == 0) = true := by decide

/-- R84: KEY_EXPAND of K128. -/
theorem test_key_expand :
    after (.keyExpand .k128) { State.reset with key := k128 ++ 0xFF#128 } (fun t =>
      ksWord t.ks 4 == 0xa0fafe17 && ksWord t.ks 43 == 0xb6630ca6 && ksWord t.ks 44 == 0 &&
      statusWord t == 0x000A0002) = true := by decide +kernel

/-- R84: KL = 3 wipes the schedule. -/
theorem test_key_expand_invalid :
    after (.keyExpand .invalid) { State.reset with nr := 10, keyValid := true, tagValid := true, tagOk := true }
      (fun t => statusWord t == 0x00000220) = true := by decide

/-- R88. -/
theorem test_encrypt :
    after .encrypt { withKey k128 with din := 0x3243f6a8885a308d313198a2e0370734 } (fun t =>
      t.dout == 0x3925841d02dc09fbdc118597196a0b32 && t.state == t.dout) = true := by decide +kernel

/-- R88: NO_KEY. -/
theorem test_encrypt_no_key : after .encrypt State.reset (fun t => statusWord t == 0x00000320) = true := by decide

/-- R89. -/
theorem test_decrypt :
    after .decrypt { withKey k128 with din := 0x3925841d02dc09fbdc118597196a0b32 } (fun t =>
      t.dout == 0x3243f6a8885a308d313198a2e0370734 && t.state == t.dout) = true := by decide +kernel

/-- R74. -/
theorem test_sub_bytes :
    after .subBytes (withState 0x193de3bea0f4e22b9ac68d2ae9f84808) (fun t =>
      t.state == 0xd42711aee0bf98f1b8b45de51e415230) = true := by decide +kernel

/-- R75. -/
theorem test_inv_sub_bytes :
    after .invSubBytes (withState 0xd42711aee0bf98f1b8b45de51e415230) (fun t =>
      t.state == 0x193de3bea0f4e22b9ac68d2ae9f84808) = true := by decide +kernel

/-- R76. -/
theorem test_shift_rows :
    after .shiftRows (withState 0x000102030405060708090a0b0c0d0e0f) (fun t =>
      t.state == 0x00050a0f04090e03080d02070c01060b) = true := by decide +kernel

/-- R77. -/
theorem test_inv_shift_rows :
    after .invShiftRows (withState 0x000102030405060708090a0b0c0d0e0f) (fun t =>
      t.state == 0x000d0a0704010e0b0805020f0c090603) = true := by decide +kernel

/-- R78. -/
theorem test_mix_columns :
    after .mixColumns (withState 0xd4bf5d30e0b452aeb84111f11e2798e5) (fun t =>
      t.state == 0x046681e5e0cb199a48f8d37a2806264c) = true := by decide +kernel

/-- R79. -/
theorem test_inv_mix_columns :
    after .invMixColumns (withState 0x046681e5e0cb199a48f8d37a2806264c) (fun t =>
      t.state == 0xd4bf5d30e0b452aeb84111f11e2798e5) = true := by decide +kernel

/-- R80. -/
theorem test_add_round_key :
    after (.addRoundKey 1) { withKey k128 with state := 0x046681e5e0cb199a48f8d37a2806264c } (fun t =>
      t.state == 0xa49c7ff2689f352b6b5bea43026a5049) = true := by decide +kernel

/-- R80: RND = NR is legal, RND = NR + 1 is BAD_ARG. -/
theorem test_add_round_key_limit :
    after (.addRoundKey 10) { State.reset with keyValid := true, nr := 10 } (fun t => t.err == false) = true ∧
    after (.addRoundKey 11) { State.reset with keyValid := true, nr := 10 } (fun t => t.errcode == .badArg) = true := by
  decide

/-- R73 and R67. -/
theorem test_gf8_mul :
    after (.gf8Mul 0x57 0x83) State.reset (fun t => t.result == 0xC1) = true ∧
    after (.gf8Mul 0x57 0x13) State.reset (fun t => t.result == 0xFE) = true := by decide

/-- R100. -/
theorem test_gf128_mul :
    after .gf128Mul { State.reset with
      din := 0xc0000000000000000000000000000000, h := 0x80000000000000000000000000000001 } (fun t =>
        t.dout == 0x21000000000000000000000000000001) = true := by decide +kernel

/-- R101: the all-zero key. -/
theorem test_ghash_init :
    after .ghashInit { withKey 0 with x := 5, alen := 8, clen := 8, tagValid := true } (fun t =>
      t.h == 0x66e94bd4ef8a2c3b884cfa59ca342b2e && t.x == 0 && t.alen == 0 && t.clen == 0 && t.tagValid == false) =
      true := by decide +kernel

/-- R102. -/
theorem test_ghash_aad :
    after (.ghashAad 16 .din) { State.reset with
      h := 0x66e94bd4ef8a2c3b884cfa59ca342b2e, din := 0x0388dace60b6a392f328c2b971b2fe78 } (fun t =>
        t.x == 0x5e2ec746917062882c85b0685353deb7 && t.alen == 128 && t.clen == 0) = true := by decide +kernel

/-- R103. -/
theorem test_ghash_ct :
    after (.ghashCt 16 .dout) { State.reset with
      h := 0x66e94bd4ef8a2c3b884cfa59ca342b2e, dout := 0x0388dace60b6a392f328c2b971b2fe78 } (fun t =>
        t.x == 0x5e2ec746917062882c85b0685353deb7 && t.clen == 128 && t.alen == 0) = true := by decide +kernel

/-- R102, R103: NB = 0 and NB = 17 are BAD_ARG. -/
theorem test_ghash_bad_arg :
    after (.ghashAad 0 .din) State.reset (fun t => t.errcode == .badArg) = true ∧
    after (.ghashCt 17 .din) State.reset (fun t => t.errcode == .badArg) = true := by decide

/-- R104. -/
theorem test_ghash_len :
    after .ghashLen { State.reset with
      h := 0x66e94bd4ef8a2c3b884cfa59ca342b2e, x := 0x5e2ec746917062882c85b0685353deb7, clen := 128 } (fun t =>
        t.x == 0xf38cbb1ad69223dcc3457ae5b6b0f885) = true := by decide +kernel

/-- R110. -/
theorem test_ctr_init :
    after .ctrInit { State.reset with nonce := 0xcafebabefacedbaddecaf888 } (fun t =>
      t.j0 == 0xcafebabefacedbaddecaf88800000001 && t.cb == t.j0) = true := by decide

/-- R111: one increment, and the wrap without a carry. -/
theorem test_ctr_inc :
    after .ctrInc { State.reset with cb := 0xcafebabefacedbaddecaf88800000001 } (fun t =>
      t.cb == 0xcafebabefacedbaddecaf88800000002) = true ∧
    after .ctrInc { State.reset with cb := 0xcafebabefacedbaddecaf888ffffffff } (fun t =>
      t.cb == 0xcafebabefacedbaddecaf88800000000) = true := by decide

/-- R112. -/
theorem test_gctr :
    after (.gctr 16 .sealing) { withKey 0xfeffe9928665731c6d6a8f9467308308 with
      cb := 0xcafebabefacedbaddecaf88800000002, din := 0xd9313225f88406e5a55909c5aff5269a } (fun t =>
        t.dout == 0x42831ec2217774244b7221b784d0d49c && t.cb == 0xcafebabefacedbaddecaf88800000003) = true := by
  decide +kernel

/-- R122: the order of the checks of GCTR. -/
theorem test_gctr_order :
    after (.gctr 0 .opening) State.reset (fun t => t.errcode == .noKey) = true ∧
    after (.gctr 0 .opening) { State.reset with keyValid := true } (fun t => t.errcode == .badArg) = true ∧
    after (.gctr 16 .opening) { State.reset with keyValid := true } (fun t => t.errcode == .authRequired) = true := by
  decide

/-- R113. -/
theorem test_gcm_tag :
    after .gcmTag { withKey 0 with j0 := 1, x := 0xf38cbb1ad69223dcc3457ae5b6b0f885, tagOk := true } (fun t =>
      t.tag == 0xab6e47d42cec13bdf53a67b21257bddf && t.tagValid && !t.tagOk) = true := by decide +kernel

/-- R114. -/
theorem test_gcm_verify :
    after .gcmVerify { State.reset with
      tag := 0xab6e47d42cec13bdf53a67b21257bddf, rtag := 0xab6e47d42cec13bdf53a67b21257bddf, tagValid := true }
      (fun t => t.tagOk && !t.authFail) = true ∧
    after .gcmVerify { State.reset with
      tag := 0xab6e47d42cec13bdf53a67b21257bddf, rtag := 0xab6e47d42cec13bdf53a67b21257bdde, tagValid := true }
      (fun t => !t.tagOk && t.authFail && !t.err) = true := by decide

/-- R114: the reset values cannot pass. -/
theorem test_gcm_verify_no_tag : after .gcmVerify State.reset (fun t => t.errcode == .noTag) = true := by decide

/-! ## The window and the step -/

/-- R36: the second word of STATE is column 1; a key word reads 0. -/
theorem test_window_words :
    readWord 0x054 (withState 0x000102030405060708090a0b0c0d0e0f) = 0x04050607 ∧
    readWord 0x010 { State.reset with key := BitVec.allOnes 256 } = 0 := by decide

/-- R28: a write of 1 to bit 5 clears ERR and ERRCODE and leaves AUTH_FAIL. -/
theorem test_status_w1c :
    statusWord (writeWord 0x004 0x20 { State.reset with err := true, errcode := .cmdBusy, authFail := true }) =
      0x00000010 := by decide

/-- R57, R58: the word of GF8_MUL written to CMD, then the core's turn. -/
theorem test_issue_and_perform :
    (match step (writeWord 0x000 0x00835710 State.reset) with
      | .next t => t.result == 0xC1 && t.cmdLast == 0x00835710 && !t.busy
      | .fault _ => false
      | .refused _ => false) = true := by decide

/-- R51, R58: an illegal word fails with ILLEGAL_OP and stays in CMD_LAST. -/
theorem test_perform_illegal :
    (match step (State.reset.withFetchWord 32 0x00000004) with
      | .next t => statusWord t == 0x00000120 && t.cmdLast == 0x00000004
      | .fault _ => false
      | .refused _ => false) = true := by decide

/-! ## Witnesses: states and operands that meet the hypotheses of each statement

Each is named after its statement; a clause with a range has a witness at its ends. -/

/-! ## Steps of host procedures (40_command_engine.md R64, 30_encoding.md R55) -/

/-- P5: `r <- r + 1`. -/
theorem test_assign : (hostStep ⟨[], [.assign 1 (.arith .add (.var 1) (.num 1))], [.num 7, .num 9], .running⟩ State.reset).1 =
    ⟨[], [], [.num 7, .num 10], .running⟩ := by decide
/-- P5: `if r < 10 goto L`, taken with r = 9. -/
theorem test_ifGoto_taken :
    (hostStep ⟨[.assign 0 (.num 1), .label 0, .fail .authError, .ifGoto (.lt (.var 0) (.num 10)) 0],
      [.ifGoto (.lt (.var 0) (.num 10)) 0], [.num 9], .running⟩ State.reset).1.rest =
    [.fail .authError, .ifGoto (.lt (.var 0) (.num 10)) 0] := by decide
/-- P5: not taken with r = 10. -/
theorem test_ifGoto_falls :
    (hostStep ⟨[.label 0, .ifGoto (.lt (.var 0) (.num 10)) 0, .ret []],
      [.ifGoto (.lt (.var 0) (.num 10)) 0, .ret []], [.num 10], .running⟩ State.reset).1.rest = [.ret []] := by decide
/-- P5: the word of `ADD_ROUND_KEY rnd=r` with r = 9, `0x0000090E`. -/
theorem test_command_operand :
    (HostExpr.command (.addRoundKey 0) (.var 0)).eval [.num 9] = .num 0x0000090E := by decide
/-- R12: `for r in 9 downto 1`, as the inverse program of P5 has it: after the pass with r = 1 the loop is left. -/
theorem test_downto_last :
    (hostStep ⟨forDownto 0 (.num 9) (.num 1) 0 1 [] ++ [HostOp.ret []], .ifGoto (.not (.lt (.num 1) (.var 0))) 1 :: [], [.num 1],
      .running⟩ State.reset).1.rest = [.ret []] := by decide
/-- R12: an empty decreasing range runs no pass. -/
theorem test_downto_empty :
    (hostStep ⟨forDownto 0 (.num 0) (.num 1) 0 1 [.fail .authError] ++ [HostOp.ret []],
      (forDownto 0 (.num 0) (.num 1) 0 1 [.fail .authError] ++ [HostOp.ret []]).tail, [.num 0], .running⟩ State.reset).1.rest =
    [.ret []] := by decide
/-- R12: `for r in 1 .. 9` is inclusive: a pass runs with r = 9 and none with r = 10. -/
theorem test_for_inclusive : ∀ r ∈ [(9, HostOp.fail .authError), (10, .ret [])],
    (hostStep ⟨forUp 0 (.num 1) (.num 9) 0 1 [.fail .authError] ++ [HostOp.ret []],
      (forUp 0 (.num 1) (.num 9) 0 1 [.fail .authError] ++ [HostOp.ret []]).drop 2, [.num r.1], .running⟩ State.reset).1.rest.head? =
    some r.2 := by decide
/-- P1: a word read into a local variable is what a later write carries. -/
theorem test_store_of_local :
    (hostStep ⟨[], [.store (.window (.num 0x030)) (.var 0)], [.num 0x3925841d], .running⟩ State.reset).2.din =
    0x3925841d000000000000000000000000 := by decide
/-- P1: `return (c, p)`. -/
theorem test_return_two : (hostStep ⟨[], [.ret [.var 0, .var 1]], [.bytes [1], .bytes [2]], .running⟩ State.reset).1.ending =
    .returned [[1], [2]] := by decide
/-- P4: the read at 0x006 is AccessFault to the host, which gets no data. -/
theorem test_refused_read :
    (hostStep ⟨[], [.load 0 (.window (.num 0x006)), .ret []], [.num 5], .running⟩ State.reset).1 =
    ⟨[], [], [.num 5], .faulted (Config.mmioBase + 0x006)⟩ := by rfl
/-- R91, R125: a block of 15 bytes is a precondition violation, before any access. -/
theorem test_encrypt_block_length :
    (hostStep (procEncryptBlock (List.replicate 15 0)) State.reset).1.ending = .failed .preconditionViolation := by decide

/-- A state in which the word `w` is pending and the core moves next. -/
def pendingState (w : Word) : State := { State.reset with pending := w, cmdLast := w, busy := true }

/-- A state with a key, its round count `n`, and a verified tag. -/
def keyedState (n : BitVec 4) : State :=
  { State.reset with keyValid := true, nr := n, tagValid := true, tagOk := true }

theorem witness_EncodeDecodeRoundTrip :
    Instr.wf (.addRoundKey 15) = true ∧ Instr.wf (.ghashAad 31 .dout) = true ∧ Instr.wf (.gf8Mul 0xFF 0xFF) = true := by
  decide
theorem witness_DecodedWordIsItsEncoding :
    decode 0x0001101A = .ok (.ghashCt 16 .dout) ∧ decode 0x00FFFF10 = .ok (.gf8Mul 0xFF 0xFF) := by decide
theorem witness_IllegalWordsFail :
    decode 0x00000004 = .error .unassignedOpcode ∧ decode 0x80000000 = .error .reservedBitSet ∧
    State.reset.busy = false ∧ turnOf (pendingState 0x00000004) = .core ∧ (pendingState 0x00000004).busy = true ∧
    decode (pendingState 0x00000004).pending = .error .unassignedOpcode := by decide
theorem witness_PerformRunsTheDecodedCommand :
    turnOf (pendingState 0x00000010) = .core ∧ (pendingState 0x00000010).busy = true ∧
    decode (pendingState 0x00000010).pending = .ok (.gf8Mul 0 0) ∧
    (∃ t, exec (.gf8Mul 0 0) (popTurn (pendingState 0x00000010)) = .next t) ∧
    decode (pendingState 0x0000003F).pending = .error .unassignedOpcode :=
  ⟨rfl, rfl, by decide, ⟨_, rfl⟩, by decide⟩
theorem witness_LatchedCommandCompletes :
    turnOf { pendingState 0 with agenda := [.core, .host 0] } = .core ∧ (pendingState 0).busy = true := by decide
theorem witness_PlacedWordIsPerformed :
    decode 0x00000020 = .ok .ctrInit ∧
    ∃ t, exec .ctrInit { State.reset with pending := 0x00000020, cmdLast := 0x00000020, busy := true } = .next t :=
  ⟨by decide, ⟨_, rfl⟩⟩
theorem witness_TurnsAreTaken :
    turnOf { State.reset with agenda := [.access ⟨0, 4, .read⟩] } = .access ⟨0, 4, .read⟩ ∧
    turnOf { State.reset with agenda := [.host 0], hosts := [start [.wait 0] [] 0] } = .host 0 ∧
    (State.hosts { State.reset with agenda := [.host 0], hosts := [start [.wait 0] [] 0] })[0]? = some (start [.wait 0] [] 0) ∧
    turnOf { State.reset with agenda := [.host 1], hosts := [start [.wait 0] [] 0] } = .host 1 ∧
    (State.hosts { State.reset with agenda := [.host 1], hosts := [start [.wait 0] [] 0] })[1]? = none ∧
    turnOf State.reset = .core ∧ State.reset.busy = false ∧
    turnOf { State.reset with agenda := [.reset] } = .reset := by decide
theorem witness_CommandWriteIssues : State.reset.busy = false ∧ (pendingState 0).busy = true := by decide
theorem witness_WritesWhileBusyAreRefused :
    (pendingState 0).busy = true ∧ 0x000 < 4096 ∧ 0x000 % 4 = 0 ∧ 0xFFC < 4096 ∧ 0xFFC % 4 = 0 := by decide
theorem witness_BadAccessesChangeNothing :
    Config.mmioBase ≤ Config.mmioBase ∧ Config.mmioBase < Config.mmioBase + 4096 ∧ ((2 : Nat) ≠ 4 ∨ False) ∧
    Config.mmioBase ≤ Config.mmioBase + 4095 ∧ Config.mmioBase + 4095 < Config.mmioBase + 4096 ∧
    (Config.mmioBase + 4095) % 4 ≠ 0 := by
  have h : Config.mmioBase = Config.mmioPage * 4096 := by unfold Config.mmioBase; rfl
  omega
theorem witness_ReadsHaveNoSideEffect :
    Config.mmioBase ≤ Config.mmioBase + 4092 ∧ Config.mmioBase + 4092 < Config.mmioBase + 4096 ∧
    (Config.mmioBase + 4092) % 4 = 0 ∧ Config.mmioBase % 4 = 0 ∧ Config.mmioBase + 4096 ≤ Config.mmioBase + 4096 ∧
    (4092 < 4096 ∧ 4092 % 4 = 0) ∧ (4095 < 4096 ∧ 4095 % 4 ≠ 0) ∧ 4096 ≤ 4096 := by
  have h : Config.mmioBase = Config.mmioPage * 4096 := by unfold Config.mmioBase; rfl
  omega
/-- The procedure hypotheses of the same statement: a procedure about to read the word at `off`. -/
theorem witness_ReadsHaveNoSideEffect_procedure : ∀ off ∈ [0, 4092, 4095, 4096],
    (start [.load 0 (.window (.num off))] [] 1).ending = .running ∧
    (start [.load 0 (.window (.num off))] [] 1).rest = .load 0 (.window (.num off)) :: [] := by decide
theorem witness_KeyAndReservedReadZero : ∀ off ∈ [0x010, 0x02C, 0x00C, 0x0AC, 0x0E0, 0x0FC, 0x1F0, 0xFFC], off % 4 = 0 ∧
    ((0x010 ≤ off ∧ off ≤ 0x02C) ∨ off = 0x00C ∨ off = 0x0AC ∨ (0x0E0 ≤ off ∧ off ≤ 0x0FC) ∨
      (0x1F0 ≤ off ∧ off ≤ 0xFFC)) := by decide
theorem witness_RegisterWritesReadBack : State.reset.busy = false ∧ 0xFFC % 4 = 0 ∧ 0xFFC < 4096 ∧
    ∀ off ∈ [0x030, 0x03C, 0x050, 0x07C, 0x090, 0x0A8, 0x0C0, 0x0CC], off % 4 = 0 ∧
      ((0x030 ≤ off ∧ off ≤ 0x03C) ∨ (0x050 ≤ off ∧ off ≤ 0x07C) ∨ (0x090 ≤ off ∧ off ≤ 0x0A8) ∨
        (0x0C0 ≤ off ∧ off ≤ 0x0CC)) := by decide
theorem witness_KeyWritesReplaceOneWord : State.reset.busy = false ∧ 0 < 8 ∧ 7 < 8 := by decide
theorem witness_OtherWritesAreIgnored : State.reset.busy = false ∧
    ∀ off ∈ [0x008, 0x00C, 0x040, 0x04C, 0x080, 0x08C, 0x0AC, 0x0B0, 0x0BC, 0x0D0, 0xFFC], off % 4 = 0 ∧
      (off = 0x008 ∨ off = 0x00C ∨ (0x040 ≤ off ∧ off ≤ 0x04C) ∨ (0x080 ≤ off ∧ off ≤ 0x08C) ∨ off = 0x0AC ∨
        (0x0B0 ≤ off ∧ off ≤ 0x0BC) ∨ (0x0D0 ≤ off ∧ off ≤ 0xFFC)) := by decide
theorem witness_StatusRegister : State.reset.busy = false := by decide
theorem witness_BusWordsAreBigEndian : 3 < 4 ∧ 2 < 3 ∧ 59 < 60 := by decide
theorem witness_HostWritesLeaveCoreRegisters :
    (writeWord 0x030 1 State.reset).din ≠ 0 ∧ (writeWord 0x030 1 (pendingState 0)).din = 0 := by decide
theorem witness_WaitPollsBusy :
    (start [.wait 0] [] 0).ending = .running ∧ (start [.wait 0] [] 0).rest = .wait 0 :: [] ∧ (pendingState 0).busy = true ∧
    State.reset.busy = false := by decide
theorem witness_ResetDiscardsThePendingCommand :
    turnOf { pendingState 0x00000001 with agenda := [.reset, .core] } = .reset ∧
    ∃ t, step { pendingState 0x00000001 with agenda := [.reset, .core] } = .next t ∧ turnOf t = .core :=
  ⟨rfl, ⟨_, rfl, rfl⟩⟩
theorem witness_Gf8FieldLaws : (0x53 : Byte) ≠ 0 ∧ (0xFF : Byte) ≠ 0 := by decide
theorem witness_SboxAndItsInverse : gf8 0x53 0xCA = 1 ∧ ((0 : Byte) = 0 ∧ (0 : Byte) = 0) := by decide
theorem witness_SubBytesCommands : 0 < 16 ∧ 15 < 16 := by decide
theorem witness_ShiftRowsCommands : 0 < 4 ∧ 3 < 4 := by decide
theorem witness_MixColumnsCommands : 0 < 4 ∧ 3 < 4 := by decide
theorem witness_AddRoundKeyCommand :
    (keyedState 14).keyValid = true ∧ 14 ≤ (keyedState 14).nr.toNat ∧ 0 ≤ (keyedState 14).nr.toNat ∧
    State.reset.keyValid = false ∧ (keyedState 14).nr.toNat < 15 := by decide
theorem witness_KeyExpandCommand :
    (KeyCode.k128 = .k128 ∧ 4 = 4) ∧ (KeyCode.k192 = .k192 ∧ 6 = 6) ∧ (KeyCode.k256 = .k256 ∧ 8 = 8) ∧
    3 < 4 ∧ (4 ≤ 43 ∧ 43 < 4 * (4 + 7)) ∧ (4 * (4 + 7) ≤ 44 ∧ 44 < 60) ∧ (8 ≤ 59 ∧ 59 < 4 * (8 + 7)) := by decide
theorem witness_CipherCommands : (keyedState 10).keyValid = true ∧ State.reset.keyValid = false := by decide
theorem witness_RoundCommandsComputeTheCipher :
    (keyedState 0).keyValid = true ∧ (keyedState 10).keyValid = true ∧ (keyedState 14).keyValid = true := by decide
theorem witness_HalvesShiftIsTheShift : 128 ≤ 128 := by decide
theorem witness_GhashInitCommand : (keyedState 10).keyValid = true ∧ State.reset.keyValid = false := by decide
theorem witness_GhashBlockCommands :
    (1 ≤ 1 ∧ 1 ≤ 16) ∧ (1 ≤ 16 ∧ 16 ≤ 16) ∧ ((0 = 0 ∨ 16 < 0) ∧ (17 = 0 ∨ 16 < 17)) ∧ 15 < 16 := by decide
theorem witness_GhashCommandsComputeGhash : (keyedState 10).keyValid = true := by decide
theorem witness_CounterCommands : 0 < 12 ∧ 11 < 12 := by decide
theorem witness_GctrCommand :
    (keyedState 10).keyValid = true ∧ (1 ≤ 1 ∧ 1 ≤ 16) ∧ (1 ≤ 16 ∧ 16 ≤ 16) ∧
    (Dir.opening = .opening → (keyedState 10).tagOk = true) ∧ State.reset.keyValid = false ∧
    (0 = 0 ∨ 16 < 0) ∧ (17 = 0 ∨ 16 < 17) ∧
    State.keyValid { keyedState 10 with tagOk := false } = true ∧
    State.tagOk { keyedState 10 with tagOk := false } = false := by decide
theorem witness_GctrCommandsComputeGctr :
    (keyedState 10).keyValid = true ∧ (Dir.opening = .opening → (keyedState 10).tagOk = true) := by decide
theorem witness_GcmTagCommand : (keyedState 10).keyValid = true ∧ State.reset.keyValid = false := by decide
theorem witness_GcmVerifyCommand :
    (keyedState 10).tagValid = true ∧ (keyedState 10).tag = (keyedState 10).rtag ∧
    State.tag { keyedState 10 with rtag := 1 } ≠ State.rtag { keyedState 10 with rtag := 1 } ∧
    State.reset.tagValid = false := by decide

/-- A state in which the core is about to verify a tag that is equal to RTAG. -/
def verifying : State := { pendingState 0x00000024 with keyValid := true, tagValid := true }

theorem witness_TagOkOnlyByVerify :
    verifying.tagOk = false ∧ ∃ t, step verifying = .next t ∧ t.tagOk = true := by
  refine ⟨rfl, _, (step_core (s := verifying) rfl rfl).trans (perform_ok (i := .gcmVerify) (by decide)), by decide⟩
theorem witness_NopCommand : opOf 0x80000000 = 0 ∧ (0x80000000 : Word) ≠ 0 := by decide
theorem witness_OnlyWritersWrite : ∃ t, exec .gf128Mul (keyedState 10) = .next t := ⟨_, rfl⟩
theorem witness_FailuresWriteOnlyTheError :
    ∃ t, exec .encrypt State.reset = .next t ∧ mayRaise .encrypt State.reset .noKey ∧ t.err ≠ State.reset.err ∧
      t.errcode ≠ State.reset.errcode :=
  ⟨_, rfl, ⟨rfl, rfl⟩, by decide, by decide⟩
theorem witness_RaisedErrorsAreTabled : ∃ t, exec (.addRoundKey 15) (keyedState 14) = .next t ∧ t.errcode = .badArg :=
  ⟨_, rfl, rfl⟩

/-- A state with an expanded key in which the core is about to perform NOP. -/
def keyedPending : State :=
  { pendingState 0 with ks := keySchedule 0 4, nr := 10, keyValid := true, tagValid := true, tagOk := true }

theorem witness_StepKeepsInv : Inv keyedPending ∧ ∃ t, step keyedPending = .next t := by
  refine ⟨⟨fun _ => ⟨0, .k128, 4, rfl, rfl, rfl⟩, ?_, ?_, ?_, ?_, rfl, ?_, ?_, .inl rfl⟩, ?_⟩
  · intro h; exact absurd h (by decide)
  · intro _; rfl
  · intro _; rfl
  · decide
  · decide
  · decide
  · exact ⟨_, (step_core (s := keyedPending) rfl rfl).trans (perform_ok (i := .nop) (by decide))⟩
theorem witness_KeyIsNotObservable :
    SameButKey (pendingState 0) { pendingState 0 with key := 1 } ∧
    (∀ kl, ¬ performsNext (pendingState 0) (.keyExpand kl)) ∧ ∃ t, step (pendingState 0) = .next t := by
  refine ⟨rfl, ?_, ?_⟩
  · rintro kl ⟨-, -, h⟩
    have e : decode (pendingState 0).pending = .ok .nop := by decide
    rw [e] at h
    cases h
  · exact ⟨_, (step_core (s := pendingState 0) rfl rfl).trans (perform_ok (i := .nop) (by decide))⟩

/-- A 12-byte nonce of zeros. -/
def zeroNonce : List Byte := List.replicate 12 0

theorem witness_SealReturnsCiphertextAndTag :
    ∃ s : State, s.keyValid = true ∧ s.busy = false ∧ zeroNonce.length = 12 ∧ s.hosts = [procSeal zeroNonce [1] [2]] ∧
      (zeroNonce.drop 1).length ≠ 12 ∧
      State.hosts { s with hosts := [procSeal (zeroNonce.drop 1) [1] [2]] } = [procSeal (zeroNonce.drop 1) [1] [2]] :=
  ⟨{ keyedState 10 with hosts := [procSeal zeroNonce [1] [2]] }, rfl, rfl, rfl, rfl, by decide, rfl⟩
theorem witness_OpenRefusesWrongTag :
    ∃ (s : State) (tag tag' : List Byte), s.keyValid = true ∧ s.busy = false ∧ zeroNonce.length = 12 ∧
      tag.length = 16 ∧ bytesOf (gcmTag (encryptBlock s.ks s.nr.toNat) (nonceOf zeroNonce) [1] [2]) ≠ tag ∧
      s.hosts = [procOpen zeroNonce ([1] ++ tag) [2]] ∧
      tag'.length = 16 ∧ bytesOf (gcmTag (encryptBlock s.ks s.nr.toNat) (nonceOf zeroNonce) [1] [2]) = tag' ∧
      State.hosts { s with hosts := [procOpen zeroNonce ([1] ++ tag') [2]] } = [procOpen zeroNonce ([1] ++ tag') [2]] ∧
      (List.replicate 15 (0 : Byte)).length < 16 ∧ (zeroNonce.drop 1).length ≠ 12 :=
  ⟨{ keyedState 10 with hosts := [procOpen zeroNonce ([1] ++ List.replicate 16 0) [2]] },
    List.replicate 16 0, _, rfl, rfl, rfl, rfl, by decide +kernel, rfl, by decide +kernel, rfl, rfl, by decide, by decide⟩

end Sys2Proof.Tests
end

/-! # What a command can do

A command either raises an error that R119 lists for it in that state and writes nothing else, or has its effect. -/

section

namespace Sys2Proof.Machine

/-- What the command `i` leaves once its checks have passed. KEY_EXPAND has no check before its work: the code that names no
key size wipes the key and raises BAD_KEYLEN (R84), so that outcome is among its effects. -/
def effect (i : Instr) (s : State) : State :=
  match i with
  | .nop => s
  | .keyExpand kl =>
    match nkOf kl with
    | none => raiseError .badKeylen (wipeKey (invalidateTag s))
    | some nk => loadSchedule nk (invalidateTag s)
  | .encrypt => { s with state := cipherE s s.din, dout := cipherE s s.din }
  | .decrypt => { s with state := cipherD s s.din, dout := cipherD s s.din }
  | .subBytes => { s with state := subBytes s.state }
  | .invSubBytes => { s with state := invSubBytes s.state }
  | .shiftRows => { s with state := shiftRows s.state }
  | .invShiftRows => { s with state := invShiftRows s.state }
  | .mixColumns => { s with state := mixColumns s.state }
  | .invMixColumns => { s with state := invMixColumns s.state }
  | .addRoundKey rnd => { s with state := addRoundKey s.ks s.state rnd }
  | .gf8Mul a b => { s with result := (gf8 a b).setWidth 32 }
  | .gf128Mul => { s with dout := mulg s.din s.h }
  | .ghashInit => invalidateTag { s with h := cipherE s 0, x := 0, alen := 0, clen := 0 }
  | .ghashAad nb src => invalidateTag { s with x := hashedX nb src s, alen := s.alen + bitsOf nb }
  | .ghashCt nb src => invalidateTag { s with x := hashedX nb src s, clen := s.clen + bitsOf nb }
  | .ghashLen => invalidateTag { s with x := ghashStep s.h s.x (lengthBlock s.alen s.clen) }
  | .ctrInit => invalidateTag { s with j0 := genCounter s.nonce, cb := genCounter s.nonce }
  | .ctrInc => { s with cb := inc32 s.cb }
  | .gctr nb _ => { s with dout := gctrOut nb s.din (cipherE s s.cb), cb := inc32 s.cb }
  | .gcmTag => { s with tag := xor128 s.x (cipherE s s.j0), tagValid := true, tagOk := false }
  | .gcmVerify => verdict s

/-- The command `i` fails in `s` with a code R119 lists for it, which is all that `t` differs in (R120). -/
def Fails (i : Instr) (s t : State) : Prop := ∃ code, mayRaise i s code ∧ t = raiseError code s

/-- The command `i` has its effect; it then had a key where it needs one, and GCM_VERIFY a tag. -/
def Succeeds (i : Instr) (s t : State) : Prop :=
  t = effect i s ∧ (needsKey i = true → s.keyValid = true) ∧ (i = .gcmVerify → s.tagValid = true)

theorem nbIllegal_eq_true {nb : Nat} : nbIllegal nb = true ↔ nb = 0 ∨ 16 < nb := by simp [nbIllegal]

theorem rndIllegal_eq_true {rnd : Nat} {s : State} : rndIllegal rnd s = true ↔ s.nr.toNat < rnd := by simp [rndIllegal]

theorem openingUnverified_eq_true {dir : Dir} {s : State} :
    openingUnverified dir s = true ↔ dir = .opening ∧ s.tagOk = false := by simp [openingUnverified]

/-- A command without a check has its effect. -/
theorem exec_unchecked {i : Instr} {s t : State} (h : exec i s = .next t) (he : exec i s = .next (effect i s))
    (hk : needsKey i = false) (hv : i ≠ .gcmVerify) : Fails i s t ∨ Succeeds i s t := by
  cases he.symm.trans h
  exact .inr ⟨rfl, fun h => by simp [hk] at h, fun h => absurd h hv⟩

/-- A command whose only check is for a key fails with NO_KEY or has its effect (R20). -/
theorem exec_keyChecked {i : Instr} {s t : State} (h : exec i s = .next t)
    (he : exec i s = needKey s (.next (effect i s))) (hk : needsKey i = true) (hv : i ≠ .gcmVerify) :
    Fails i s t ∨ Succeeds i s t := by
  obtain ⟨hs, rfl⟩ | ⟨hs, ⟨⟩⟩ := needKey_next.1 (he.symm.trans h)
  · exact .inl ⟨.noKey, ⟨hk, hs⟩, rfl⟩
  · exact .inr ⟨rfl, fun _ => hs, fun h => absurd h hv⟩

/-- Everything a command that answers a state can have done (R120, R122). -/
theorem exec_next {i : Instr} {s t : State} (h : exec i s = .next t) : Fails i s t ∨ Succeeds i s t := by
  cases i with
  | keyExpand kl => exact exec_unchecked h (by cases kl <;> rfl) rfl nofun
  | encrypt => exact exec_keyChecked h rfl rfl nofun
  | decrypt => exact exec_keyChecked h rfl rfl nofun
  | addRoundKey rnd =>
    obtain ⟨hk, rfl⟩ | ⟨hk, h⟩ := needKey_next.1 h
    · exact .inl ⟨.noKey, ⟨rfl, hk⟩, rfl⟩
    obtain ⟨hr, rfl⟩ | ⟨-, ⟨⟩⟩ := failIf_next.1 h
    · exact .inl ⟨.badArg, .inl ⟨rnd, rfl, rndIllegal_eq_true.1 hr⟩, rfl⟩
    · exact .inr ⟨rfl, fun _ => hk, nofun⟩
  | ghashInit => exact exec_keyChecked h rfl rfl nofun
  | ghashAad nb src =>
    obtain ⟨hn, rfl⟩ | ⟨-, ⟨⟩⟩ := failIf_next.1 h
    · exact .inl ⟨.badArg, .inr ⟨nb, nbIllegal_eq_true.1 hn, .inl ⟨src, rfl⟩⟩, rfl⟩
    · exact .inr ⟨rfl, nofun, nofun⟩
  | ghashCt nb src =>
    obtain ⟨hn, rfl⟩ | ⟨-, ⟨⟩⟩ := failIf_next.1 h
    · exact .inl ⟨.badArg, .inr ⟨nb, nbIllegal_eq_true.1 hn, .inr (.inl ⟨src, rfl⟩)⟩, rfl⟩
    · exact .inr ⟨rfl, nofun, nofun⟩
  | gctr nb dir =>
    obtain ⟨hk, rfl⟩ | ⟨hk, h⟩ := needKey_next.1 h
    · exact .inl ⟨.noKey, ⟨rfl, hk⟩, rfl⟩
    obtain ⟨hn, rfl⟩ | ⟨-, h⟩ := failIf_next.1 h
    · exact .inl ⟨.badArg, .inr ⟨nb, nbIllegal_eq_true.1 hn, .inr (.inr ⟨dir, rfl⟩)⟩, rfl⟩
    obtain ⟨ho, rfl⟩ | ⟨-, ⟨⟩⟩ := failIf_next.1 h
    · obtain ⟨rfl, hok⟩ := openingUnverified_eq_true.1 ho
      exact .inl ⟨.authRequired, ⟨nb, rfl, hok⟩, rfl⟩
    · exact .inr ⟨rfl, fun _ => hk, nofun⟩
  | gcmTag => exact exec_keyChecked h rfl rfl nofun
  | gcmVerify =>
    obtain ⟨hv, rfl⟩ | ⟨hv, ⟨⟩⟩ := failIf_next.1 h
    · exact .inl ⟨.noTag, ⟨rfl, by simpa using hv⟩, rfl⟩
    · exact .inr ⟨rfl, nofun, fun _ => by simpa using hv⟩
  | _ => exact exec_unchecked h rfl rfl nofun

/-- A command's failure has a code of its own: NONE is never raised. -/
theorem mayRaise_ne_none {i : Instr} {s : State} {code : ErrCode} (h : mayRaise i s code) : code ≠ .none := by
  rintro rfl
  exact h

end Sys2Proof.Machine
end

/-! # Which registers a command writes (10_state.md R30) -/

section

namespace Sys2Proof.Machine

/-- Settles O53: a failing command writes ERR and ERRCODE only, and a succeeding one what its effect names. -/
theorem onlyWritersWrite : Obligations.OnlyWritersWrite := by
  unfold Obligations.OnlyWritersWrite
  intro i s t h
  obtain ⟨code, -, rfl⟩ | ⟨rfl, -, -⟩ := exec_next h
  · simp
  · cases i with
    | keyExpand kl => cases kl <;> simp [effect, nkOf]
    | _ => simp [effect]

end Sys2Proof.Machine
end

/-! # What a host can do to the core (20_memory.md R40, 60_exceptions.md R121, R123) -/

section

namespace Sys2Proof.Machine

/-- To the core a bus access is a write of one word or nothing, beside the answer the host is given. -/
theorem busAccess_cases (a : Access) (s : State) :
    ∃ r, busAccess a s = respond r s ∨ ∃ off v, busAccess a s = respond r (writeWord off v s) := by
  unfold busAccess
  split
  · exact ⟨_, .inl rfl⟩
  obtain ⟨-, h⟩ | ⟨-, -, h⟩ | ⟨-, -, -, h⟩ := accessAt_cases (a.addr - Config.mmioBase) a.bytes a.op s
  · exact ⟨_, .inl h⟩
  · exact ⟨_, .inl h⟩
  · rw [h]
    cases a.op with
    | read => exact ⟨_, .inl rfl⟩
    | write v => exact ⟨_, .inr ⟨_, v, rfl⟩⟩

/-- A turn of a host procedure is a bus access or nothing, beside the model's own fields for the outside world. -/
theorem hostTurn_cases (k : Nat) (s : State) :
    ∃ hs n, hostTurn k s = { s with hosts := hs, platformReads := n } ∨
      ∃ a, hostTurn k s = { busAccess a s with hosts := hs, platformReads := n } := by
  unfold hostTurn
  split
  · exact ⟨s.hosts, s.platformReads, .inl rfl⟩
  next h _ =>
    obtain e | ⟨a, op, n, e⟩ := hostStep_state h s
    · exact ⟨_, s.platformReads, .inl (by rw [e])⟩
    · exact ⟨_, n, .inr ⟨⟨a, 4, op⟩, by rw [e]⟩⟩

end Sys2Proof.Machine
end

/-! # The invariant of the registers (10_state.md R19 to R28) -/

section

namespace Sys2Proof.Machine

/-! ## Reset -/

/-- Settles O57: with every register zero there is no key, no tag and no error, and every length is 0. -/
theorem resetMeetsInv : Obligations.ResetMeetsInv where
  keyed := nofun
  unkeyed _ := ⟨rfl, rfl⟩
  okNeedsValid := nofun
  validNeedsKey := nofun
  errHasCode := ⟨fun _ => rfl, fun _ => rfl⟩
  lastIsPending := rfl
  resultIsByte := by decide
  lengthsAreBytes := ⟨rfl, rfl⟩
  j0Form := .inl rfl

/-! ## Commands -/

theorem raiseError_inv {s : State} {code : ErrCode} (h : Inv s) (hc : code ≠ .none) : Inv (raiseError code s) :=
  { h with errHasCode := by simp [hc] }

theorem invalidateTag_inv {s : State} (h : Inv s) : Inv (invalidateTag s) :=
  { h with okNeedsValid := nofun, validNeedsKey := nofun }

/-- The key may be wiped once no tag is valid, which is the order of KEY_EXPAND (R84). -/
theorem wipeKey_inv {s : State} (h : Inv s) (ht : s.tagValid = false) : Inv (wipeKey s) :=
  { h with
    keyed := nofun
    unkeyed := fun _ => ⟨rfl, rfl⟩
    validNeedsKey := fun hv => absurd (ht.symm.trans hv) nofun }

theorem loadSchedule_inv {s : State} {kl : KeyCode} {nk : Nat} (h : Inv s) (hk : nkOf kl = some nk) :
    Inv (loadSchedule nk s) :=
  { h with
    keyed := fun _ => ⟨s.key, kl, nk, hk, rfl, rfl⟩
    unkeyed := nofun
    validNeedsKey := fun _ => rfl }

/-- KEY_EXPAND, whether it loads a key or wipes it. -/
theorem keyExpand_inv {s : State} (kl : KeyCode) (h : Inv s) : Inv (effect (.keyExpand kl) s) := by
  cases hk : nkOf kl with
  | none =>
    have hr : Inv (raiseError .badKeylen (wipeKey (invalidateTag s))) :=
      raiseError_inv (wipeKey_inv (invalidateTag_inv h) rfl) nofun
    simpa only [effect, hk] using hr
  | some nk => simpa only [effect, hk] using loadSchedule_inv (invalidateTag_inv h) hk

/-- The counters hold bit lengths of whole bytes, and adding one more block's modulo 2^64 keeps that (R102, R103). -/
theorem add_bitsOf_mod_eight (n : Half) (nb : Nat) (h : n.toNat % 8 = 0) : (n + bitsOf nb).toNat % 8 = 0 := by
  simp only [bitsOf, BitVec.toNat_add, BitVec.toNat_ofNat]
  omega

/-- The word genCounter appends to the nonce is be32(1) (R105). -/
theorem wordOf_genCounter (nonce : Nonce) : wordOf (genCounter nonce) 3 = 1 :=
  BitVec.extractLsb'_append_eq_right

/-- A byte in a word leaves the upper 24 bits zero (R73). -/
theorem extract_setWidth_byte (b : Byte) : (b.setWidth 32).extractLsb' 8 24 = 0 := by
  apply BitVec.eq_of_getLsbD_eq
  intro j hj
  simp

/-- GCM_VERIFY gives its verdict on a valid tag only (R109, R114). -/
theorem verdict_inv {s : State} (h : Inv s) (hv : s.tagValid = true) : Inv (verdict s) := by
  unfold verdict
  split
  · exact { h with okNeedsValid := fun _ => hv }
  · exact { h with okNeedsValid := nofun }

/-- A command that has its effect keeps the invariant. -/
theorem effect_inv {i : Instr} {s : State} (h : Inv s) (hk : needsKey i = true → s.keyValid = true)
    (hv : i = .gcmVerify → s.tagValid = true) : Inv (effect i s) := by
  cases i with
  | keyExpand kl => exact keyExpand_inv kl h
  | gf8Mul a b => exact { h with resultIsByte := extract_setWidth_byte _ }
  | ghashInit => exact invalidateTag_inv { h with lengthsAreBytes := ⟨rfl, rfl⟩ }
  | ghashAad nb src =>
    obtain ⟨ha, hc⟩ := h.lengthsAreBytes
    exact invalidateTag_inv { h with lengthsAreBytes := ⟨add_bitsOf_mod_eight _ nb ha, hc⟩ }
  | ghashCt nb src =>
    obtain ⟨ha, hc⟩ := h.lengthsAreBytes
    exact invalidateTag_inv { h with lengthsAreBytes := ⟨ha, add_bitsOf_mod_eight _ nb hc⟩ }
  | ghashLen => exact invalidateTag_inv { h with }
  | ctrInit => exact invalidateTag_inv { h with j0Form := .inr (wordOf_genCounter _) }
  | gcmTag => exact { h with okNeedsValid := nofun, validNeedsKey := fun _ => hk rfl }
  | gcmVerify => exact verdict_inv h (hv rfl)
  | _ => exact { h with }

theorem exec_inv {i : Instr} {s t : State} (h : Inv s) (he : exec i s = .next t) : Inv t := by
  obtain ⟨code, hc, rfl⟩ | ⟨rfl, hk, hv⟩ := exec_next he
  · exact raiseError_inv h (mayRaise_ne_none hc)
  · exact effect_inv h hk hv

/-! ## Turns -/

theorem complete_inv {s : State} (h : Inv s) : Inv (complete s) := { h with }

theorem coreTurn_inv {s t : State} (h : Inv s) (ht : coreTurn s = .next t) : Inv t := by
  unfold coreTurn at ht
  split at ht
  · obtain ⟨i, u, -, hu, rfl⟩ | ⟨r, -, rfl⟩ := perform_next ht
    · exact complete_inv (exec_inv h hu)
    · exact complete_inv (raiseError_inv h nofun)
  · cases ht
    exact h

/-- Acknowledging an error clears ERR and ERRCODE together (R28). -/
theorem ackStatus_inv {s : State} (v : Word) (h : Inv s) : Inv (ackStatus v s) := by
  rw [ackStatus_eq]
  refine { h with errHasCode := ?_ }
  cases v.getLsbD 5 <;> simp [h.errHasCode]

theorem writeWord_inv {s : State} (off : Nat) (v : Word) (h : Inv s) : Inv (writeWord off v s) := by
  unfold writeWord
  split
  · exact raiseError_inv h nofun
  · cases slotAt off with
    | cmd => exact { h with lastIsPending := rfl }
    | status => exact ackStatus_inv v h
    | _ => exact { h with }

theorem busAccess_inv {s : State} (a : Access) (h : Inv s) : Inv (busAccess a s) := by
  obtain ⟨r, e | ⟨off, v, e⟩⟩ := busAccess_cases a s
  · exact e ▸ { h with }
  · exact e ▸ { writeWord_inv off v h with }

theorem hostTurn_inv {s : State} (k : Nat) (h : Inv s) : Inv (hostTurn k s) := by
  obtain ⟨hs, n, e | ⟨a, e⟩⟩ := hostTurn_cases k s
  · exact e ▸ { h with }
  · exact e ▸ { busAccess_inv a h with }

/-- Reset leaves what the invariant speaks of at its reset values (R31, R136). -/
theorem resetCore_inv (s : State) : Inv (resetCore s) :=
  have h : Inv State.reset := resetMeetsInv
  { h with }

theorem popTurn_inv {s : State} (h : Inv s) : Inv (popTurn s) := { h with }

theorem takeTurn_inv {s t : State} (turn : Turn) (h : Inv s) (ht : takeTurn turn s = .next t) : Inv t := by
  cases turn with
  | core => exact coreTurn_inv h ht
  | access a => cases ht; exact busAccess_inv a h
  | host k => cases ht; exact hostTurn_inv k h
  | reset => cases ht; exact resetCore_inv s

/-- Settles O56: whichever agent has the turn, its step keeps the invariant. -/
theorem stepKeepsInv : Obligations.StepKeepsInv := by
  unfold Obligations.StepKeepsInv
  intro s t h ht
  rw [step_takeTurn] at ht
  exact takeTurn_inv (turnOf s) (popTurn_inv h) ht

end Sys2Proof.Machine
end

/-! # KEY is read by KEY_EXPAND only (10_state.md R17, R30, 20_memory.md R46)

Every operation of the machine but KEY_EXPAND gives the same, KEY apart, when KEY is erased before it. -/

section

namespace Sys2Proof.Machine

/-- The state with KEY zero: `SameButKey s t` says that `s` and `t` are equal so erased. -/
def eraseKey (s : State) : State := { s with key := 0 }

theorem sameButKey_iff {s t : State} : SameButKey s t ↔ eraseKey s = eraseKey t := Iff.rfl

@[simp] theorem eraseKey_response (s : State) : (eraseKey s).response = s.response := rfl
@[simp] theorem eraseKey_hosts (s : State) : (eraseKey s).hosts = s.hosts := rfl

/-! ## Commands -/

/-- The error record is beside KEY, so a check that does not look at KEY commutes with erasing it. -/
theorem mapNext_eraseKey_failIf (c : Bool) (code : ErrCode) (s : State) (rest : Result) :
    mapNext eraseKey (failIf c code s rest) = failIf c code (eraseKey s) (mapNext eraseKey rest) := by
  cases c <;> rfl

theorem verdict_eraseKey (s : State) : verdict (eraseKey s) = eraseKey (verdict s) := by
  unfold verdict
  rw [apply_ite eraseKey]
  rfl

/-- Only KEY_EXPAND reads KEY, and no command writes it (R30). -/
theorem exec_eraseKey {i : Instr} (s : State) (hi : ∀ kl, i ≠ .keyExpand kl) :
    exec i (eraseKey s) = mapNext eraseKey (exec i s) := by
  cases i with
  | keyExpand kl => exact absurd rfl (hi kl)
  | encrypt => simp only [exec, execEncrypt, needKey, mapNext_eraseKey_failIf]; rfl
  | decrypt => simp only [exec, execDecrypt, needKey, mapNext_eraseKey_failIf]; rfl
  | addRoundKey rnd => simp only [exec, execAddRoundKey, needKey, mapNext_eraseKey_failIf]; rfl
  | ghashInit => simp only [exec, execGhashInit, needKey, mapNext_eraseKey_failIf]; rfl
  | ghashAad nb src => cases src <;> simp only [exec, execGhashAad, mapNext_eraseKey_failIf] <;> rfl
  | ghashCt nb src => cases src <;> simp only [exec, execGhashCt, mapNext_eraseKey_failIf] <;> rfl
  | gctr nb dir => simp only [exec, execGctr, needKey, mapNext_eraseKey_failIf]; rfl
  | gcmTag => simp only [exec, execGcmTag, needKey, mapNext_eraseKey_failIf]; rfl
  | gcmVerify => simp only [exec, execGcmVerify, mapNext_eraseKey_failIf, verdict_eraseKey]; rfl
  | _ => rfl

/-- Perform with KEY erased, unless the command is KEY_EXPAND. -/
theorem perform_eraseKey {s : State} (hs : ∀ kl, decode s.pending ≠ .ok (.keyExpand kl)) :
    perform (eraseKey s) = mapNext eraseKey (perform s) := by
  cases hd : decode s.pending with
  | ok i =>
    rw [perform_ok hd, perform_ok (s := eraseKey s) hd,
      exec_eraseKey s fun kl hi => hs kl (by rw [hd, hi])]
    cases exec i s <;> rfl
  | error r =>
    rw [perform_error hd, perform_error (s := eraseKey s) hd]
    rfl

/-- The core's turn, unless it performs KEY_EXPAND, commutes with erasing KEY. -/
theorem coreTurn_eraseKey {s : State} (hs : ∀ kl, ¬ (s.busy = true ∧ decode s.pending = .ok (.keyExpand kl))) :
    coreTurn (eraseKey s) = mapNext eraseKey (coreTurn s) := by
  cases hb : s.busy with
  | false => simp [coreTurn, hb, mapNext, eraseKey]
  | true =>
    have hp := perform_eraseKey fun kl hd => hs kl ⟨hb, hd⟩
    simpa [coreTurn, hb, eraseKey] using hp

/-! ## Hosts -/

/-- No register word a host reads shows KEY (R46). -/
theorem readWord_eraseKey (off : Nat) (s : State) : readWord off (eraseKey s) = readWord off s := by
  unfold readWord
  cases slotAt off <;> rfl

/-- A write replaces a word of KEY or does not touch KEY. -/
theorem writeWord_eraseKey (off : Nat) (v : Word) (s : State) :
    SameButKey (writeWord off v (eraseKey s)) (writeWord off v s) := by
  cases hb : s.busy with
  | true => rw [writeWord_busy off v hb, writeWord_busy (s := eraseKey s) off v hb]; rfl
  | false =>
    rw [writeWord_idle off v hb, writeWord_idle (s := eraseKey s) off v hb]
    cases slotAt off with
    | status => simp only [writeSlot, ackStatus_eq]; rfl
    | _ => rfl

theorem accessAt_eraseKey (off bytes : Nat) (op : BusOp) (s : State) :
    SameButKey (accessAt off bytes op (eraseKey s)) (accessAt off bytes op s) := by
  unfold accessAt
  split
  · rfl
  split
  · rfl
  cases op with
  | read => simp only [busAnswer, busEffect, readWord_eraseKey]; rfl
  | write v => exact congrArg (respond .done) (writeWord_eraseKey off v s)

theorem busAccess_eraseKey (a : Access) (s : State) : SameButKey (busAccess a (eraseKey s)) (busAccess a s) := by
  unfold busAccess
  split
  · rfl
  · exact accessAt_eraseKey _ _ _ s

/-- Two turns of a procedure end with the same procedure, in states that differ in KEY at most. -/
def SameTurn (p q : HostRun × State) : Prop := p.1 = q.1 ∧ SameButKey p.2 q.2

theorem hostAccess_eraseKey (addr : HostAddr) (vs : List Val) (op : BusOp) (s : State) :
    SameButKey (hostAccess addr vs op (eraseKey s)) (hostAccess addr vs op s) := by
  cases addr with
  | window off => exact accessAt_eraseKey _ 4 op s
  | absolute a => exact busAccess_eraseKey _ s

/-- The bus answers the same. -/
theorem SameButKey.response {s t : State} (h : SameButKey s t) : s.response = t.response := by
  rw [← eraseKey_response s, sameButKey_iff.1 h, eraseKey_response]

theorem countPlatformRead_eraseKey (s : State) : countPlatformRead (eraseKey s) = eraseKey (countPlatformRead s) := by
  unfold countPlatformRead
  rw [eraseKey_response]
  split <;> rfl

theorem hostStore_eraseKey (addr : HostAddr) (v : HostExpr) (h : HostRun) (s : State) :
    SameTurn (hostStore addr v h (eraseKey s)) (hostStore addr v h s) :=
  have same := hostAccess_eraseKey addr h.locals (.write (BitVec.ofNat 32 (v.eval h.locals).toNum)) s
  ⟨congrArg h.wrote same.response, same⟩

theorem hostLoad_eraseKey (x : Nat) (addr : HostAddr) (h : HostRun) (s : State) :
    SameTurn (hostLoad x addr h (eraseKey s)) (hostLoad x addr h s) := by
  have same := hostAccess_eraseKey addr h.locals .read s
  refine ⟨congrArg (h.received x s.platformReads) same.response, ?_⟩
  show eraseKey (countPlatformRead _) = eraseKey (countPlatformRead _)
  rw [← countPlatformRead_eraseKey, ← countPlatformRead_eraseKey]
  exact congrArg countPlatformRead same

theorem hostWait_eraseKey (x : Nat) (h : HostRun) (s : State) :
    SameTurn (hostWait x h (eraseKey s)) (hostWait x h s) := by
  obtain ⟨run, regs⟩ := hostLoad_eraseKey x (.window (.num 0x004)) h s
  unfold hostWait
  dsimp only
  rw [run]
  split
  · exact ⟨rfl, regs⟩
  · exact ⟨run, regs⟩

theorem opStep_eraseKey (op : HostOp) (h : HostRun) (s : State) :
    SameTurn (opStep op h (eraseKey s)) (opStep op h s) := by
  cases op with
  | store addr v => exact hostStore_eraseKey addr v h s
  | load x addr => exact hostLoad_eraseKey x addr h s
  | wait x => exact hostWait_eraseKey x h s
  | _ => exact ⟨rfl, rfl⟩

theorem hostStep_eraseKey (h : HostRun) (s : State) : SameTurn (hostStep h (eraseKey s)) (hostStep h s) := by
  unfold hostStep
  split
  · unfold runStep
    split
    · exact opStep_eraseKey _ _ s
    · exact ⟨rfl, rfl⟩
  all_goals exact ⟨rfl, rfl⟩

theorem hostTurn_eraseKey (k : Nat) (s : State) : SameButKey (hostTurn k (eraseKey s)) (hostTurn k s) := by
  unfold hostTurn
  rw [eraseKey_hosts]
  split
  · rfl
  next h _ =>
    obtain ⟨run, regs⟩ := hostStep_eraseKey h s
    rw [run]
    exact congrArg (fun t : State => { t with hosts := s.hosts.set k (hostStep h s).1 }) regs

/-! ## Turns -/

/-- Whichever agent has the turn, unless the core performs KEY_EXPAND, KEY erased before it shows in KEY at most. -/
theorem takeTurn_eraseKey (turn : Turn) {s : State}
    (hs : ∀ kl, ¬ (turn = .core ∧ s.busy = true ∧ decode s.pending = .ok (.keyExpand kl))) :
    mapNext eraseKey (takeTurn turn (eraseKey s)) = mapNext eraseKey (takeTurn turn s) := by
  cases turn with
  | core =>
    show mapNext eraseKey (coreTurn (eraseKey s)) = mapNext eraseKey (coreTurn s)
    rw [coreTurn_eraseKey fun kl h => hs kl ⟨rfl, h⟩]
    cases coreTurn s <;> rfl
  | access a => exact congrArg Host.Outcome.next (busAccess_eraseKey a s)
  | host k => exact congrArg Host.Outcome.next (hostTurn_eraseKey k s)
  | reset => rfl

theorem step_eraseKey {s : State} (hs : ∀ kl, ¬ performsNext s (.keyExpand kl)) :
    mapNext eraseKey (step (eraseKey s)) = mapNext eraseKey (step s) := by
  rw [step_takeTurn, step_takeTurn]
  exact takeTurn_eraseKey (turnOf s) (s := popTurn s) hs

/-- What the next step performs does not depend on KEY. -/
theorem performsNext_sameButKey {s t : State} {i : Instr} (h : SameButKey s t) :
    performsNext s i ↔ performsNext t i := by
  show performsNext (eraseKey s) i ↔ performsNext (eraseKey t) i
  rw [sameButKey_iff.1 h]

theorem mapNext_eq_next {f : State → State} {r : Result} {u : State} :
    mapNext f r = .next u ↔ ∃ t, r = .next t ∧ f t = u := by
  cases r <;> simp [mapNext]

/-- Settles O58: the steps of both states are, KEY apart, the step of the one state that both are with KEY erased. -/
theorem keyIsNotObservable : Obligations.KeyIsNotObservable := by
  unfold Obligations.KeyIsNotObservable
  intro s s' t same hs ht
  have hs' : ∀ kl, ¬ performsNext s' (.keyExpand kl) := fun kl h => hs kl ((performsNext_sameButKey same).2 h)
  have steps : mapNext eraseKey (step s') = .next (eraseKey t) :=
    calc mapNext eraseKey (step s')
      _ = mapNext eraseKey (step (eraseKey s')) := (step_eraseKey hs').symm
      _ = mapNext eraseKey (step (eraseKey s)) := by rw [sameButKey_iff.1 same]
      _ = mapNext eraseKey (step s) := step_eraseKey hs
      _ = .next (eraseKey t) := by rw [ht]; rfl
  obtain ⟨t', ht', e⟩ := mapNext_eq_next.1 steps
  exact ⟨t', ht', e.symm⟩

end Sys2Proof.Machine
end

/-! # Single registers: KEY, STATUS, and what a host cannot write (10_state.md R17, R28, R30, R31) -/

section

namespace Sys2Proof.Machine

/-! ## KEY -/

theorem slotAt_key (k : Nat) (hk : k < 8) : slotAt (0x010 + 4 * k) = .key k := by
  interval_cases k <;> rfl

/-- Settles O17: KEYk names word k of KEY, and writing one word of a register leaves the others. -/
theorem keyWritesReplaceOneWord : Obligations.KeyWritesReplaceOneWord := by
  unfold Obligations.KeyWritesReplaceOneWord
  intro s k v hb hk
  refine ⟨setWord s.key k v, ?_, fun j hj => ?_⟩
  · rw [writeWord_idle _ v hb, slotAt_key k hk]
    rfl
  · split
    · next h => rw [h, wordOf_setWord_same (n := 8) s.key k v hk]
    · next h => exact wordOf_setWord_other (n := 8) s.key k j v hk hj h

/-! ## STATUS -/

theorem slotAt_status : slotAt 0x004 = .status := rfl

/-- The one-bit fields of STATUS (R28). -/
theorem statusWord_flags (s : State) :
    (statusWord s).getLsbD 0 = s.busy ∧ (statusWord s).getLsbD 1 = s.keyValid ∧
    (statusWord s).getLsbD 2 = s.tagValid ∧ (statusWord s).getLsbD 3 = s.tagOk ∧
    (statusWord s).getLsbD 4 = s.authFail ∧ (statusWord s).getLsbD 5 = s.err := by
  simp only [statusWord, BitVec.getLsbD_append]
  simp

/-- The wider fields of STATUS: ERRCODE, NR, and zeros between and above them (R28). -/
theorem statusWord_fields (s : State) :
    (statusWord s).extractLsb' 6 2 = 0 ∧ (statusWord s).extractLsb' 8 4 = s.errcode.bits ∧
    (statusWord s).extractLsb' 12 4 = 0 ∧ (statusWord s).extractLsb' 16 4 = s.nr ∧
    (statusWord s).extractLsb' 20 12 = 0 := by
  simp (disch := decide) only [statusWord, BitVec.extractLsb'_append_eq_of_le, Nat.reduceSub,
    BitVec.extractLsb'_append_eq_right, BitVec.extractLsb'_eq_self, BitVec.ofNat_eq_ofNat, and_self]

theorem errCode_bits_lt (c : ErrCode) : c.bits.toNat < 8 := by cases c <;> decide

theorem statusWord_reset : statusWord State.reset = 0 := by decide

/-- Settles O19: STATUS is the word statusWord, and a write to it is ackStatus. -/
theorem statusRegister : Obligations.StatusRegister := by
  unfold Obligations.StatusRegister
  refine ⟨fun s => ?_, ⟨rfl, rfl, rfl, rfl, rfl, rfl, rfl, rfl⟩, ?_, fun s v hb => ?_⟩
  · obtain ⟨busy, keyValid, tagValid, tagOk, authFail, err⟩ := statusWord_flags s
    obtain ⟨low, code, mid, nr, high⟩ := statusWord_fields s
    exact ⟨by rw [readWord, slotAt_status]; rfl, busy, keyValid, tagValid, tagOk, authFail, err, low, code, mid, nr, high,
      errCode_bits_lt s.errcode⟩
  · rw [readWord, slotAt_status]
    exact statusWord_reset
  · rw [writeWord_idle _ v hb, slotAt_status]
    exact ackStatus_eq v s

/-! ## Registers that only commands write -/

/-- Settles O21: a write refused with CMD_BUSY writes ERR and ERRCODE only, and no slot a host can write is one of these
registers. -/
theorem hostWritesLeaveCoreRegisters : Obligations.HostWritesLeaveCoreRegisters := by
  unfold Obligations.HostWritesLeaveCoreRegisters
  rintro s _ off v rfl
  cases hb : s.busy with
  | true => simp [writeWord_busy off v hb]
  | false =>
    rw [writeWord_idle off v hb]
    cases slotAt off <;> simp [writeSlot]

/-! ## Reset -/

/-- Settles O23: State.reset has these values by definition, and STATUS is made of them. -/
theorem resetState : Obligations.ResetState :=
  ⟨rfl, rfl, rfl, rfl, rfl, rfl, rfl, rfl, rfl, rfl, rfl, rfl, rfl, rfl, rfl, rfl, rfl, rfl, rfl, rfl, rfl, rfl, rfl, rfl,
    statusWord_reset⟩

end Sys2Proof.Machine
end

/-! # The register map, read from the side of the register (20_memory.md R33, R34) -/

section

namespace Sys2Proof.Machine

/-- `off` is the address R33 gives this word of a register, or one of the offsets it leaves reserved. -/
def Slot.IsAt (off : Nat) : Slot → Prop
  | .cmd => off = 0x000
  | .status => off = 0x004
  | .result => off = 0x008
  | .key k => k < 8 ∧ off = 0x010 + 4 * k
  | .din k => k < 4 ∧ off = 0x030 + 4 * k
  | .dout k => k < 4 ∧ off = 0x040 + 4 * k
  | .state k => k < 4 ∧ off = 0x050 + 4 * k
  | .h k => k < 4 ∧ off = 0x060 + 4 * k
  | .x k => k < 4 ∧ off = 0x070 + 4 * k
  | .j0 k => k < 4 ∧ off = 0x080 + 4 * k
  | .cb k => k < 4 ∧ off = 0x090 + 4 * k
  | .nonce k => k < 3 ∧ off = 0x0A0 + 4 * k
  | .tag k => k < 4 ∧ off = 0x0B0 + 4 * k
  | .rtag k => k < 4 ∧ off = 0x0C0 + 4 * k
  | .alen k => k < 2 ∧ off = 0x0D0 + 4 * k
  | .clen k => k < 2 ∧ off = 0x0D8 + 4 * k
  | .ks i => i < 60 ∧ off = 0x100 + 4 * i
  | .reserved => off = 0x00C ∨ off = 0x0AC ∨ (0x0E0 ≤ off ∧ off ≤ 0x0FC) ∨ 0x1F0 ≤ off

/-- The register word in a row of the map is the one at that address. -/
theorem isAt_of_holds {r : Region} {off : Nat} (hr : r ∈ windowMap) (h4 : off % 4 = 0) (h : r.holds off = true) :
    (r.slot ((off - r.base) / 4)).IsAt off := by
  rw [Region.holds, decide_eq_true_iff] at h
  fin_cases hr <;> simp only [Slot.IsAt] at h ⊢ <;> omega

/-- An aligned offset that is in no row of the map is reserved. -/
theorem isAt_reserved {off : Nat} (h4 : off % 4 = 0) (h : ∀ r ∈ windowMap, ¬ r.holds off = true) :
    Slot.reserved.IsAt off := by
  simp only [windowMap, Region.holds, List.forall_mem_cons, decide_eq_true_iff] at h
  simp only [Slot.IsAt]
  omega

/-- What slotAt finds at an aligned offset is the register word at that address. -/
theorem slotAt_isAt (off : Nat) (h4 : off % 4 = 0) : (slotAt off).IsAt off := by
  unfold slotAt
  split
  · next r hr => exact isAt_of_holds (List.mem_of_find?_eq_some hr) h4 (List.find?_some (p := (Region.holds · off)) hr)
  · next hr => exact isAt_reserved h4 (List.find?_eq_none.1 hr)

/-- A register word has one address. -/
theorem Slot.IsAt.unique {slot : Slot} {off off' : Nat} (h : slot.IsAt off) (h' : slot.IsAt off')
    (hr : slot ≠ .reserved) : off' = off := by
  cases slot with
  | reserved => exact absurd rfl hr
  | _ => simp only [Slot.IsAt] at h h'; omega

/-- Word k of a row of the map is at the row's first offset plus 4k. -/
theorem slotAt_row : ∀ r ∈ windowMap, ∀ k < r.words, slotAt (r.base + 4 * k) = r.slot k := by decide

end Sys2Proof.Machine
end

/-! # What a read returns (20_memory.md R34, R36, R41, R46) -/

section

namespace Sys2Proof.Machine

/-- Settles O15: the register words at these offsets are those of KEY and the reserved ones. -/
theorem keyAndReservedReadZero : Obligations.KeyAndReservedReadZero := by
  unfold Obligations.KeyAndReservedReadZero
  intro s off h4 hoff
  have h := slotAt_isAt off h4
  unfold readWord
  cases hs : slotAt off with
  | key k | reserved => rfl
  | _ => simp only [hs, Slot.IsAt] at h; omega

/-- A word of a register is its four bytes, byte 4k uppermost (R36). -/
theorem wordOf_eq_wordBE {n : Nat} (b : BitVec (32 * n)) {k : Nat} (hk : k < n) :
    wordOf b k =
      wordBE (byteOf b (4 * k)) (byteOf b (4 * k + 1)) (byteOf b (4 * k + 2)) (byteOf b (4 * k + 3)) := by
  simp only [wordOf, wordBE, byteOf]
  rw [BitVec.extractLsb'_append_extractLsb'_eq_extractLsb' (by omega),
    BitVec.extractLsb'_append_extractLsb'_eq_extractLsb' (by omega),
    BitVec.extractLsb'_append_extractLsb'_eq_extractLsb' (by omega),
    show 32 * n - 8 * (4 * k + 3 + 1) = 32 * n - 32 * (k + 1) by omega]

/-- A read in a row of the map returns the row's word k. -/
theorem readWord_row {base words : Nat} {slot : Nat → Slot} (hr : ⟨base, words, slot⟩ ∈ windowMap) {k : Nat}
    (hk : k < words) (s : State) : readWord (base + 4 * k) s = readSlot (slot k) s := by
  rw [readWord, slotAt_row _ hr k hk]

/-- Where a row of the map reads the words of one register, the host sees that register's bytes, big-endian. -/
theorem readWord_row_bytes {n base : Nat} {slot : Nat → Slot} {s : State} (reg : BitVec (32 * n))
    (hr : ⟨base, n, slot⟩ ∈ windowMap) (read : ∀ k, readSlot (slot k) s = wordOf reg k) {k : Nat} (hk : k < n) :
    readWord (base + 4 * k) s =
      wordBE (byteOf reg (4 * k)) (byteOf reg (4 * k + 1)) (byteOf reg (4 * k + 2)) (byteOf reg (4 * k + 3)) := by
  rw [readWord_row hr hk, read, wordOf_eq_wordBE reg hk]

/-- Column k of the AES state is its bytes 4k to 4k+3 (R11). -/
theorem cell_eq_byteOf (b : Block) (r k : Nat) : cell b r k = byteOf b (4 * k + r) := by
  rw [cell, Nat.add_comm]

/-- Settles O20: each row of the map reads the words of its register, and a word is made of its bytes. -/
theorem busWordsAreBigEndian : Obligations.BusWordsAreBigEndian := by
  unfold Obligations.BusWordsAreBigEndian
  intro s
  refine ⟨fun k hk => ⟨?din, ?dout, ?state, ?h, ?x, ?j0, ?cb, ?tag, ?rtag⟩, fun k hk => ?nonce,
    rfl, rfl, rfl, rfl, rfl, rfl, fun i hi => readWord_row (slot := .ks) (by simp [windowMap]) hi s⟩
  case din => exact readWord_row_bytes (n := 4) (slot := .din) s.din (by simp [windowMap]) (fun _ => rfl) hk
  case dout => exact readWord_row_bytes (n := 4) (slot := .dout) s.dout (by simp [windowMap]) (fun _ => rfl) hk
  case state =>
    simp only [cell_eq_byteOf]
    exact readWord_row_bytes (n := 4) (slot := .state) s.state (by simp [windowMap]) (fun _ => rfl) hk
  case h => exact readWord_row_bytes (n := 4) (slot := .h) s.h (by simp [windowMap]) (fun _ => rfl) hk
  case x => exact readWord_row_bytes (n := 4) (slot := .x) s.x (by simp [windowMap]) (fun _ => rfl) hk
  case j0 => exact readWord_row_bytes (n := 4) (slot := .j0) s.j0 (by simp [windowMap]) (fun _ => rfl) hk
  case cb => exact readWord_row_bytes (n := 4) (slot := .cb) s.cb (by simp [windowMap]) (fun _ => rfl) hk
  case tag => exact readWord_row_bytes (n := 4) (slot := .tag) s.tag (by simp [windowMap]) (fun _ => rfl) hk
  case rtag => exact readWord_row_bytes (n := 4) (slot := .rtag) s.rtag (by simp [windowMap]) (fun _ => rfl) hk
  case nonce => exact readWord_row_bytes (n := 3) (slot := .nonce) s.nonce (by simp [windowMap]) (fun _ => rfl) hk

end Sys2Proof.Machine
end

/-! # What a write leaves (20_memory.md R33, R34, R40) -/

section

namespace Sys2Proof.Machine

/-- Settles O18: the register words at these offsets are those a write ignores. -/
theorem otherWritesAreIgnored : Obligations.OtherWritesAreIgnored := by
  unfold Obligations.OtherWritesAreIgnored
  intro s off v hb h4 hoff
  have h := slotAt_isAt off h4
  rw [writeWord_idle off v hb]
  cases hs : slotAt off with
  | result | dout k | j0 k | tag k | alen k | clen k | ks k | reserved => rfl
  | _ => simp only [hs, Slot.IsAt] at h; omega

/-- The words that R33 marks RW. -/
def Slot.isReadWrite : Slot → Bool
  | .din _ => true
  | .state _ => true
  | .h _ => true
  | .x _ => true
  | .cb _ => true
  | .nonce _ => true
  | .rtag _ => true
  | _ => false

/-- The addresses of the read-write words. -/
theorem Slot.IsAt.isReadWrite {slot : Slot} {off : Nat} (h : slot.IsAt off)
    (hoff : (0x030 ≤ off ∧ off ≤ 0x03C) ∨ (0x050 ≤ off ∧ off ≤ 0x07C) ∨ (0x090 ≤ off ∧ off ≤ 0x0A8) ∨
      (0x0C0 ≤ off ∧ off ≤ 0x0CC)) : slot.isReadWrite = true := by
  cases slot with
  | din k | state k | h k | x k | cb k | nonce k | rtag k => rfl
  | _ => simp only [Slot.IsAt] at h; omega

/-- A read-write word reads as written. -/
theorem readSlot_writeSlot_same {slot : Slot} {off : Nat} (v : Word) (s : State) (h : slot.IsAt off)
    (hrw : slot.isReadWrite = true) : readSlot slot (writeSlot slot v s) = v := by
  cases slot with
  | din k => exact wordOf_setWord_same (n := 4) s.din k v h.1
  | state k => exact wordOf_setWord_same (n := 4) s.state k v h.1
  | h k => exact wordOf_setWord_same (n := 4) s.h k v h.1
  | x k => exact wordOf_setWord_same (n := 4) s.x k v h.1
  | cb k => exact wordOf_setWord_same (n := 4) s.cb k v h.1
  | nonce k => exact wordOf_setWord_same (n := 3) s.nonce k v h.1
  | rtag k => exact wordOf_setWord_same (n := 4) s.rtag k v h.1
  | _ => cases hrw

/-- A write of a read-write word leaves the other words of its register, and every other register. -/
theorem readSlot_writeSlot_other {slot slot' : Slot} {off off' : Nat} (v : Word) (s : State) (h : slot.IsAt off)
    (h' : slot'.IsAt off') (hrw : slot.isReadWrite = true) (hne : slot' ≠ slot) :
    readSlot slot' (writeSlot slot v s) = readSlot slot' s := by
  cases slot with
  | din k => cases slot' with
    | din l => exact wordOf_setWord_other (n := 4) s.din k l v h.1 h'.1 fun e => hne (congrArg Slot.din e)
    | _ => rfl
  | state k => cases slot' with
    | state l => exact wordOf_setWord_other (n := 4) s.state k l v h.1 h'.1 fun e => hne (congrArg Slot.state e)
    | _ => rfl
  | h k => cases slot' with
    | h l => exact wordOf_setWord_other (n := 4) s.h k l v h.1 h'.1 fun e => hne (congrArg Slot.h e)
    | _ => rfl
  | x k => cases slot' with
    | x l => exact wordOf_setWord_other (n := 4) s.x k l v h.1 h'.1 fun e => hne (congrArg Slot.x e)
    | _ => rfl
  | cb k => cases slot' with
    | cb l => exact wordOf_setWord_other (n := 4) s.cb k l v h.1 h'.1 fun e => hne (congrArg Slot.cb e)
    | _ => rfl
  | nonce k => cases slot' with
    | nonce l => exact wordOf_setWord_other (n := 3) s.nonce k l v h.1 h'.1 fun e => hne (congrArg Slot.nonce e)
    | _ => rfl
  | rtag k => cases slot' with
    | rtag l => exact wordOf_setWord_other (n := 4) s.rtag k l v h.1 h'.1 fun e => hne (congrArg Slot.rtag e)
    | _ => rfl
  | _ => cases hrw

/-- No read-write word is a word of KEY or CMD. -/
theorem writeSlot_readWrite_hidden {slot : Slot} (v : Word) (s : State) (hrw : slot.isReadWrite = true) :
    (writeSlot slot v s).key = s.key ∧ (writeSlot slot v s).pending = s.pending := by
  cases slot with
  | din k | state k | h k | x k | cb k | nonce k | rtag k => exact ⟨rfl, rfl⟩
  | _ => cases hrw

/-- Settles O16: the written offset holds a read-write word, and no other offset holds the same word. -/
theorem registerWritesReadBack : Obligations.RegisterWritesReadBack := by
  unfold Obligations.RegisterWritesReadBack
  intro s off off' v hb h4 h4' _ hoff
  have h := slotAt_isAt off h4
  have h' := slotAt_isAt off' h4'
  have hrw := h.isReadWrite hoff
  rw [writeWord_idle off v hb]
  refine ⟨?_, writeSlot_readWrite_hidden v s hrw⟩
  split
  · next e => rw [e]; exact readSlot_writeSlot_same v s h hrw
  · next e =>
    refine readSlot_writeSlot_other v s h h' hrw fun same => e ?_
    exact h.unique (same ▸ h') fun hr => by rw [hr] at hrw; cases hrw

end Sys2Proof.Machine
end

/-! # Accesses that are not made, and reads (20_memory.md R38, R40, R41, 60_exceptions.md R123) -/

section

namespace Sys2Proof.Machine

/-- MMIO_BASE is aligned (R8). -/
theorem mmioBase_mod_four : Config.mmioBase % 4 = 0 := by
  unfold Config.mmioBase
  omega

/-- An access past the window is not the core's (R123). -/
theorem accessAt_pastWindow {off : Nat} (bytes : Nat) (op : BusOp) (s : State) (h : 4096 ≤ off) :
    accessAt off bytes op s = respond (.outside (Config.mmioBase + off)) s :=
  if_pos h

/-- An access in the window that is not 32 bits wide at a multiple of 4 is refused (R38). -/
theorem accessAt_misaligned {off bytes : Nat} (op : BusOp) (s : State) (h : off < 4096)
    (hbad : bytes ≠ 4 ∨ off % 4 ≠ 0) :
    accessAt off bytes op s = respond (.accessFault (Config.mmioBase + off)) s :=
  (if_neg (Nat.not_le.2 h)).trans (if_pos hbad)

/-- An address of the window is MMIO_BASE plus an offset with the same alignment (R32). -/
theorem exists_offset {addr : Nat} (h : Config.mmioBase ≤ addr) :
    ∃ off, addr = Config.mmioBase + off ∧ off % 4 = addr % 4 := by
  obtain ⟨off, rfl⟩ := Nat.exists_eq_add_of_le h
  have := mmioBase_mod_four
  exact ⟨off, rfl, by omega⟩

/-- Settles O13: such an access is misaligned at its offset too, MMIO_BASE being aligned. -/
theorem badAccessesChangeNothing : Obligations.BadAccessesChangeNothing := by
  unfold Obligations.BadAccessesChangeNothing
  intro s addr bytes op hlo hhi hbad
  obtain ⟨off, rfl, hmod⟩ := exists_offset hlo
  rw [busAccess_base_add, accessAt_misaligned op s (by omega) (by omega)]
  rfl

/-- An access whose address is outside the window is not the core's (R123). -/
theorem busAccess_outside {addr : Nat} (bytes : Nat) (op : BusOp) (s : State)
    (h : addr < Config.mmioBase ∨ Config.mmioBase + 4096 ≤ addr) :
    busAccess ⟨addr, bytes, op⟩ s = respond (.outside addr) s := by
  obtain hlo | hhi := h
  · exact if_pos hlo
  · obtain ⟨off, rfl, -⟩ := exists_offset (Nat.le_of_add_right_le hhi)
    rw [busAccess_base_add, accessAt_pastWindow bytes op s (by omega)]

/-- A procedure's read that is refused gives no data and ends it (R38, R123). -/
theorem hostLoad_misaligned (x : Nat) (h : HostRun) (s : State) {off : Nat} (ho : off < 4096) (h4 : off % 4 ≠ 0) :
    hostLoad x (.window (.num off)) h s =
      (h.finish (.faulted (Config.mmioBase + off)), respond (.accessFault (Config.mmioBase + off)) s) := by
  have e : hostAccess (.window (.num off)) h.locals .read s = respond (.accessFault (Config.mmioBase + off)) s :=
    accessAt_misaligned (off := off) .read s ho (.inr h4)
  unfold hostLoad
  rw [e]
  rfl

/-- A procedure's read past the window gives the platform's next word (R34, assumption log 19). -/
theorem hostLoad_pastWindow (x : Nat) (h : HostRun) (s : State) {off : Nat} (ho : 4096 ≤ off) :
    hostLoad x (.window (.num off)) h s =
      (h.set x (.num (Config.platformWord s.platformReads).toNat),
        { respond (.outside (Config.mmioBase + off)) s with platformReads := s.platformReads + 1 }) := by
  have e : hostAccess (.window (.num off)) h.locals .read s = respond (.outside (Config.mmioBase + off)) s :=
    accessAt_pastWindow (off := off) 4 .read s ho
  unfold hostLoad
  rw [e]
  rfl

/-- Settles O14: a bus read, an access outside the window, and the three things a procedure's read can be. -/
theorem readsHaveNoSideEffect : Obligations.ReadsHaveNoSideEffect := by
  unfold Obligations.ReadsHaveNoSideEffect
  refine ⟨fun s addr hlo hhi h4 => ?_, fun s addr bytes op h => busAccess_outside bytes op s h,
    fun s h x off rest he hr => ?_⟩
  · obtain ⟨off, rfl, hmod⟩ := exists_offset hlo
    rw [busAccess_base_add, accessAt_ok .read s (by omega) (by omega), Nat.add_sub_cancel_left]
    rfl
  · rw [hostStep_running s he hr]
    exact ⟨fun ho h4 => hostLoad_window x _ s ho h4, fun ho h4 => hostLoad_misaligned x _ s ho h4,
      fun ho => ⟨_, _, hostLoad_pastWindow x _ s ho⟩⟩

end Sys2Proof.Machine
end

/-! # The formats of a command word (30_encoding.md R48)

A word is of a format exactly when it agrees with OP under the format's mask and the word's fields are the format's: the
mask covers OP and the reserved bits, and the fields are the rest. -/

section

namespace Sys2Proof.Laws

/-- Low parts of two words are equal exactly when both parts they are cut into are, the lower one of `b` bits. -/
theorem low_eq_iff_cut {n : Nat} {v w : BitVec n} (a b : Nat) {len : Nat} (h : len = a + b) :
    v.extractLsb' 0 len = w.extractLsb' 0 len ↔
      v.extractLsb' b a = w.extractLsb' b a ∧ v.extractLsb' 0 b = w.extractLsb' 0 b := by
  subst h
  rw [← BitVec.extractLsb'_append_extractLsb'_eq_extractLsb' (x := v) (Nat.zero_add b).symm,
    ← BitVec.extractLsb'_append_extractLsb'_eq_extractLsb' (x := w) (Nat.zero_add b).symm]
  constructor
  · intro h
    have high := congrArg (BitVec.extractLsb' b a) h
    have low := congrArg (BitVec.extractLsb' 0 b) h
    simp only [BitVec.extractLsb'_append_eq_left, BitVec.extractLsb'_append_eq_right] at high low
    exact ⟨high, low⟩
  · rintro ⟨high, low⟩
    rw [high, low]

/-- Two words are equal exactly when both parts they are cut into are. -/
theorem word_eq_iff_cut {v w : Word} (a b : Nat) (h : 32 = a + b) :
    v = w ↔ v.extractLsb' b a = w.extractLsb' b a ∧ v.extractLsb' 0 b = w.extractLsb' 0 b := by
  rw [← low_eq_iff_cut a b h, BitVec.extractLsb'_eq_self, BitVec.extractLsb'_eq_self]

/-! ## Fields under a mask -/

/-- A field that the mask covers stays. -/
theorem extract_and_covered {n lo len : Nat} (w : BitVec n) {mask : BitVec n}
    (h : mask.extractLsb' lo len = BitVec.allOnes len) : (w &&& mask).extractLsb' lo len = w.extractLsb' lo len := by
  rw [BitVec.extractLsb'_and, h, BitVec.and_allOnes]

/-- A field that the mask leaves out is cleared. -/
theorem extract_and_free {n lo len : Nat} (w : BitVec n) {mask : BitVec n} (h : mask.extractLsb' lo len = 0#len) :
    (w &&& mask).extractLsb' lo len = 0#len := by
  rw [BitVec.extractLsb'_and, h, BitVec.and_zero]

/-- A word of OP alone has zeros above it. -/
theorem extract_formatN_high {lo : Nat} (len : Nat) (op : BitVec 6) (h : 6 ≤ lo) :
    (formatN op).extractLsb' lo len = 0#len := by
  rw [formatN, BitVec.extractLsb'_append_eq_of_le h, BitVec.extractLsb'_zero]

theorem extract_formatN_op (op : BitVec 6) : (formatN op).extractLsb' 0 6 = op := op_of_append _ _ _

/-! ## Formats -/

theorem eq_formatN_iff {op : BitVec 6} {w : Word} : w = formatN op ↔ w &&& 0xFFFFFFFF#32 = formatN op := by
  rw [show 0xFFFFFFFF#32 = BitVec.allOnes 32 by decide, BitVec.and_allOnes]

theorem eq_formatK_iff {kl : BitVec 2} {op : BitVec 6} {w : Word} :
    w = formatK kl op ↔ w &&& 0xFFFFFF3F#32 = formatN op ∧ klOf w = kl := by
  simp only [word_eq_iff_cut 24 8 rfl, low_eq_iff_cut 2 6 rfl]
  simp (disch := decide) only [formatK, klOf, extract_and_covered, extract_and_free, extract_formatN_high,
    extract_formatN_op, BitVec.extractLsb'_append_eq_of_le, BitVec.extractLsb'_append_eq_of_add_le, Nat.reduceSub,
    BitVec.extractLsb'_eq_self, true_and]
  tauto

theorem eq_formatR_iff {rnd : BitVec 4} {op : BitVec 6} {w : Word} :
    w = formatR rnd op ↔ w &&& 0xFFFFF0FF#32 = formatN op ∧ w.extractLsb' 8 4 = rnd := by
  simp only [word_eq_iff_cut 20 12 rfl, low_eq_iff_cut 4 8 rfl, low_eq_iff_cut 2 6 rfl]
  simp (disch := decide) only [formatR, extract_and_covered, extract_and_free, extract_formatN_high,
    extract_formatN_op, BitVec.extractLsb'_append_eq_of_le, BitVec.extractLsb'_append_eq_of_add_le, Nat.reduceSub,
    BitVec.extractLsb'_eq_self, true_and]
  tauto

theorem eq_formatM_iff {b a : Byte} {op : BitVec 6} {w : Word} :
    w = formatM b a op ↔ w &&& 0xFF0000FF#32 = formatN op ∧ bOf w = b ∧ aOf w = a := by
  simp only [word_eq_iff_cut 8 24 rfl, low_eq_iff_cut 8 16 rfl, low_eq_iff_cut 8 8 rfl, low_eq_iff_cut 2 6 rfl]
  simp (disch := decide) only [formatM, aOf, bOf, extract_and_covered, extract_and_free, extract_formatN_high,
    extract_formatN_op, BitVec.extractLsb'_append_eq_of_le, BitVec.extractLsb'_append_eq_of_add_le, Nat.reduceSub,
    BitVec.extractLsb'_eq_self, true_and]
  tauto

theorem eq_formatL_iff {f : BitVec 1} {nb : BitVec 5} {op : BitVec 6} {w : Word} :
    w = formatL f nb op ↔ w &&& 0xFFFEE0FF#32 = formatN op ∧ fOf w = f ∧ w.extractLsb' 8 5 = nb := by
  simp only [word_eq_iff_cut 15 17 rfl, low_eq_iff_cut 1 16 rfl, low_eq_iff_cut 3 13 rfl, low_eq_iff_cut 5 8 rfl,
    low_eq_iff_cut 2 6 rfl]
  simp (disch := decide) only [formatL, fOf, extract_and_covered, extract_and_free, extract_formatN_high,
    extract_formatN_op, BitVec.extractLsb'_append_eq_of_le, BitVec.extractLsb'_append_eq_of_add_le, Nat.reduceSub,
    BitVec.extractLsb'_eq_self, true_and]
  tauto

end Sys2Proof.Laws
end

/-! # The opcode map (30_encoding.md R49, R50) -/

section

namespace Sys2Proof.Laws

/-! ## The row of a command -/

/-- A row builds commands of its own OP. -/
theorem build_opcode {r : Row} (hr : r ∈ opcodeTable) (w : Word) : (r.build w).opcode = opOf r.pattern := by
  have column : opcodeTable.map (fun r => (r.build w).opcode) = opcodeTable.map (fun r => opOf r.pattern) := rfl
  exact List.map_inj_left.1 column r hr

/-- No two rows have one OP. -/
theorem row_eq_of_op {r r' : Row} (hr : r ∈ opcodeTable) (hr' : r' ∈ opcodeTable)
    (h : opOf r.pattern = opOf r'.pattern) : r = r' := by
  have distinct : (opcodeTable.map fun r => opOf r.pattern).Nodup := by decide
  exact List.inj_on_of_nodup_map distinct hr hr' h

/-- A word decodes to a command exactly when it matches the row with the command's OP and the row builds the command. -/
theorem decode_ok_iff_row {w : Word} {i : Instr} {r : Row}
    (hr : opcodeTable.find? (fun r => opOf r.pattern == i.opcode) = some r) :
    decode w = .ok i ↔ w &&& r.mask = r.pattern ∧ r.build w = i := by
  rw [decode_ok_iff]
  have mem := List.mem_of_find?_eq_some hr
  constructor
  · rintro ⟨r', hr', hm, rfl⟩
    have op : opOf r.pattern = (r'.build w).opcode := by simpa using List.find?_some hr
    have same := row_eq_of_op mem hr' (op.trans (build_opcode hr' w))
    rw [same]
    exact ⟨hm, rfl⟩
  · exact fun ⟨hm, hb⟩ => ⟨r, mem, hm, hb⟩

/-- A command without operands is its row's match alone. -/
theorem decode_plain_iff {w mask pattern : Word} {i : Instr} {mnemonic : String}
    (hr : opcodeTable.find? (fun r => opOf r.pattern == i.opcode) = some ⟨mnemonic, pattern, mask, fun _ => i⟩) :
    decode w = .ok i ↔ w &&& mask = pattern := by
  rw [decode_ok_iff_row hr, eq_self, and_true]

/-! ## Field values -/

theorem keyCode_ofBits_eq_iff {b : BitVec 2} {kl : KeyCode} : KeyCode.ofBits b = kl ↔ b = kl.bits := by
  cases kl <;> decide +revert

theorem src_ofBit_eq_iff {b : BitVec 1} {src : Src} : Src.ofBit b = src ↔ b = src.bit := by
  cases src <;> decide +revert

theorem dir_ofBit_eq_iff {b : BitVec 1} {dir : Dir} : Dir.ofBit b = dir ↔ b = dir.bit := by
  cases dir <;> decide +revert

/-! ## Commands with operands -/

theorem decode_keyExpand_iff {w : Word} {kl : KeyCode} :
    decode w = .ok (.keyExpand kl) ↔ w &&& 0xFFFFFF3F#32 = 0x01#32 ∧ klOf w = kl.bits := by
  rw [decode_ok_iff_row (i := .keyExpand kl) rfl, Instr.keyExpand.injEq, keyCode_ofBits_eq_iff]

theorem decode_addRoundKey_iff {w : Word} {rnd : Nat} :
    decode w = .ok (.addRoundKey rnd) ↔ w &&& 0xFFFFF0FF#32 = 0x0E#32 ∧ rnd = rndOf w := by
  rw [decode_ok_iff_row (i := .addRoundKey rnd) rfl, Instr.addRoundKey.injEq, eq_comm (a := rnd)]

theorem decode_gf8Mul_iff {w : Word} {a b : Byte} :
    decode w = .ok (.gf8Mul a b) ↔ w &&& 0xFF0000FF#32 = 0x10#32 ∧ a = aOf w ∧ b = bOf w := by
  rw [decode_ok_iff_row (i := .gf8Mul a b) rfl, Instr.gf8Mul.injEq, eq_comm (a := a), eq_comm (a := b)]

theorem decode_ghashAad_iff {w : Word} {nb : Nat} {src : Src} :
    decode w = .ok (.ghashAad nb src) ↔ w &&& 0xFFFEE0FF#32 = 0x19#32 ∧ nb = nbOf w ∧ fOf w = src.bit := by
  rw [decode_ok_iff_row (i := .ghashAad nb src) rfl, Instr.ghashAad.injEq, eq_comm (a := nb), src_ofBit_eq_iff]

theorem decode_ghashCt_iff {w : Word} {nb : Nat} {src : Src} :
    decode w = .ok (.ghashCt nb src) ↔ w &&& 0xFFFEE0FF#32 = 0x1A#32 ∧ nb = nbOf w ∧ fOf w = src.bit := by
  rw [decode_ok_iff_row (i := .ghashCt nb src) rfl, Instr.ghashCt.injEq, eq_comm (a := nb), src_ofBit_eq_iff]

theorem decode_gctr_iff {w : Word} {nb : Nat} {dir : Dir} :
    decode w = .ok (.gctr nb dir) ↔ w &&& 0xFFFEE0FF#32 = 0x22#32 ∧ nb = nbOf w ∧ fOf w = dir.bit := by
  rw [decode_ok_iff_row (i := .gctr nb dir) rfl, Instr.gctr.injEq, eq_comm (a := nb), dir_ofBit_eq_iff]

/-- The bit F is `w[16]` (R49). -/
theorem fOf_eq_one_iff {w : Word} : fOf w = 1 ↔ w.getLsbD 16 = true := by
  rw [fOf, BitVec.eq_of_getLsbD_eq_iff]
  simp

theorem fOf_eq_srcBit_iff {w : Word} {src : Src} : fOf w = src.bit ↔ (src = .dout ↔ w.getLsbD 16 = true) := by
  rw [← fOf_eq_one_iff]
  generalize fOf w = f
  cases src <;> decide +revert

theorem fOf_eq_dirBit_iff {w : Word} {dir : Dir} : fOf w = dir.bit ↔ (dir = .opening ↔ w.getLsbD 16 = true) := by
  rw [← fOf_eq_one_iff]
  generalize fOf w = f
  cases dir <;> decide +revert

/-- Settles O3: each command has one row, whose match and fields are the ones listed. -/
theorem opcodeMap : Obligations.OpcodeMap := by
  unfold Obligations.OpcodeMap
  intro w
  refine ⟨decode_plain_iff rfl, fun kl => ?keyExpand, decode_plain_iff rfl, decode_plain_iff rfl,
    decode_plain_iff rfl, decode_plain_iff rfl, decode_plain_iff rfl, decode_plain_iff rfl,
    decode_plain_iff rfl, decode_plain_iff rfl, fun rnd => decode_addRoundKey_iff, fun a b => decode_gf8Mul_iff,
    decode_plain_iff rfl, decode_plain_iff rfl, fun nb src => ?ghashAad, fun nb src => ?ghashCt,
    decode_plain_iff rfl, decode_plain_iff rfl, decode_plain_iff rfl, fun nb dir => ?gctr,
    decode_plain_iff rfl, decode_plain_iff rfl⟩
  case keyExpand =>
    rw [decode_keyExpand_iff, ← BitVec.toNat_inj (y := kl.bits)]
    cases kl <;> rfl
  case ghashAad => rw [decode_ghashAad_iff, fOf_eq_srcBit_iff]; rfl
  case ghashCt => rw [decode_ghashCt_iff, fOf_eq_srcBit_iff]; rfl
  case gctr => rw [decode_gctr_iff, fOf_eq_dirBit_iff]; rfl

end Sys2Proof.Laws
end

/-! # Decoding and encoding are inverse (30_encoding.md R48 to R50) -/

section

namespace Sys2Proof.Laws

/-- A number is the value of a field exactly when it fits the field and is written there. -/
theorem eq_toNat_iff {n k : Nat} {x : BitVec n} : k = x.toNat ↔ k < 2 ^ n ∧ x = BitVec.ofNat n k := by
  constructor
  · rintro rfl
    exact ⟨x.isLt, by simp⟩
  · rintro ⟨h, rfl⟩
    rw [BitVec.toNat_ofNat, Nat.mod_eq_of_lt h]

theorem eq_rndOf_iff {w : Word} {rnd : Nat} :
    rnd = rndOf w ↔ rndFits rnd = true ∧ w.extractLsb' 8 4 = BitVec.ofNat 4 rnd := by
  rw [rndFits, decide_eq_true_iff]
  exact eq_toNat_iff

theorem eq_nbOf_iff {w : Word} {nb : Nat} :
    nb = nbOf w ↔ nbFits nb = true ∧ w.extractLsb' 8 5 = BitVec.ofNat 5 nb := by
  rw [nbFits, decide_eq_true_iff]
  exact eq_toNat_iff

/-- In format L, NB as a number and F are the fields of the word. -/
theorem eq_formatL_ofNat_iff {f : BitVec 1} {nb : Nat} {op : BitVec 6} {w : Word} :
    w &&& 0xFFFEE0FF#32 = formatN op ∧ nb = nbOf w ∧ fOf w = f ↔
      nbFits nb = true ∧ w = formatL f (BitVec.ofNat 5 nb) op := by
  rw [eq_formatL_iff, eq_nbOf_iff]
  tauto

/-- A command without operands decodes from its encoding only. -/
theorem decode_plain_iff_encode {w : Word} {i : Instr} {mnemonic : String}
    (hr : opcodeTable.find? (fun r => opOf r.pattern == i.opcode) =
      some ⟨mnemonic, formatN i.opcode, 0xFFFFFFFF#32, fun _ => i⟩)
    (hwf : i.wf = true) (he : encode i = formatN i.opcode) :
    decode w = .ok i ↔ i.wf = true ∧ w = encode i := by
  rw [decode_plain_iff hr, ← eq_formatN_iff, he, hwf, eq_self, true_and]

/-- A word decodes to a command exactly when the command is well formed and the word is its encoding. -/
theorem decode_ok_iff_encode (w : Word) (i : Instr) : decode w = .ok i ↔ i.wf = true ∧ w = encode i := by
  cases i with
  | keyExpand kl => exact decode_keyExpand_iff.trans ((eq_formatK_iff (op := 0x01)).symm.trans (and_iff_right rfl).symm)
  | addRoundKey rnd =>
    rw [decode_addRoundKey_iff, eq_rndOf_iff]
    exact and_left_comm.trans (and_congr_right' (eq_formatR_iff (op := 0x0E)).symm)
  | gf8Mul a b =>
    rw [decode_gf8Mul_iff, eq_comm (a := a), eq_comm (a := b), and_comm (a := aOf w = a)]
    exact (eq_formatM_iff (op := 0x10)).symm.trans (and_iff_right rfl).symm
  | ghashAad nb src => exact decode_ghashAad_iff.trans (eq_formatL_ofNat_iff (op := 0x19))
  | ghashCt nb src => exact decode_ghashCt_iff.trans (eq_formatL_ofNat_iff (op := 0x1A))
  | gctr nb dir => exact decode_gctr_iff.trans (eq_formatL_ofNat_iff (op := 0x22))
  | _ => exact decode_plain_iff_encode rfl rfl rfl

/-- Settles O1: the word is the command's encoding, so by `decode_ok_iff_encode` it decodes to the command. -/
theorem encodeDecodeRoundTrip : Obligations.EncodeDecodeRoundTrip := by
  unfold Obligations.EncodeDecodeRoundTrip
  exact fun i hwf => (decode_ok_iff_encode (encode i) i).2 ⟨hwf, rfl⟩

/-- Settles O2: `decode_ok_iff_encode` names the only word that decodes to a command. -/
theorem decodedWordIsItsEncoding : Obligations.DecodedWordIsItsEncoding := by
  unfold Obligations.DecodedWordIsItsEncoding
  intro w i h
  obtain ⟨hwf, hw⟩ := (decode_ok_iff_encode w i).1 h
  exact ⟨hwf, hw.symm⟩

/-- Settles O4: each word is the encoding of its command, written out. -/
theorem specWordsDecode : Obligations.SpecWordsDecode := by
  unfold Obligations.SpecWordsDecode
  have decodes (i : Instr) (hwf : i.wf = true) : decode (encode i) = .ok i := encodeDecodeRoundTrip i hwf
  exact ⟨decodes .nop rfl, decodes (.keyExpand .k256) rfl, decodes .invShiftRows rfl, decodes (.addRoundKey 14) rfl,
    decodes (.gf8Mul 0x57 0x83) rfl, decodes (.ghashCt 16 .dout) rfl, decodes (.gctr 5 .opening) rfl⟩

end Sys2Proof.Laws
end

/-! # Illegal words (30_encoding.md R51) -/

section

namespace Sys2Proof.Laws

open Sys2Proof.Machine

theorem opAssigned_iff {op : BitVec 6} : opAssigned op = true ↔ ∃ r ∈ opcodeTable, opOf r.pattern = op := by
  simp [opAssigned]

/-- The OPs that no row has. -/
theorem opAssigned_eq_false_iff (op : BitVec 6) :
    opAssigned op = false ↔
      (0x04 ≤ op.toNat ∧ op.toNat ≤ 0x07) ∨ op.toNat = 0x0F ∨ (0x12 ≤ op.toNat ∧ op.toNat ≤ 0x17) ∨
        (0x1C ≤ op.toNat ∧ op.toNat ≤ 0x1F) ∨ 0x25 ≤ op.toNat := by
  decide +revert

/-- A word with an unassigned OP matches no row. -/
theorem no_match_of_unassigned {w : Word} (h : opAssigned (opOf w) = false) :
    ∀ r ∈ opcodeTable, w &&& r.mask ≠ r.pattern := by
  intro r hr hm
  have assigned := opAssigned_iff.2 ⟨r, hr, (op_of_match hr hm).symm⟩
  rw [h] at assigned
  cases assigned

theorem decode_unassigned_iff {w : Word} :
    decode w = .error .unassignedOpcode ↔ opAssigned (opOf w) = false := by
  rw [decode_error_iff]
  cases h : opAssigned (opOf w) with
  | false => exact iff_of_true ⟨no_match_of_unassigned h, rfl⟩ rfl
  | true => simp

theorem decode_reserved_iff {w : Word} :
    decode w = .error .reservedBitSet ↔
      opAssigned (opOf w) = true ∧ ∀ r ∈ opcodeTable, w &&& r.mask ≠ r.pattern := by
  rw [decode_error_iff]
  cases opAssigned (opOf w) <;> simp

/-- A host's write to CMD while BUSY = 0 latches the word, legal or not (R57). -/
theorem busAccess_writeCmd {s : State} (w : Word) (h : s.busy = false) :
    busAccess ⟨Config.mmioBase, 4, .write w⟩ s = respond .done (latch w s) := by
  have access : busAccess ⟨Config.mmioBase, 4, .write w⟩ s = respond .done (writeWord 0x000 w s) :=
    (busAccess_base_add 0x000 4 (.write w) s).trans (accessAt_ok _ s (by decide) (by decide))
  rw [access, writeWord_idle _ w h]
  rfl

/-- The core's turn with an illegal word pending fails with ILLEGAL_OP (R51, R58). -/
theorem step_illegal {s : State} {e : Reject} (ht : turnOf s = .core) (hb : s.busy = true)
    (hd : decode s.pending = .error e) :
    step s = .next { popTurn s with err := true, errcode := .illegalOp, busy := false } :=
  (step_core ht hb).trans (perform_error hd)

/-- Settles O5: OP alone says which kind a word is, a CMD write latches any word, and the core's turn refuses it. -/
theorem illegalWordsFail : Obligations.IllegalWordsFail := by
  unfold Obligations.IllegalWordsFail
  refine ⟨fun w => decode_unassigned_iff.trans (opAssigned_eq_false_iff _),
    fun w => decode_reserved_iff.trans (and_congr_left' opAssigned_iff), fun s w e _ hb => ?_,
    fun s e ht hb hd => step_illegal ht hb hd⟩
  rw [busAccess_writeCmd w hb]
  exact ⟨rfl, rfl, rfl⟩

end Sys2Proof.Laws
end

/-! # WAIT (30_encoding.md R55, 40_command_engine.md R62) -/

section

namespace Sys2Proof.Machine

/-- The test of WAIT, on a STATUS just read (R55). -/
theorem waitTest_statusWord (x : Nat) (s : State) (vs : List Val) :
    (HostCond.eq (.field (.var x) 0 1) (.num 1)).holds (setLocal x (.num (statusWord s).toNat) vs) = s.busy := by
  obtain ⟨busy, -, -⟩ := statusWord_bits s
  simp only [HostCond.holds, HostExpr.eval, getLocal_setLocal, Val.toNum, field_one, busy]
  cases s.busy <;> rfl

/-- One turn of WAIT reads STATUS, and stays at WAIT while BUSY = 1. -/
theorem hostWait_eq (x : Nat) (h : HostRun) (s : State) :
    hostWait x h s =
      ({ h.set x (.num (statusWord s).toNat) with rest := if s.busy then .wait x :: h.rest else h.rest },
        { s with response := some (.data (statusWord s)) }) := by
  have load : hostLoad x (.window (.num 0x004)) h s =
      (h.set x (.num (statusWord s).toNat), { s with response := some (.data (statusWord s)) }) :=
    hostLoad_window x h s (by decide) (by decide)
  unfold hostWait
  simp only [load, HostRun.set, waitTest_statusWord]
  cases s.busy <;> rfl

/-- Settles O22: WAIT's turn in the two values of the BUSY it reads. -/
theorem waitPollsBusy : Obligations.WaitPollsBusy := by
  unfold Obligations.WaitPollsBusy
  intro s h x rest he hr
  have turn : hostStep h s = hostWait x { h with rest := rest } s := hostStep_running s he hr
  obtain ⟨prog, text, locals, ending⟩ := h
  cases he
  cases hr
  rw [turn, hostWait_eq]
  exact ⟨fun hb => by rw [hb]; rfl, fun hb => by rw [hb]; rfl⟩

end Sys2Proof.Machine
end

/-! # Nothing stops the machine (40_command_engine.md R56, R58, 60_exceptions.md R120, R123) -/

section

namespace Sys2Proof.Machine

/-- A check answers a state when the rest of the command does: its failure is an error recorded in STATUS (R120). -/
theorem failIf_answers {c : Bool} {code : ErrCode} {s : State} {rest : Result} (h : ∃ t, rest = .next t) :
    ∃ t, failIf c code s rest = .next t := by
  cases c with
  | true => exact ⟨_, rfl⟩
  | false => exact h

theorem needKey_answers {s : State} {rest : Result} (h : ∃ t, rest = .next t) : ∃ t, needKey s rest = .next t :=
  failIf_answers h

/-- Every command has a next state in every state. -/
theorem exec_answers (i : Instr) (s : State) : ∃ t, exec i s = .next t := by
  cases i with
  | keyExpand kl => cases kl <;> exact ⟨_, rfl⟩
  | encrypt => exact needKey_answers ⟨_, rfl⟩
  | decrypt => exact needKey_answers ⟨_, rfl⟩
  | addRoundKey rnd => exact needKey_answers (failIf_answers ⟨_, rfl⟩)
  | ghashInit => exact needKey_answers ⟨_, rfl⟩
  | ghashAad nb src => exact failIf_answers ⟨_, rfl⟩
  | ghashCt nb src => exact failIf_answers ⟨_, rfl⟩
  | gctr nb dir => exact needKey_answers (failIf_answers (failIf_answers ⟨_, rfl⟩))
  | gcmTag => exact needKey_answers ⟨_, rfl⟩
  | gcmVerify => exact failIf_answers ⟨_, rfl⟩
  | _ => exact ⟨_, rfl⟩

theorem perform_answers (s : State) : ∃ t, perform s = .next t := by
  cases hd : decode s.pending with
  | ok i =>
    obtain ⟨t, ht⟩ := exec_answers i s
    exact ⟨complete t, by rw [perform_ok hd, ht]; rfl⟩
  | error e => exact ⟨_, perform_error hd⟩

theorem coreTurn_answers (s : State) : ∃ t, coreTurn s = .next t := by
  unfold coreTurn
  split
  · exact perform_answers s
  · exact ⟨s, rfl⟩

theorem takeTurn_answers (turn : Turn) (s : State) : ∃ t, takeTurn turn s = .next t := by
  cases turn with
  | core => exact coreTurn_answers s
  | access a => exact ⟨_, rfl⟩
  | host k => exact ⟨_, rfl⟩
  | reset => exact ⟨_, rfl⟩

/-- Whichever agent has the turn, its step answers a state. -/
theorem step_answers (s : State) : ∃ t, step s = .next t := by
  rw [step_takeTurn]
  exact takeTurn_answers (turnOf s) (popTurn s)

/-- Settles O8, by induction on the number of steps. -/
theorem machineNeverStops : Obligations.MachineNeverStops := by
  unfold Obligations.MachineNeverStops
  intro n
  induction n with
  | zero => exact fun s => ⟨s, rfl⟩
  | succ n ih =>
    intro s
    obtain ⟨t, ht⟩ := step_answers s
    obtain ⟨u, hu⟩ := ih t
    exact ⟨u, (run_succ n ht).trans hu⟩

end Sys2Proof.Machine
end

/-! # The perform step (40_command_engine.md R57, R58, R60, R61) -/

section

namespace Sys2Proof.Laws

open Sys2Proof.Machine

/-- The core's turn with a command pending executes it and clears BUSY (R58). -/
theorem step_legal {s t : State} {i : Instr} (ht : turnOf s = .core) (hb : s.busy = true)
    (hd : decode s.pending = .ok i) (he : exec i (popTurn s) = .next t) : step s = .next (complete t) := by
  rw [step_core ht hb, perform_ok (s := popTurn s) hd, he]
  rfl

/-- Settles O6: one clause for each of the two things decode can answer. -/
theorem performRunsTheDecodedCommand : Obligations.PerformRunsTheDecodedCommand := by
  unfold Obligations.PerformRunsTheDecodedCommand
  exact ⟨fun s t i ht hb hd he => step_legal ht hb hd he, fun s e ht hb hd => step_illegal ht hb hd⟩

/-- Settles O7: a command answers a state whatever it finds, and writes none of the fields named. -/
theorem latchedCommandCompletes : Obligations.LatchedCommandCompletes := by
  unfold Obligations.LatchedCommandCompletes
  intro s ht hb
  cases hd : decode s.pending with
  | ok i =>
    obtain ⟨t, he⟩ := exec_answers i (popTurn s)
    obtain ⟨⟨-, -, -, -, -, pending, cmdLast, response, hosts, agenda, reads⟩, -⟩ := onlyWritersWrite i _ t he
    exact ⟨complete t, step_legal ht hb hd he, rfl, cmdLast, pending, response, hosts, agenda, reads⟩
  | error e => exact ⟨_, step_illegal ht hb hd, rfl, rfl, rfl, rfl, rfl, rfl, rfl⟩

/-- A placed word is placed whole: its 32 bits are the command word's. -/
theorem withFetchWord_toNat (s : State) (w : Word) : s.withFetchWord 32 w.toNat = placeCommand w s := by
  rw [State.withFetchWord, Nat.mod_eq_of_lt w.isLt, BitVec.ofNat_toNat, BitVec.setWidth_eq]

/-- Settles O9: placing a word latches it and puts the core's turn first. -/
theorem placedWordIsPerformed : Obligations.PlacedWordIsPerformed := by
  unfold Obligations.PlacedWordIsPerformed
  intro s t w i hd he
  rw [withFetchWord_toNat]
  exact step_legal (s := placeCommand w s) rfl rfl hd he

end Sys2Proof.Laws
end

/-! # Turns (40_command_engine.md R56, 70_reset_and_hazards.md R136) -/

section

namespace Sys2Proof.Machine

theorem hostTurn_some {k : Nat} {h : HostRun} {s : State} (hk : s.hosts[k]? = some h) :
    hostTurn k s = { (hostStep h s).2 with hosts := s.hosts.set k (hostStep h s).1 } := by
  simp [hostTurn, hk]

theorem hostTurn_none {k : Nat} {s : State} (hk : s.hosts[k]? = none) : hostTurn k s = s := by
  simp [hostTurn, hk]

/-- Settles O10: the turn named by the agenda, one kind after another. -/
theorem turnsAreTaken : Obligations.TurnsAreTaken := by
  unfold Obligations.TurnsAreTaken
  refine ⟨fun s a ht => ?access, fun s k h ht hk => ?host, fun s k ht hk => ?noHost, fun s => step_idle,
    fun s ht => ?reset⟩
  all_goals rw [step_takeTurn, ht]
  case access => rfl
  case host => exact congrArg _ (hostTurn_some (s := popTurn s) hk)
  case noHost => exact congrArg _ (hostTurn_none (s := popTurn s) hk)
  case reset => rfl

end Sys2Proof.Machine
end

/-! # Issue (40_command_engine.md R57, 60_exceptions.md R121) -/

section

namespace Sys2Proof.Laws

open Sys2Proof.Machine

/-- A write while BUSY = 1 is refused with CMD_BUSY, whatever word of the window it is for (R121). -/
theorem busAccess_write_busy {s : State} {off : Nat} (v : Word) (hb : s.busy = true) (h : off < 4096)
    (h4 : off % 4 = 0) :
    busAccess ⟨Config.mmioBase + off, 4, .write v⟩ s = respond .done (raiseError .cmdBusy s) := by
  rw [busAccess_base_add, accessAt_ok _ s h h4, busEffect, writeWord_busy off v hb]
  rfl

/-- Settles O11: the word is latched with BUSY = 0, and the write refused with BUSY = 1. -/
theorem commandWriteIssues : Obligations.CommandWriteIssues := by
  unfold Obligations.CommandWriteIssues
  intro s w
  exact ⟨some .done, busAccess_writeCmd w, fun hb => busAccess_write_busy (off := 0x000) w hb (by decide) (by decide)⟩

end Sys2Proof.Laws
end

/-! # NOP (40_command_engine.md R63) -/

section

namespace Sys2Proof.Laws

open Sys2Proof.Machine

/-- NOP's row is the only one with OP 0, and its mask covers the whole word. -/
theorem row_of_op_zero : ∀ r ∈ opcodeTable, opOf r.pattern = 0 → r.mask = BitVec.allOnes 32 ∧ r.pattern = 0 := by
  decide

/-- A word with NOP's OP and any other bit set is illegal (R63). -/
theorem decode_op_zero {w : Word} (hop : opOf w = 0) (hw : w ≠ 0) : decode w = .error .reservedBitSet := by
  refine decode_reserved_iff.2 ⟨by rw [hop]; decide, fun r hr hm => hw ?_⟩
  obtain ⟨mask, pattern⟩ := row_of_op_zero r hr ((op_of_match hr hm).symm.trans hop)
  rwa [mask, pattern, BitVec.and_allOnes] at hm

theorem decode_zero : decode 0x00000000#32 = .ok .nop := by decide

/-- Settles O52: NOP executes to the state it finds, so the round from reset leaves only BUSY to be cleared. -/
theorem nopCommand : Obligations.NopCommand := by
  unfold Obligations.NopCommand
  refine ⟨decode_zero, fun s => rfl, fun w => decode_op_zero,
    complete (respond .done (latch 0 State.reset)), ?_, statusWord_reset, rfl⟩
  rw [busAccess_writeCmd 0 rfl]
  exact perform_ok (s := respond .done (latch 0 State.reset)) decode_zero

end Sys2Proof.Laws
end

/-! # The field of bytes (41_gf8_tables.md R66, R67)

The loop of R66 adds up the products of its first operand with powers of x. A linear map, one that respects the sum of bytes
and the product with x, therefore goes through the product. Taken for the product with a byte, this says that the product is
commutative and associative. -/

section

namespace Sys2Proof.Machine

/-- The product with x, which is how the loop of R66 moves its first operand on. -/
def xtime (x : Byte) : Byte := (x <<< 1) ^^^ (if x.getLsbD 7 then 0x1B else 0)

theorem gf8Loop_succ (n : Nat) (p x y : Byte) :
    gf8Loop (n + 1) p x y = gf8Loop n (if y.getLsbD 0 then p ^^^ x else p) (xtime x) (y >>> 1) := by
  rw [gf8Loop, xtime]
  cases x.getLsbD 7 <;> simp

theorem xtime_xor (a b : Byte) : xtime (a ^^^ b) = xtime a ^^^ xtime b := by
  have carry : ∀ u v : Bool,
      (if u ^^ v then (0x1B : Byte) else 0) = (if u then 0x1B else 0) ^^^ (if v then 0x1B else 0) := by decide
  rw [xtime, BitVec.shiftLeft_xor_distrib, BitVec.getLsbD_xor, carry, xtime, xtime]
  ac_rfl

/-! ## Linear maps -/

/-- A map of bytes that respects their sum and the product with x. -/
structure Gf8Linear (f : Byte → Byte) : Prop where
  map_xor : ∀ a b, f (a ^^^ b) = f a ^^^ f b
  map_xtime : ∀ a, f (xtime a) = xtime (f a)

theorem Gf8Linear.map_zero {f : Byte → Byte} (h : Gf8Linear f) : f 0 = 0 := by
  simpa using h.map_xor 0 0

theorem Gf8Linear.map_gf8Loop {f : Byte → Byte} (h : Gf8Linear f) (n : Nat) (p x y : Byte) :
    f (gf8Loop n p x y) = gf8Loop n (f p) (f x) y := by
  induction n generalizing p x y with
  | zero => rfl
  | succ n ih => rw [gf8Loop_succ, gf8Loop_succ, ih, h.map_xtime, apply_ite f, h.map_xor]

/-- A linear map of a product is the product with the image of the first factor. -/
theorem Gf8Linear.map_gf8 {f : Byte → Byte} (h : Gf8Linear f) (x y : Byte) : f (gf8 x y) = gf8 (f x) y := by
  rw [gf8, h.map_gf8Loop, h.map_zero, gf8]

theorem gf8Loop_xor (n : Nat) (p q a b y : Byte) :
    gf8Loop n (p ^^^ q) (a ^^^ b) y = gf8Loop n p a y ^^^ gf8Loop n q b y := by
  induction n generalizing p q a b y with
  | zero => rfl
  | succ n ih =>
    have sum : p ^^^ q ^^^ (a ^^^ b) = (p ^^^ a) ^^^ (q ^^^ b) := by ac_rfl
    simp only [gf8Loop_succ, xtime_xor, ← ih, sum]
    split <;> rfl

theorem linear_xtime : Gf8Linear xtime := ⟨xtime_xor, fun _ => rfl⟩

/-- The product is linear in its first factor. -/
theorem linear_gf8_left (y : Byte) : Gf8Linear (gf8 · y) where
  map_xor a b := gf8Loop_xor 8 0 0 a b y
  map_xtime a := (linear_xtime.map_gf8 a y).symm

/-! ## The laws of the product -/

theorem gf8_one_left : ∀ y : Byte, gf8 1 y = y := by decide +kernel

/-- The product with `y`, a linear map, goes through the product `1 · x`. -/
theorem gf8_comm (x y : Byte) : gf8 x y = gf8 y x := by
  have h : gf8 (gf8 1 x) y = gf8 (gf8 1 y) x := (linear_gf8_left y).map_gf8 1 x
  rwa [gf8_one_left, gf8_one_left] at h

/-- The product is linear in its second factor. -/
theorem linear_gf8_right (x : Byte) : Gf8Linear (gf8 x) := by
  rw [show gf8 x = (gf8 · x) from funext (gf8_comm x)]
  exact linear_gf8_left x

/-- The product with `x`, a linear map, goes through the product `y · z`. -/
theorem gf8_assoc (x y z : Byte) : gf8 (gf8 x y) z = gf8 x (gf8 y z) := ((linear_gf8_right x).map_gf8 y z).symm

theorem gf8_zero_left (y : Byte) : gf8 0 y = 0 := (linear_gf8_left y).map_zero

theorem gf8_zero_right (x : Byte) : gf8 x 0 = 0 := (linear_gf8_right x).map_zero

theorem gf8_one_right (x : Byte) : gf8 x 1 = x := (gf8_comm x 1).trans (gf8_one_left x)

theorem gf8_two_right (x : Byte) : gf8 x 2 = xtime x := by
  have h : gf8 x (xtime 1) = xtime (gf8 x 1) := (linear_gf8_right x).map_xtime 1
  rwa [gf8_one_right] at h

theorem gf8_three_right (x : Byte) : gf8 x 3 = gf8 x 2 ^^^ x := by
  have h : gf8 x (2 ^^^ 1) = gf8 x 2 ^^^ gf8 x 1 := (linear_gf8_right x).map_xor 2 1
  rwa [gf8_one_right] at h

/-! ## Inverses

SBOX is made of the inverses (R71), so undoing its affine map gives them. Checked entry by entry, this shows at once that
every nonzero byte has an inverse and that SBOX is the table R71 describes. -/

/-- The affine map `A` of R71. -/
def affine (b : Byte) : Byte :=
  b ^^^ b.rotateLeft 1 ^^^ b.rotateLeft 2 ^^^ b.rotateLeft 3 ^^^ b.rotateLeft 4 ^^^ 0x63

/-- The inverse of the affine map `A` of R71. -/
def unaffine (b : Byte) : Byte := b.rotateLeft 1 ^^^ b.rotateLeft 3 ^^^ b.rotateLeft 6 ^^^ 0x05

theorem affine_unaffine : ∀ b : Byte, affine (unaffine b) = b := by decide +kernel

/-- The inverse of a byte, and 0 for 0, from its entry of SBOX. -/
def gf8Inv (x : Byte) : Byte := unaffine (sbox x)

theorem gf8Inv_zero : gf8Inv 0 = 0 := by decide

theorem gf8_gf8Inv : ∀ x : Byte, x ≠ 0 → gf8 x (gf8Inv x) = 1 := by decide +kernel

/-- A byte has no other inverse. -/
theorem eq_gf8Inv {x y : Byte} (h : gf8 x y = 1) : y = gf8Inv x := by
  have hx : x ≠ 0 := by
    rintro rfl
    rw [gf8_zero_left] at h
    exact absurd h (by decide)
  calc y = gf8 (gf8 x (gf8Inv x)) y := by rw [gf8_gf8Inv x hx, gf8_one_left]
    _ = gf8 (gf8Inv x) (gf8 x y) := by rw [gf8_comm x, gf8_assoc]
    _ = gf8Inv x := by rw [h, gf8_one_right]

/-- Settles O25: the product is linear in both factors, and `gf8Inv` is the inverse. -/
theorem gf8FieldLaws : Obligations.Gf8FieldLaws := by
  unfold Obligations.Gf8FieldLaws
  exact ⟨fun x y => ⟨gf8_zero_right x, gf8_zero_left y, gf8_one_right x, gf8_one_left x⟩, gf8_comm, gf8_assoc,
    fun x => (linear_gf8_right x).map_xor, fun x => ⟨gf8_two_right x, gf8_three_right x⟩,
    fun x hx => ⟨gf8Inv x, gf8_gf8Inv x hx, fun _ h => eq_gf8Inv h⟩, by decide, by decide, by decide⟩

end Sys2Proof.Machine
end

/-! # The S-box and its inverse (41_gf8_tables.md R69 to R71) -/

section

namespace Sys2Proof.Machine

theorem sbox_eq_affine_gf8Inv (x : Byte) : sbox x = affine (gf8Inv x) := (affine_unaffine (sbox x)).symm

theorem invSbox_sbox : ∀ x : Byte, invSbox (sbox x) = x := by decide +kernel

theorem sbox_invSbox : ∀ x : Byte, sbox (invSbox x) = x := by decide +kernel

/-- Settles O27: a byte whose product with `x` is 1 is `gf8Inv x`, whose affine image is the entry. -/
theorem sboxAndItsInverse : Obligations.SboxAndItsInverse := by
  unfold Obligations.SboxAndItsInverse
  refine ⟨fun x y h => ?_, fun x => ⟨invSbox_sbox x, sbox_invSbox x⟩⟩
  have hy : y = gf8Inv x := by
    obtain h | ⟨rfl, rfl⟩ := h
    · exact eq_gf8Inv h
    · exact gf8Inv_zero.symm
  rw [hy]
  exact sbox_eq_affine_gf8Inv x

end Sys2Proof.Machine
end

/-! # The multiply commands (41_gf8_tables.md R73, 45_ghash.md R100) -/

section

namespace Sys2Proof.Laws

open Sys2Proof.Machine

/-- Settles O26: each command is its product and nothing else, and a byte widened to a word leaves RESULT[31:8] zero. -/
theorem fieldMultiplyCommands : Obligations.FieldMultiplyCommands := by
  unfold Obligations.FieldMultiplyCommands
  refine ⟨encodeDecodeRoundTrip (.gf8Mul 0x57 0x83) rfl, encodeDecodeRoundTrip .gf128Mul rfl,
    fun s a b => ⟨(gf8 a b).setWidth 32, rfl, ?_, extract_setWidth_byte _⟩, fun s => rfl⟩
  rw [← BitVec.setWidth_eq_extractLsb' (by decide), BitVec.setWidth_setWidth_of_le _ (by decide), BitVec.setWidth_eq]

end Sys2Proof.Laws
end

/-! # Word functions and round constants (41_gf8_tables.md R68, 43_key_schedule.md R81) -/

section

namespace Sys2Proof.Machine

/-- A word is made of its four bytes. -/
theorem word_eq_wordBE (w : Word) : w = wordBE (byteOf w 0) (byteOf w 1) (byteOf w 2) (byteOf w 3) :=
  BitVec.extractLsb'_eq_self.symm.trans (wordOf_eq_wordBE (n := 1) w (k := 0) (by decide))

/-- RotWord moves every byte up by one place. -/
theorem byteOf_rotWord (w : Word) {i : Nat} (hi : i < 4) : byteOf (rotWord w) i = byteOf w ((i + 1) % 4) := by
  apply BitVec.eq_of_getLsbD_eq
  intro j hj
  simp only [rotWord, byteOf_getLsbD, BitVec.getLsbD_or, BitVec.getLsbD_shiftLeft, BitVec.getLsbD_ushiftRight]
  obtain h | rfl : i < 3 ∨ i = 3 := by omega
  · have shifted : w.getLsbD (24 + (32 - 8 * (i + 1) + j)) = false := BitVec.getLsbD_of_ge _ _ (by omega)
    have inside : 32 - 8 * (i + 1) + j < 32 ∧ ¬ 32 - 8 * (i + 1) + j < 8 := by omega
    have place : 32 - 8 * (i + 1) + j - 8 = 32 - 8 * ((i + 1) % 4 + 1) + j := by omega
    simp [shifted, inside, place]
  · simp [hj]

theorem rotWord_wordBE (a0 a1 a2 a3 : Byte) : rotWord (wordBE a0 a1 a2 a3) = wordBE a1 a2 a3 a0 := by
  obtain ⟨h0, h1, h2, h3⟩ := byteOf_wordBE a0 a1 a2 a3
  rw [word_eq_wordBE (rotWord _)]
  simp only [byteOf_rotWord, Nat.reduceLT, Nat.reduceAdd, Nat.reduceMod, h0, h1, h2, h3]

theorem subWord_wordBE (a0 a1 a2 a3 : Byte) :
    subWord (wordBE a0 a1 a2 a3) = wordBE (sbox a0) (sbox a1) (sbox a2) (sbox a3) := by
  obtain ⟨h0, h1, h2, h3⟩ := byteOf_wordBE a0 a1 a2 a3
  rw [subWord, h0, h1, h2, h3]

/-- Settles O28: the ten constants are computed, and each word function is taken byte by byte. -/
theorem wordFunctionsAndConstants : Obligations.WordFunctionsAndConstants := by
  unfold Obligations.WordFunctionsAndConstants
  exact ⟨by decide, fun j => ⟨rfl, rfl, rfl⟩,
    fun a0 a1 a2 a3 => ⟨rotWord_wordBE a0 a1 a2 a3, subWord_wordBE a0 a1 a2 a3⟩⟩

end Sys2Proof.Machine
end

/-! # SubBytes and InvSubBytes (42_round_primitives.md R74, R75) -/

section

namespace Sys2Proof.Machine

theorem byteOf_subBytes (s : Block) {i : Nat} (hi : i < 16) : byteOf (subBytes s) i = sbox (byteOf s i) :=
  byteOf_blockOf _ i hi

theorem byteOf_invSubBytes (s : Block) {i : Nat} (hi : i < 16) : byteOf (invSubBytes s) i = invSbox (byteOf s i) :=
  byteOf_blockOf _ i hi

theorem invSubBytes_subBytes (s : Block) : invSubBytes (subBytes s) = s :=
  block_ext _ _ fun i hi => by rw [byteOf_invSubBytes _ hi, byteOf_subBytes _ hi, invSbox_sbox]

theorem subBytes_invSubBytes (s : Block) : subBytes (invSubBytes s) = s :=
  block_ext _ _ fun i hi => by rw [byteOf_subBytes _ hi, byteOf_invSubBytes _ hi, sbox_invSbox]

/-- Settles O29: the new STATE is the primitive's block, known byte by byte. -/
theorem subBytesCommands : Obligations.SubBytesCommands := by
  unfold Obligations.SubBytesCommands
  exact ⟨Laws.encodeDecodeRoundTrip .subBytes rfl, Laws.encodeDecodeRoundTrip .invSubBytes rfl, fun s =>
    ⟨⟨subBytes s.state, rfl, fun _ => byteOf_subBytes s.state⟩,
      ⟨invSubBytes s.state, rfl, fun _ => byteOf_invSubBytes s.state⟩⟩⟩

end Sys2Proof.Machine
end

/-! # ShiftRows and InvShiftRows (42_round_primitives.md R76, R77) -/

section

namespace Sys2Proof.Machine

theorem cell_shiftRows (s : Block) {r c : Nat} (hr : r < 4) (hc : c < 4) :
    cell (shiftRows s) r c = cell s r ((c + r) % 4) :=
  cell_stateOf _ r c hr hc

theorem cell_invShiftRows (s : Block) {r c : Nat} (hr : r < 4) (hc : c < 4) :
    cell (invShiftRows s) r c = cell s r ((c + 4 - r) % 4) :=
  cell_stateOf _ r c hr hc

/-- InvShiftRows read from the side of its argument, as R77 writes it. -/
theorem cell_invShiftRows_rotated (s : Block) {r c : Nat} (hr : r < 4) (hc : c < 4) :
    cell (invShiftRows s) r ((c + r) % 4) = cell s r c := by
  have back : ((c + r) % 4 + 4 - r) % 4 = c := by omega
  rw [cell_invShiftRows s hr (Nat.mod_lt _ (by decide)), back]

theorem invShiftRows_shiftRows (s : Block) : invShiftRows (shiftRows s) = s :=
  state_ext _ _ fun r c hr hc => by
    have back : ((c + 4 - r) % 4 + r) % 4 = c := by omega
    rw [cell_invShiftRows _ hr hc, cell_shiftRows _ hr (Nat.mod_lt _ (by decide)), back]

theorem shiftRows_invShiftRows (s : Block) : shiftRows (invShiftRows s) = s :=
  state_ext _ _ fun r c hr hc => by rw [cell_shiftRows _ hr hc, cell_invShiftRows_rotated _ hr hc]

/-- Settles O30: the new STATE is the primitive's block, known cell by cell. -/
theorem shiftRowsCommands : Obligations.ShiftRowsCommands := by
  unfold Obligations.ShiftRowsCommands
  exact ⟨Laws.encodeDecodeRoundTrip .shiftRows rfl, Laws.encodeDecodeRoundTrip .invShiftRows rfl, fun s =>
    ⟨⟨shiftRows s.state, rfl, fun _ _ => cell_shiftRows s.state⟩,
      ⟨invShiftRows s.state, rfl, fun _ _ => cell_invShiftRows_rotated s.state⟩⟩⟩

end Sys2Proof.Machine
end

/-! # MixColumns and InvMixColumns (42_round_primitives.md R78, R79)

Both multiply every column by a matrix of bytes. They undo each other because the two matrices, multiplied in either
order, give the identity. -/

section

namespace Sys2Proof.Machine

/-! ## Sums over the rows of a column -/

/-- The sum in GF(2^8) of the four bytes of a column. -/
def columnSum (f : Nat → Byte) : Byte := f 0 ^^^ f 1 ^^^ f 2 ^^^ f 3

theorem columnSum_congr {f g : Nat → Byte} (h : ∀ k < 4, f k = g k) : columnSum f = columnSum g := by
  rw [columnSum, h 0 (by decide), h 1 (by decide), h 2 (by decide), h 3 (by decide), columnSum]

theorem columnSum_comm (f : Nat → Nat → Byte) :
    (columnSum fun i => columnSum fun j => f i j) = columnSum fun j => columnSum fun i => f i j := by
  simp only [columnSum]
  ac_rfl

/-- A linear map goes through the sum of a column. -/
theorem Gf8Linear.map_columnSum {g : Byte → Byte} (h : Gf8Linear g) (f : Nat → Byte) :
    g (columnSum f) = columnSum fun k => g (f k) := by
  simp only [columnSum, h.map_xor]

/-- The row of the identity matrix picks out its byte of the column. -/
theorem columnSum_unit (a : Nat → Byte) {r : Nat} (hr : r < 4) :
    (columnSum fun k => gf8 (if r = k then 1 else 0) (a k)) = a r := by
  have entry : ∀ k, gf8 (if r = k then 1 else 0) (a k) = if r = k then a k else 0 := fun k => by
    split
    · exact gf8_one_left _
    · exact gf8_zero_left _
  simp only [entry, columnSum]
  interval_cases r <;> simp

/-! ## Matrix products -/

/-- The state whose columns are the products of the matrix `m` with the columns of `s`. -/
def mulColumns (m : Nat → Nat → Byte) (s : Block) : Block :=
  stateOf fun r c => columnSum fun k => gf8 (m r k) (cell s k c)

theorem cell_mulColumns (m : Nat → Nat → Byte) (s : Block) {r c : Nat} (hr : r < 4) (hc : c < 4) :
    cell (mulColumns m s) r c = columnSum fun k => gf8 (m r k) (cell s k c) :=
  cell_stateOf _ r c hr hc

/-- The product of the matrices `m` and `n` is the identity. -/
def InverseMatrices (m n : Nat → Nat → Byte) : Prop :=
  ∀ r < 4, ∀ j < 4, (columnSum fun k => gf8 (m r k) (n k j)) = if r = j then 1 else 0

/-- Two matrices, one after another, act as their product: the product of bytes is linear in both factors. -/
theorem mulColumns_mulColumns_of_inverse {m n : Nat → Nat → Byte} (h : InverseMatrices m n) (s : Block) :
    mulColumns m (mulColumns n s) = s :=
  state_ext _ _ fun r c hr hc => by
    calc cell (mulColumns m (mulColumns n s)) r c
      _ = columnSum fun k => gf8 (m r k) (columnSum fun j => gf8 (n k j) (cell s j c)) :=
          (cell_mulColumns m _ hr hc).trans (columnSum_congr fun k hk => by rw [cell_mulColumns n s hk hc])
      _ = columnSum fun k => columnSum fun j => gf8 (gf8 (m r k) (n k j)) (cell s j c) := by
          simp only [(linear_gf8_right _).map_columnSum, gf8_assoc]
      _ = columnSum fun j => gf8 (columnSum fun k => gf8 (m r k) (n k j)) (cell s j c) := by
          rw [columnSum_comm]
          exact columnSum_congr fun j _ => ((linear_gf8_left _).map_columnSum _).symm
      _ = columnSum fun j => gf8 (if r = j then 1 else 0) (cell s j c) :=
          columnSum_congr fun j hj => by rw [h r hr j hj]
      _ = cell s r c := columnSum_unit (fun j => cell s j c) hr

/-! ## The two matrices -/

theorem cell_mixColumns (s : Block) {r c : Nat} (hr : r < 4) (hc : c < 4) :
    cell (mixColumns s) r c = mixCell (cell s 0 c) (cell s 1 c) (cell s 2 c) (cell s 3 c) r :=
  cell_stateOf _ r c hr hc

/-- The matrix with first row `n`, each row being the one above it moved right by one. -/
def circulant (n : Nat → Byte) (r k : Nat) : Byte := n ((k + 4 - r) % 4)

/-- The first row of the matrix of MixColumns (R78). -/
def mixCoeff : Nat → Byte
  | 0 => 0x02
  | 1 => 0x03
  | _ => 0x01

theorem mixCell_eq_columnSum (a : Nat → Byte) {r : Nat} (hr : r < 4) :
    mixCell (a 0) (a 1) (a 2) (a 3) r = columnSum fun k => gf8 (circulant mixCoeff r k) (a k) := by
  have one : ∀ x, gf8 1#8 x = x := gf8_one_left
  interval_cases r <;> simp [mixCell, columnSum, circulant, mixCoeff, one]

theorem mixColumns_eq_mulColumns (s : Block) : mixColumns s = mulColumns (circulant mixCoeff) s :=
  state_ext _ _ fun r c hr hc => by
    rw [cell_mixColumns s hr hc, cell_mulColumns _ s hr hc, mixCell_eq_columnSum (fun k => cell s k c) hr]

theorem invMixColumns_eq_mulColumns (s : Block) : invMixColumns s = mulColumns (circulant invMixCoeff) s := rfl

theorem cell_invMixColumns (s : Block) {r c : Nat} (hr : r < 4) (hc : c < 4) :
    cell (invMixColumns s) r c = columnSum fun k => gf8 (circulant invMixCoeff r k) (cell s k c) :=
  cell_mulColumns (circulant invMixCoeff) s hr hc

/-- Settles O31: the four rows of each matrix are those of the definition. -/
theorem mixColumnsCommands : Obligations.MixColumnsCommands := by
  unfold Obligations.MixColumnsCommands
  refine ⟨Laws.encodeDecodeRoundTrip .mixColumns rfl, Laws.encodeDecodeRoundTrip .invMixColumns rfl, fun s =>
    ⟨⟨mixColumns s.state, rfl, fun c hc => ?mix⟩, ⟨invMixColumns s.state, rfl, fun c hc => ?invMix⟩⟩⟩
  case mix =>
    exact ⟨cell_mixColumns _ (by decide) hc, cell_mixColumns _ (by decide) hc, cell_mixColumns _ (by decide) hc,
      cell_mixColumns _ (by decide) hc⟩
  case invMix =>
    exact ⟨cell_invMixColumns _ (by decide) hc, cell_invMixColumns _ (by decide) hc,
      cell_invMixColumns _ (by decide) hc, cell_invMixColumns _ (by decide) hc⟩

/-! ## Inverses -/

theorem inverseMatrices_invMix_mix : InverseMatrices (circulant invMixCoeff) (circulant mixCoeff) := by
  unfold InverseMatrices
  decide

theorem inverseMatrices_mix_invMix : InverseMatrices (circulant mixCoeff) (circulant invMixCoeff) := by
  unfold InverseMatrices
  decide

theorem invMixColumns_mixColumns (s : Block) : invMixColumns (mixColumns s) = s := by
  rw [mixColumns_eq_mulColumns, invMixColumns_eq_mulColumns,
    mulColumns_mulColumns_of_inverse inverseMatrices_invMix_mix]

theorem mixColumns_invMixColumns (s : Block) : mixColumns (invMixColumns s) = s := by
  rw [mixColumns_eq_mulColumns, invMixColumns_eq_mulColumns,
    mulColumns_mulColumns_of_inverse inverseMatrices_mix_invMix]

end Sys2Proof.Machine
end

/-! # AddRoundKey (42_round_primitives.md R80) -/

section

namespace Sys2Proof.Machine

theorem cell_addRoundKey (ks : Vector Word 60) (s : Block) (j : Nat) {r c : Nat} (hr : r < 4) (hc : c < 4) :
    cell (addRoundKey ks s j) r c = cell s r c ^^^ byteOf (ksWord ks (4 * j + c)) r := by
  rw [addRoundKey, cell_xor, cell_roundKey ks j r c hr hc]

theorem addRoundKey_addRoundKey (ks : Vector Word 60) (s : Block) (j : Nat) :
    addRoundKey ks (addRoundKey ks s j) j = s := by
  rw [addRoundKey, addRoundKey, BitVec.xor_assoc, BitVec.xor_self, BitVec.xor_zero]

theorem rndIllegal_eq_false {rnd : Nat} {s : State} : rndIllegal rnd s = false ↔ rnd ≤ s.nr.toNat := by
  rw [← Bool.not_eq_true, rndIllegal_eq_true, Nat.not_lt]

/-- With a key, ADD_ROUND_KEY is left with its check of RND. -/
theorem exec_addRoundKey_keyed {s : State} (rnd : Nat) (hk : s.keyValid = true) :
    exec (.addRoundKey rnd) s =
      failIf (rndIllegal rnd s) .badArg s (.next { s with state := addRoundKey s.ks s.state rnd }) :=
  needKey_valid hk

/-- Settles O32: the key check comes first and then the check of RND (R122). -/
theorem addRoundKeyCommand : Obligations.AddRoundKeyCommand := by
  unfold Obligations.AddRoundKeyCommand
  refine ⟨Laws.encodeDecodeRoundTrip (.addRoundKey 1) rfl, fun s rnd =>
    ⟨fun hk hr => ⟨addRoundKey s.ks s.state rnd, ?legal, fun _ _ => cell_addRoundKey s.ks s.state rnd⟩,
      needKey_invalid, fun hk hr => ?badArg⟩⟩
  case legal => rw [exec_addRoundKey_keyed rnd hk, rndIllegal_eq_false.2 hr, failIf_false]
  case badArg =>
    rw [exec_addRoundKey_keyed rnd hk, rndIllegal_eq_true.2 hr]
    rfl

end Sys2Proof.Machine
end

/-! # The inverse primitives (42_round_primitives.md R75, R77, R79, R80) -/

section

namespace Sys2Proof.Machine

/-- Settles O33, one primitive after another. -/
theorem primitivesInvert : Obligations.PrimitivesInvert := by
  unfold Obligations.PrimitivesInvert
  exact fun b => ⟨invSubBytes_subBytes b, subBytes_invSubBytes b, invShiftRows_shiftRows b, shiftRows_invShiftRows b,
    invMixColumns_mixColumns b, mixColumns_invMixColumns b, fun ks j => addRoundKey_addRoundKey ks b j⟩

end Sys2Proof.Machine
end

/-! # The key expansion (43_key_schedule.md R82) -/

section

namespace Sys2Proof.Machine

/-- The words of `w` from the `nk`th on are those of the recurrence of R82. -/
def Expands (nk : Nat) (w : List Word) : Prop :=
  ∀ i, nk ≤ i → i < w.length → w.getD i 0 = w.getD (i - nk) 0 ^^^ expandTmp nk i (w.getD (i - 1) 0)

/-- There is nothing to show of the words of the key alone. -/
theorem expands_of_length_le {nk : Nat} {w : List Word} (h : w.length ≤ nk) : Expands nk w :=
  fun _ hi hw => absurd (hi.trans_lt hw) h.not_gt

/-- One more word looks back at words that are there already, and leaves them as they are. -/
theorem expands_concat_nextWord {nk : Nat} {w : List Word} (hk : 0 < nk) (h : Expands nk w) :
    Expands nk (w ++ [nextWord nk w]) := by
  intro i hi hw
  rw [List.length_append, List.length_singleton] at hw
  rw [List.getD_append _ _ _ (i - nk) (by omega), List.getD_append _ _ _ (i - 1) (by omega)]
  obtain old | rfl : i < w.length ∨ i = w.length := by omega
  · rw [List.getD_append _ _ _ _ old]
    exact h i hi old
  · rw [List.getD_append_right _ _ _ _ le_rfl, Nat.sub_self]
    rfl

theorem expands_expandLoop {nk : Nat} (hk : 0 < nk) (n : Nat) {w : List Word} (h : Expands nk w) :
    Expands nk (expandLoop nk n w) := by
  induction n generalizing w with
  | zero => exact h
  | succ n ih => exact ih (expands_concat_nextWord hk h)

theorem length_expandLoop (nk n : Nat) (w : List Word) : (expandLoop nk n w).length = w.length + n := by
  induction n generalizing w with
  | zero => rfl
  | succ n ih =>
    rw [expandLoop, ih, List.length_append, List.length_singleton]
    omega

/-- The loop only appends. -/
theorem expandLoop_getD_of_lt (nk n : Nat) {w : List Word} {i : Nat} (hi : i < w.length) :
    (expandLoop nk n w).getD i 0 = w.getD i 0 := by
  induction n generalizing w with
  | zero => rfl
  | succ n ih =>
    have longer : i < (w ++ [nextWord nk w]).length := by
      rw [List.length_append]
      omega
    rw [expandLoop, ih longer, List.getD_append _ _ _ _ hi]

theorem length_keyWords (key : Key) (nk : Nat) : ((List.range nk).map (wordOf key)).length = nk := by
  rw [List.length_map, List.length_range]

/-- The expansion has `4·(Nr+1)` words, with `Nr = Nk + 6`. -/
theorem length_keyExpansion (key : Key) (nk : Nat) : (keyExpansion key nk).length = 4 * (nk + 7) := by
  rw [keyExpansion, length_expandLoop, length_keyWords, roundsOf]
  omega

/-- The first `Nk` words are those of the key. -/
theorem keyExpansion_getD_of_lt (key : Key) {nk i : Nat} (hi : i < nk) :
    (keyExpansion key nk).getD i 0 = wordOf key i := by
  rw [keyExpansion, expandLoop_getD_of_lt _ _ ((length_keyWords key nk).symm ▸ hi),
    List.getD_eq_getElem _ _ ((length_keyWords key nk).symm ▸ hi), List.getElem_map, List.getElem_range]

theorem expands_keyExpansion (key : Key) {nk : Nat} (hk : 0 < nk) : Expands nk (keyExpansion key nk) :=
  expands_expandLoop hk _ (expands_of_length_le (length_keyWords key nk).le)

end Sys2Proof.Machine
end

/-! # KEY_EXPAND (43_key_schedule.md R82, R84) -/

section

namespace Sys2Proof.Machine

/-- KS holds the expansion, and zeros past it. -/
theorem ksWord_keySchedule (key : Key) (nk : Nat) {i : Nat} (hi : i < 60) :
    ksWord (keySchedule key nk) i = (keyExpansion key nk).getD i 0 := by
  have inside : i < (keySchedule key nk).toList.length := by rwa [Vector.length_toList]
  rw [ksWord, List.getD_eq_getElem _ _ inside, Vector.getElem_toList]
  unfold keySchedule
  rw [Vector.getElem_ofFn]

theorem ksWord_keySchedule_key (key : Key) {nk i : Nat} (hk : nk ≤ 8) (hi : i < nk) :
    ksWord (keySchedule key nk) i =
      wordBE (byteOf key (4 * i)) (byteOf key (4 * i + 1)) (byteOf key (4 * i + 2)) (byteOf key (4 * i + 3)) := by
  rw [ksWord_keySchedule key nk (by omega), keyExpansion_getD_of_lt key hi]
  exact wordOf_eq_wordBE (n := 8) key (hi.trans_le hk)

/-- The recurrence of R82 for the words of KS; the longest key, of 8 words, fills its 60 words. -/
theorem ksWord_keySchedule_expanded (key : Key) {nk i : Nat} (hk : 0 < nk) (hk8 : nk ≤ 8) (hi : nk ≤ i)
    (hw : i < 4 * (nk + 7)) :
    ksWord (keySchedule key nk) i =
      ksWord (keySchedule key nk) (i - nk) ^^^ expandTmp nk i (ksWord (keySchedule key nk) (i - 1)) := by
  rw [ksWord_keySchedule key nk (i := i) (by omega), ksWord_keySchedule key nk (i := i - nk) (by omega),
    ksWord_keySchedule key nk (i := i - 1) (by omega)]
  exact expands_keyExpansion key hk i hi ((length_keyExpansion key nk).symm ▸ hw)

theorem ksWord_keySchedule_past (key : Key) {nk i : Nat} (hw : 4 * (nk + 7) ≤ i) (hi : i < 60) :
    ksWord (keySchedule key nk) i = 0 := by
  rw [ksWord_keySchedule key nk hi, List.getD_eq_default _ _ ((length_keyExpansion key nk).trans_le hw)]

/-- A code that names a key size loads its schedule and clears the tag flags (R84). -/
theorem exec_keyExpand_of_nkOf {kl : KeyCode} {nk : Nat} (h : nkOf kl = some nk) (s : State) :
    exec (.keyExpand kl) s = .next (loadSchedule nk (invalidateTag s)) := by
  have run : exec (.keyExpand kl) s = execKeyExpand kl s := rfl
  rw [run, execKeyExpand, h]

/-- The three sizes of a key, in words (R7, R49). -/
theorem nkOf_bounds {kl : KeyCode} {nk : Nat} (h : nkOf kl = some nk) : 0 < nk ∧ nk ≤ 8 := by
  cases kl <;> cases h <;> decide

/-- Settles O34: a valid code leaves the schedule, known word by word, and the other code wipes it. -/
theorem keyExpandCommand : Obligations.KeyExpandCommand := by
  unfold Obligations.KeyExpandCommand
  refine ⟨Laws.encodeDecodeRoundTrip (.keyExpand .k128) rfl, Laws.encodeDecodeRoundTrip (.keyExpand .k192) rfl,
    Laws.encodeDecodeRoundTrip (.keyExpand .k256) rfl, Laws.encodeDecodeRoundTrip (.keyExpand .invalid) rfl,
    fun s kl nk valid => ?expands, fun s => rfl⟩
  have hn : nkOf kl = some nk := by
    obtain ⟨rfl, rfl⟩ | ⟨rfl, rfl⟩ | ⟨rfl, rfl⟩ := valid <;> rfl
  obtain ⟨positive, atMost⟩ := nkOf_bounds hn
  exact ⟨keySchedule s.key nk, exec_keyExpand_of_nkOf hn s, fun _ => ksWord_keySchedule_key s.key atMost,
    fun _ => ksWord_keySchedule_expanded s.key positive atMost, fun _ => ksWord_keySchedule_past s.key⟩

end Sys2Proof.Machine
end

/-! # The block cipher (44_block_cipher.md R86, R87)

Decryption takes the rounds of encryption back, the last one first. The two are grouped differently: a round of
decryption ends with InvMixColumns where a round of encryption ends with AddRoundKey. What it takes back is therefore a
round of encryption seen through the substitution layer, SubBytes and ShiftRows, that begins the next round. -/

section

namespace Sys2Proof.Machine

/-- Steps undone one by one, the last one first, where the result of a step is seen through `f`. -/
theorem foldl_reverse_undoes {α β ι : Type} {e : α → ι → α} {d : β → ι → β} {f : α → β}
    (undo : ∀ a r, d (f (e a r)) r = f a) (rounds : List ι) (a : α) :
    rounds.reverse.foldl d (f (rounds.foldl e a)) = f a := by
  induction rounds generalizing a with
  | nil => rfl
  | cons r rounds ih =>
    rw [List.foldl_cons, List.reverse_cons, List.foldl_append, ih, List.foldl_cons, undo, List.foldl_nil]

/-- The substitution layer of a round of R86. -/
def subShift (b : Block) : Block := shiftRows (subBytes b)

/-- The substitution layer of a round of R87. -/
def invSubShift (b : Block) : Block := invSubBytes (invShiftRows b)

theorem invSubShift_subShift (b : Block) : invSubShift (subShift b) = b := by
  rw [invSubShift, subShift, invShiftRows_shiftRows, invSubBytes_subBytes]

theorem subShift_invSubShift (b : Block) : subShift (invSubShift b) = b := by
  rw [subShift, invSubShift, subBytes_invSubBytes, shiftRows_invShiftRows]

theorem encRound_eq (ks : Vector Word 60) (b : Block) (rnd : Nat) :
    encRound ks b rnd = addRoundKey ks (mixColumns (subShift b)) rnd := rfl

theorem decRound_eq (ks : Vector Word 60) (b : Block) (rnd : Nat) :
    decRound ks b rnd = invMixColumns (addRoundKey ks (invSubShift b) rnd) := rfl

theorem encryptBlock_eq (ks : Vector Word 60) (nr : Nat) (b : Block) :
    encryptBlock ks nr b =
      addRoundKey ks (subShift ((middleRounds nr).foldl (encRound ks) (addRoundKey ks b 0))) nr := by
  unfold encryptBlock
  rfl

theorem decryptBlock_eq (ks : Vector Word 60) (nr : Nat) (b : Block) :
    decryptBlock ks nr b =
      addRoundKey ks (invSubShift ((middleRounds nr).reverse.foldl (decRound ks) (addRoundKey ks b nr))) 0 := by
  unfold decryptBlock
  rfl

/-- A round of decryption takes back the same round of encryption, seen through the substitution layer. -/
theorem decRound_subShift_encRound (ks : Vector Word 60) (b : Block) (rnd : Nat) :
    decRound ks (subShift (encRound ks b rnd)) rnd = subShift b := by
  rw [decRound_eq, invSubShift_subShift, encRound_eq, addRoundKey_addRoundKey, invMixColumns_mixColumns]

/-- A round of encryption takes back the same round of decryption, seen through the inverse substitution layer. -/
theorem encRound_invSubShift_decRound (ks : Vector Word 60) (b : Block) (rnd : Nat) :
    encRound ks (invSubShift (decRound ks b rnd)) rnd = invSubShift b := by
  rw [encRound_eq, subShift_invSubShift, decRound_eq, mixColumns_invMixColumns, addRoundKey_addRoundKey]

theorem decryptBlock_encryptBlock (ks : Vector Word 60) (nr : Nat) (b : Block) :
    decryptBlock ks nr (encryptBlock ks nr b) = b := by
  rw [decryptBlock_eq, encryptBlock_eq, addRoundKey_addRoundKey,
    foldl_reverse_undoes (decRound_subShift_encRound ks), invSubShift_subShift, addRoundKey_addRoundKey]

theorem encryptBlock_decryptBlock (ks : Vector Word 60) (nr : Nat) (b : Block) :
    encryptBlock ks nr (decryptBlock ks nr b) = b := by
  have undone := foldl_reverse_undoes (encRound_invSubShift_decRound ks) (middleRounds nr).reverse
  rw [List.reverse_reverse] at undone
  rw [encryptBlock_eq, decryptBlock_eq, addRoundKey_addRoundKey, undone, subShift_invSubShift, addRoundKey_addRoundKey]

/-- Settles O35, round by round from the last one back. -/
theorem decryptInvertsEncrypt : Obligations.DecryptInvertsEncrypt := by
  unfold Obligations.DecryptInvertsEncrypt
  exact fun ks nr b => ⟨decryptBlock_encryptBlock ks nr b, encryptBlock_decryptBlock ks nr b⟩

end Sys2Proof.Machine
end

/-! # ENCRYPT and DECRYPT (44_block_cipher.md R88, R89) -/

section

namespace Sys2Proof.Machine

/-- Settles O36: both commands are their cipher behind the check for a key. -/
theorem cipherCommands : Obligations.CipherCommands := by
  unfold Obligations.CipherCommands
  exact ⟨Laws.encodeDecodeRoundTrip .encrypt rfl, Laws.encodeDecodeRoundTrip .decrypt rfl, fun s =>
    ⟨fun keyed => ⟨needKey_valid keyed, needKey_valid keyed⟩,
      fun keyless => ⟨needKey_invalid keyless, needKey_invalid keyless⟩⟩⟩

end Sys2Proof.Machine
end

/-! # The cipher by round commands (44_block_cipher.md R86, R87, 60_exceptions.md R134)

The round commands change STATE alone, so a list of them is known by the function of STATE it computes, and lists
one after another compose these functions. -/

section

namespace Sys2Proof.Machine

/-- From `s`, whatever its STATE, the commands complete and put STATE through `f`, and change nothing else. -/
def TransformsState (s : State) (cmds : List Instr) (f : Block → Block) : Prop :=
  ∀ b, execAll cmds { s with state := b } = .next { s with state := f b }

theorem execAll_append (is js : List Instr) (s : State) :
    execAll (is ++ js) s = thenDo (execAll is s) (execAll js) := by
  induction is generalizing s with
  | nil => rfl
  | cons i is ih =>
    rw [List.cons_append, execAll, execAll]
    cases exec i s with
    | next t => exact ih t
    | fault e => rfl
    | refused e => rfl

theorem TransformsState.append {s : State} {is js : List Instr} {f g : Block → Block} (hf : TransformsState s is f)
    (hg : TransformsState s js g) : TransformsState s (is ++ js) (fun b => g (f b)) := by
  intro b
  rw [execAll_append, hf b]
  exact hg (f b)

/-- The commands of a list of rounds put STATE through the rounds in turn. -/
theorem TransformsState.flatMap {s : State} {cmds : Nat → List Instr} {round : Block → Nat → Block}
    {rounds : List Nat} (h : ∀ r ∈ rounds, TransformsState s (cmds r) (round · r)) :
    TransformsState s (rounds.flatMap cmds) (rounds.foldl round) := by
  induction rounds with
  | nil => exact fun _ => rfl
  | cons r rounds ih =>
    obtain ⟨first, others⟩ := List.forall_mem_cons.1 h
    rw [List.flatMap_cons]
    exact first.append (ih others)

/-- ADD_ROUND_KEY completes with a key and a round key of its schedule (R80). -/
theorem exec_addRoundKey_legal {s : State} {rnd : Nat} (hk : s.keyValid = true) (hr : rnd ≤ s.nr.toNat) :
    exec (.addRoundKey rnd) s = .next { s with state := addRoundKey s.ks s.state rnd } := by
  rw [exec_addRoundKey_keyed rnd hk, rndIllegal_eq_false.2 hr, failIf_false]

theorem transformsState_addRoundKey {s : State} {rnd : Nat} (hk : s.keyValid = true) (hr : rnd ≤ s.nr.toNat) :
    TransformsState s [.addRoundKey rnd] (addRoundKey s.ks · rnd) := fun b =>
  congrArg (thenDo · (execAll [])) (exec_addRoundKey_legal (s := { s with state := b }) hk hr)

theorem transformsState_subShift (s : State) : TransformsState s [.subBytes, .shiftRows] subShift := fun _ => rfl

theorem transformsState_invSubShift (s : State) : TransformsState s [.invShiftRows, .invSubBytes] invSubShift :=
  fun _ => rfl

theorem transformsState_mixColumns (s : State) : TransformsState s [.mixColumns] mixColumns := fun _ => rfl

theorem transformsState_invMixColumns (s : State) : TransformsState s [.invMixColumns] invMixColumns := fun _ => rfl

/-- The middle rounds have a round key. -/
theorem le_of_mem_middleRounds {r nr : Nat} (h : r ∈ middleRounds nr) : r ≤ nr := by
  rw [middleRounds, List.mem_range'_1] at h
  omega

theorem transformsState_encryptCommands {s : State} (hk : s.keyValid = true) :
    TransformsState s (encryptCommands s.nr.toNat) (encryptBlock s.ks s.nr.toNat) := by
  have start := transformsState_addRoundKey hk (Nat.zero_le s.nr.toNat)
  have middle : TransformsState s _ ((middleRounds s.nr.toNat).foldl (encRound s.ks)) :=
    .flatMap fun r hr => ((transformsState_subShift s).append (transformsState_mixColumns s)).append
      (transformsState_addRoundKey hk (le_of_mem_middleRounds hr))
  have last := (transformsState_subShift s).append (transformsState_addRoundKey hk le_rfl)
  rw [funext (encryptBlock_eq s.ks s.nr.toNat)]
  exact (start.append middle).append last

theorem transformsState_decryptCommands {s : State} (hk : s.keyValid = true) :
    TransformsState s (decryptCommands s.nr.toNat) (decryptBlock s.ks s.nr.toNat) := by
  have start := transformsState_addRoundKey hk (le_refl s.nr.toNat)
  have middle : TransformsState s _ ((middleRounds s.nr.toNat).reverse.foldl (decRound s.ks)) :=
    .flatMap fun r hr => ((transformsState_invSubShift s).append
      (transformsState_addRoundKey hk (le_of_mem_middleRounds (List.mem_reverse.1 hr)))).append
      (transformsState_invMixColumns s)
  have last := (transformsState_invSubShift s).append (transformsState_addRoundKey hk (Nat.zero_le _))
  rw [funext (decryptBlock_eq s.ks s.nr.toNat)]
  exact (start.append middle).append last

/-- Settles O37: the first key addition, the middle rounds and the last round compose to the cipher. -/
theorem roundCommandsComputeTheCipher : Obligations.RoundCommandsComputeTheCipher := by
  unfold Obligations.RoundCommandsComputeTheCipher
  exact fun s hk => ⟨transformsState_encryptCommands hk s.state, transformsState_decryptCommands hk s.state⟩

end Sys2Proof.Machine
end

/-! # The field of blocks (45_ghash.md R96, R97)

The loop of R96 adds up the products of its second operand with powers of x. As for bytes, a map that respects the sum and
the product with x therefore goes through the product, and taken for the product with a block this says that the product is
commutative and associative. -/

section

namespace Sys2Proof.Machine

theorem gcmR_eq : gcmR = 0xE1000000000000000000000000000000 := by decide

/-- The product with x is the shift, with the reduction added when a bit falls out (R96). -/
theorem shiftV_eq (v : Block) :
    shiftV v = (v >>> 1) ^^^ (if v.getLsbD 0 then 0xE1000000000000000000000000000000 else 0) := by
  rw [shiftV, bit128, shr128, xor128, gcmR_eq]
  split
  · rfl
  · exact (BitVec.xor_zero).symm

theorem shiftV_xor (v w : Block) : shiftV (v ^^^ w) = shiftV v ^^^ shiftV w := by
  have carry : ∀ (r : Block) (b c : Bool),
      (if b ^^ c then r else 0) = (if b then r else 0) ^^^ (if c then r else 0) := by
    rintro r (_ | _) (_ | _) <;> simp
  rw [shiftV_eq, BitVec.ushiftRight_xor_distrib, BitVec.getLsbD_xor, carry, shiftV_eq, shiftV_eq]
  ac_rfl

theorem mulgLoop_succ (a : Block) (n : Nat) (z v : Block) :
    mulgLoop a (n + 1) z v = mulgLoop a n (if a.getLsbD n then z ^^^ v else z) (shiftV v) := rfl

/-! ## Linear maps -/

/-- A map of blocks that respects their sum and the product with x. -/
structure Gf128Linear (f : Block → Block) : Prop where
  map_xor : ∀ v w, f (v ^^^ w) = f v ^^^ f w
  map_shiftV : ∀ v, f (shiftV v) = shiftV (f v)

theorem Gf128Linear.map_zero {f : Block → Block} (h : Gf128Linear f) : f 0 = 0 := by
  simpa using h.map_xor 0 0

theorem Gf128Linear.map_mulgLoop {f : Block → Block} (h : Gf128Linear f) (a : Block) (n : Nat) (z v : Block) :
    f (mulgLoop a n z v) = mulgLoop a n (f z) (f v) := by
  induction n generalizing z v with
  | zero => rfl
  | succ n ih => rw [mulgLoop_succ, mulgLoop_succ, ih, h.map_shiftV, apply_ite f, h.map_xor]

/-- A linear map of a product is the product with the image of the second factor. -/
theorem Gf128Linear.map_mulg {f : Block → Block} (h : Gf128Linear f) (a b : Block) : f (mulg a b) = mulg a (f b) := by
  rw [mulg, h.map_mulgLoop, h.map_zero, mulg]

theorem mulgLoop_xor (a : Block) (n : Nat) (y z v w : Block) :
    mulgLoop a n (y ^^^ z) (v ^^^ w) = mulgLoop a n y v ^^^ mulgLoop a n z w := by
  induction n generalizing y z v w with
  | zero => rfl
  | succ n ih =>
    have sum : y ^^^ z ^^^ (v ^^^ w) = (y ^^^ v) ^^^ (z ^^^ w) := by ac_rfl
    simp only [mulgLoop_succ, shiftV_xor, ← ih, sum]
    split <;> rfl

theorem linear_shiftV : Gf128Linear shiftV := ⟨shiftV_xor, fun _ => rfl⟩

/-- The product is linear in its second factor. -/
theorem linear_mulg (a : Block) : Gf128Linear (mulg a) where
  map_xor v w := by
    rw [mulg, mulg, mulg]
    exact mulgLoop_xor a 128 0 0 v w
  map_shiftV v := (linear_shiftV.map_mulg a v).symm

/-! ## The identity

The identity is the highest power of 2, and each product with x moves it down to the next one. With it for its second
operand the loop therefore puts the first together again, bit by bit. -/

theorem shiftV_twoPow_succ {n : Nat} (hn : n + 1 < 128) : shiftV (BitVec.twoPow 128 (n + 1)) = BitVec.twoPow 128 n := by
  apply BitVec.eq_of_getLsbD_eq
  intro j hj
  simp [shiftV_eq, BitVec.getLsbD_twoPow, hn, show n < 128 by omega, Nat.add_comm 1 j]

/-- One pass of the loop at the power of 2 of its own bit adds that bit of `a`. -/
theorem getLsbD_ite_xor_twoPow (a z : Block) {n : Nat} (hn : n < 128) (j : Nat) :
    (if a.getLsbD n then z ^^^ BitVec.twoPow 128 n else z).getLsbD j =
      (z.getLsbD j ^^ (decide (n = j) && a.getLsbD j)) := by
  by_cases same : n = j
  · subst same
    cases a.getLsbD n <;> simp [hn]
  · split <;> simp [BitVec.getLsbD_twoPow, same]

/-- From the power of 2 of bit `n` the loop adds the bits of `a` up to `n`. -/
theorem getLsbD_mulgLoop_twoPow (a z : Block) {n : Nat} (hn : n < 128) (j : Nat) :
    (mulgLoop a (n + 1) z (BitVec.twoPow 128 n)).getLsbD j = (z.getLsbD j ^^ (decide (j ≤ n) && a.getLsbD j)) := by
  induction n generalizing z with
  | zero =>
    rw [mulgLoop_succ, mulgLoop, getLsbD_ite_xor_twoPow a z hn]
    simp [eq_comm]
  | succ n ih =>
    rw [mulgLoop_succ, shiftV_twoPow_succ hn, ih _ (by omega), getLsbD_ite_xor_twoPow a z hn]
    by_cases last : j = n + 1
    · simp [last]
    · simp [show n + 1 ≠ j by omega, show j ≤ n + 1 ↔ j ≤ n by omega]

theorem mulg_one_right (a : Block) : mulg a 0x80000000000000000000000000000000 = a := by
  apply BitVec.eq_of_getLsbD_eq
  intro j hj
  rw [mulg, show (0x80000000000000000000000000000000 : Block) = BitVec.twoPow 128 127 by decide,
    getLsbD_mulgLoop_twoPow a 0 (by decide)]
  simp [show j ≤ 127 by omega]

/-! ## The laws of the product -/

/-- The product with `a`, a linear map, goes through the product `b • 1`. -/
theorem mulg_comm (a b : Block) : mulg a b = mulg b a := by
  have h := (linear_mulg a).map_mulg b 0x80000000000000000000000000000000
  rwa [mulg_one_right, mulg_one_right] at h

/-- The product with `c`, a linear map, goes through the product `a • b`. -/
theorem mulg_assoc (a b c : Block) : mulg (mulg a b) c = mulg a (mulg b c) := by
  rw [mulg_comm _ c, (linear_mulg c).map_mulg, mulg_comm c]

theorem mulg_one_left (a : Block) : mulg 0x80000000000000000000000000000000 a = a := by rw [mulg_comm, mulg_one_right]

theorem mulg_zero_left (a : Block) : mulg 0 a = 0 := by rw [mulg_comm, (linear_mulg a).map_zero]

theorem mulg_xor_left (a b c : Block) : mulg (a ^^^ b) c = mulg a c ^^^ mulg b c := by
  rw [mulg_comm, (linear_mulg c).map_xor, mulg_comm c, mulg_comm c]

/-- The factor x is the identity moved on once, so the product with it moves the other factor on. -/
theorem mulg_x_left (b : Block) : mulg 0x40000000000000000000000000000000 b = shiftV b := by
  rw [mulg_comm, show (0x40000000000000000000000000000000 : Block) = shiftV 0x80000000000000000000000000000000 by decide,
    (linear_mulg b).map_shiftV, mulg_one_right]

/-- Settles O38: the product is linear in both factors, and R97's products have a factor 1 or x, or the sum of the two. -/
theorem gf128Laws : Obligations.Gf128Laws := by
  unfold Obligations.Gf128Laws
  refine ⟨fun a => ⟨(linear_mulg a).map_zero, mulg_zero_left a, mulg_one_right a, mulg_one_left a⟩,
    fun a b c => ⟨mulg_xor_left a b c, (linear_mulg a).map_xor b c⟩, fun b => (mulg_x_left b).trans (shiftV_eq b), ?_, ?_⟩
  · rw [mulg_x_left]
    decide
  · rw [show (0xC0000000000000000000000000000000 : Block) =
        0x80000000000000000000000000000000 ^^^ 0x40000000000000000000000000000000 by decide,
      mulg_xor_left, mulg_one_left, mulg_x_left]
    decide

/-- Settles O39, by the linearity of the product. -/
theorem gf128CommutesAndAssociates : Obligations.Gf128CommutesAndAssociates := by
  unfold Obligations.Gf128CommutesAndAssociates
  exact ⟨mulg_comm, mulg_assoc⟩

end Sys2Proof.Machine
end

/-! # The shift on halves (45_ghash.md R95) -/

section

namespace Sys2Proof.Machine

theorem hiHalf_append_loHalf (v : Block) : hiHalf v ++ loHalf v = v :=
  BitVec.extractLsb'_append_extractLsb'

theorem hiHalf_ushiftRight (v : Block) (n : Nat) : hiHalf (v >>> n) = hiHalf v >>> n := by
  apply BitVec.eq_of_getLsbD_eq
  intro j hj
  simp only [hiHalf, BitVec.getLsbD_ushiftRight, BitVec.getLsbD_extractLsb', hj, decide_true, Bool.true_and]
  by_cases inside : n + j < 64
  · simp [inside, Nat.add_left_comm]
  · simp [inside, BitVec.getLsbD_of_ge v (n + (64 + j)) (by omega)]

/-- The low half takes in the bits that fall out of the high half. -/
theorem loHalf_ushiftRight (v : Block) {n : Nat} (hn : n ≤ 64) :
    loHalf (v >>> n) = (loHalf v >>> n) ||| (hiHalf v <<< (64 - n)) := by
  apply BitVec.eq_of_getLsbD_eq
  intro j hj
  simp only [hiHalf, loHalf, BitVec.getLsbD_or, BitVec.getLsbD_shiftLeft, BitVec.getLsbD_ushiftRight,
    BitVec.getLsbD_extractLsb', hj, decide_true, Bool.true_and, Nat.zero_add]
  by_cases low : n + j < 64
  · simp [low, show j < 64 - n by omega]
  · simp [low, show ¬ j < 64 - n by omega, show j - (64 - n) < 64 by omega,
      show 64 + (j - (64 - n)) = n + j by omega]

theorem shrSmall_halves (v : Block) {n : Nat} (hn : n ≤ 64) :
    shrSmall (hiHalf v, loHalf v) n = (hiHalf (v >>> n), loHalf (v >>> n)) := by
  rw [shrSmall]
  split
  case isTrue h => rw [h, BitVec.ushiftRight_zero]
  case isFalse => rw [hiHalf_ushiftRight, loHalf_ushiftRight v hn]

theorem shrLoop_halves (v : Block) {fuel n : Nat} (hn : n < fuel) :
    shrLoop fuel (hiHalf v, loHalf v) n = (hiHalf (v >>> n), loHalf (v >>> n)) := by
  induction fuel generalizing v n with
  | zero => omega
  | succ fuel ih =>
    rw [shrLoop]
    split
    · rw [shrSmall_halves v le_rfl, ih _ (by omega), ← BitVec.shiftRight_add, Nat.add_sub_cancel' (by omega)]
    · exact shrSmall_halves v (by omega)

/-- Settles O40: the halves the algorithm ends with are those of the shifted block, for every amount. -/
theorem halvesShiftIsTheShift : Obligations.HalvesShiftIsTheShift := by
  unfold Obligations.HalvesShiftIsTheShift
  refine fun v n => ⟨?_, ?_, BitVec.ushiftRight_eq_zero⟩
  · rw [shrHalves, shrLoop_halves v n.lt_succ_self]
    exact hiHalf_append_loHalf _
  · rw [shr128, BitVec.toNat_ushiftRight, Nat.shiftRight_eq_div_pow]

end Sys2Proof.Machine
end

/-! # The GHASH commands (45_ghash.md R101 to R104) -/

section

namespace Sys2Proof.Machine

/-- With a key, GHASH_INIT derives H and clears what R101 names. -/
theorem exec_ghashInit_keyed {s : State} (hk : s.keyValid = true) :
    exec .ghashInit s = .next { s with
      h := encryptBlock s.ks s.nr.toNat 0, x := 0, alen := 0, clen := 0, tagValid := false, tagOk := false } :=
  needKey_valid hk

/-- Settles O41: the key check decides. -/
theorem ghashInitCommand : Obligations.GhashInitCommand := by
  unfold Obligations.GhashInitCommand
  exact ⟨Laws.encodeDecodeRoundTrip .ghashInit rfl, fun s => ⟨exec_ghashInit_keyed, needKey_invalid⟩⟩

theorem byteOf_pad (b : Block) (nb : Nat) {i : Nat} (hi : i < 16) :
    byteOf (pad b nb) i = if i < nb then byteOf b i else 0 := by
  rw [pad, byteOf_blockOf _ i hi]

/-- A length counts the bits of NB bytes modulo 2^64 (R102, R103). -/
theorem toNat_add_bitsOf (len : Half) (nb : Nat) : (len + bitsOf nb).toNat = (len.toNat + 8 * nb) % 2 ^ 64 := by
  rw [bitsOf, BitVec.toNat_add, BitVec.toNat_ofNat, Nat.add_mod_mod]

/-- Settles O42: the check of NB decides, and what is hashed and counted is the padded source block and its bits. -/
theorem ghashBlockCommands : Obligations.GhashBlockCommands := by
  unfold Obligations.GhashBlockCommands
  refine ⟨Laws.encodeDecodeRoundTrip (.ghashAad 16 .din) rfl, Laws.encodeDecodeRoundTrip (.ghashCt 16 .dout) rfl,
    fun s nb src => ⟨fun h1 h16 => ?legal, fun hb => ?badArg⟩⟩
  case legal =>
    have legal := nbIllegal_eq_false.2 ⟨h1, h16⟩
    refine ⟨pad (sourceBlock src s) nb, s.alen + bitsOf nb, s.clen + bitsOf nb, execGhashAad_legal src s legal,
      execGhashCt_legal src s legal, fun i hi => ?_, toNat_add_bitsOf _ _, toNat_add_bitsOf _ _⟩
    rw [byteOf_pad _ nb hi]
    cases src <;> rfl
  case badArg =>
    have illegal := nbIllegal_eq_true.2 hb
    exact ⟨failIf_next.2 (.inl ⟨illegal, rfl⟩), failIf_next.2 (.inl ⟨illegal, rfl⟩)⟩

theorem toNat_lengthBlock (alen clen : Half) :
    (lengthBlock alen clen).toNat = alen.toNat * 2 ^ 64 + clen.toNat := by
  rw [lengthBlock, BitVec.toNat_append, ← Nat.shiftLeft_add_eq_or_of_lt clen.isLt, Nat.shiftLeft_eq]

/-- Settles O43: the block hashed is the length block, read as a number. -/
theorem ghashLenCommand : Obligations.GhashLenCommand := by
  unfold Obligations.GhashLenCommand
  exact ⟨Laws.encodeDecodeRoundTrip .ghashLen rfl, fun s =>
    ⟨lengthBlock s.alen s.clen, rfl, toNat_lengthBlock s.alen s.clen⟩⟩

end Sys2Proof.Machine
end

/-! # GHASH of a whole message by its commands (45_ghash.md R98, R99)

A list of blocks hashed by one command folds them into X and counts their bits in one of the two lengths. Both commands are
treated at once: `count` says how the bits of a string go into the pair of ALEN and CLEN, and it is additive. -/

section

namespace Sys2Proof.Machine

/-- `s` with DIN, X and the pair of lengths as hashing left them, and the tag flags clear. -/
def hashed (s : State) (din x : Block) (lengths : Half × Half) : State :=
  { s with
    din := din, x := x, alen := lengths.1, clen := lengths.2, tagValid := false, tagOk := false }

/-- `cmd` hashes a chunk loaded in DIN and counts its bits by `count`. -/
def HashesChunk (cmd : Nat → Src → Instr) (count : Half →+ Half × Half) : Prop :=
  ∀ (s : State) (b : List Byte), 1 ≤ b.length → b.length ≤ 16 →
    exec (cmd b.length .din) { s with din := blockAt b } =
      .next (hashed s (blockAt b) (ghashStep s.h s.x (blockAt b)) ((s.alen, s.clen) + count (bitsOf b.length)))

theorem hashesChunk_aad : HashesChunk .ghashAad (AddMonoidHom.inl Half Half) := by
  intro s b l1 l2
  simp [exec_aadChunk s b l1 l2, hashed]

theorem hashesChunk_ct : HashesChunk .ghashCt (AddMonoidHom.inr Half Half) := by
  intro s b l1 l2
  simp [exec_ctChunk s b l1 l2, hashed]

theorem bitsTotal_nil : bitsTotal [] = 0 := rfl

/-- A list of chunks, hashed one after another. -/
theorem hashAll_hashed {cmd : Nat → Src → Instr} {count : Half →+ Half × Half} (h : HashesChunk cmd count)
    {bs : List (List Byte)} (hbs : ∀ b ∈ bs, 1 ≤ b.length ∧ b.length ≤ 16) (s : State) (din x : Block)
    (lengths : Half × Half) :
    ∃ din', hashAll cmd bs (hashed s din x lengths) =
      .next (hashed s din' (hashFold s.h x bs) (lengths + count (bitsTotal bs))) := by
  induction bs generalizing din x lengths with
  | nil => exact ⟨din, by rw [bitsTotal_nil, map_zero, add_zero]; rfl⟩
  | cons b bs ih =>
    obtain ⟨⟨l1, l2⟩, others⟩ := List.forall_mem_cons.1 hbs
    rw [hashAll, h _ b l1 l2, bitsTotal_cons, map_add, ← add_assoc]
    exact ih others _ _ _

/-- Settles O44: GHASH_INIT leaves X and the lengths at zero, the chunks of A and of C are folded in and counted, and
GHASH_LEN hashes the lengths so reached. -/
theorem ghashCommandsComputeGhash : Obligations.GhashCommandsComputeGhash := by
  unfold Obligations.GhashCommandsComputeGhash
  intro s a c hk
  let keyed : State := { s with h := encryptBlock s.ks s.nr.toNat 0 }
  have init : exec .ghashInit s = .next (hashed keyed s.din 0 0) := exec_ghashInit_keyed hk
  obtain ⟨d1, aad⟩ := hashAll_hashed hashesChunk_aad (chunksOf_length a) keyed s.din 0 0
  obtain ⟨d2, ct⟩ := hashAll_hashed hashesChunk_ct (chunksOf_length c) keyed d1 (hashFold keyed.h 0 (chunksOf a))
    (0 + AddMonoidHom.inl Half Half (bitsTotal (chunksOf a)))
  have lengths : 0 + AddMonoidHom.inl Half Half (bitsTotal (chunksOf a)) +
      AddMonoidHom.inr Half Half (bitsTotal (chunksOf c)) = (bitLength a, bitLength c) := by
    simp [bitLength_total]
  rw [lengths] at ct
  refine ⟨d2, ?_⟩
  rw [init, thenDo, aad, thenDo, ct]
  rfl

end Sys2Proof.Machine
end

/-! # Where TAG_OK comes from (46_gcm.md R109, R114) -/

section

namespace Sys2Proof.Machine

theorem verdict_tagOk_iff (s : State) : (verdict s).tagOk = true ↔ s.tag = s.rtag := by
  rw [verdict_tagOk, decide_eq_true_iff, tagDifference_eq_zero]

/-- Of the commands only GCM_VERIFY sets TAG_OK, and only on a valid tag that is equal to RTAG. -/
theorem exec_sets_tagOk {i : Instr} {s t : State} (h : exec i s = .next t) (hs : s.tagOk = false)
    (ht : t.tagOk = true) : i = .gcmVerify ∧ s.tagValid = true ∧ s.tag = s.rtag := by
  obtain ⟨code, -, rfl⟩ | ⟨rfl, -, hv⟩ := exec_next h
  · simp [hs] at ht
  · cases i with
    | gcmVerify => exact ⟨rfl, hv rfl, (verdict_tagOk_iff s).1 ht⟩
    | keyExpand kl => cases kl <;> simp [effect, nkOf] at ht
    | _ => simp [effect, hs] at ht

theorem coreTurn_sets_tagOk {s t : State} (h : coreTurn s = .next t) (hs : s.tagOk = false) (ht : t.tagOk = true) :
    (s.busy = true ∧ decode s.pending = .ok .gcmVerify) ∧ s.tagValid = true ∧ s.tag = s.rtag := by
  unfold coreTurn at h
  split at h
  next busy =>
    obtain ⟨i, u, hd, hu, rfl⟩ | ⟨r, -, rfl⟩ := perform_next h
    · obtain ⟨rfl, hv⟩ := exec_sets_tagOk hu hs ht
      exact ⟨⟨busy, hd⟩, hv⟩
    · simp [hs] at ht
  next =>
    cases h
    simp [hs] at ht

/-- A host cannot write TAG_OK. -/
theorem busAccess_tagOk (a : Access) (s : State) : (busAccess a s).tagOk = s.tagOk := by
  obtain ⟨r, e | ⟨off, v, e⟩⟩ := busAccess_cases a s
  · rw [e, respond_tagOk]
  · obtain ⟨-, -, -, -, -, -, -, -, -, -, tagOk, -⟩ := hostWritesLeaveCoreRegisters s _ off v rfl
    rw [e, respond_tagOk, tagOk]

theorem hostTurn_tagOk (k : Nat) (s : State) : (hostTurn k s).tagOk = s.tagOk := by
  obtain ⟨hs, n, e | ⟨a, e⟩⟩ := hostTurn_cases k s
  · rw [e]
  · rw [e]
    exact busAccess_tagOk a s

/-- Settles O51: accesses, procedures and reset never set TAG_OK, and of the commands only GCM_VERIFY does. -/
theorem tagOkOnlyByVerify : Obligations.TagOkOnlyByVerify := by
  unfold Obligations.TagOkOnlyByVerify
  intro s t h hs ht
  rw [step_takeTurn] at h
  cases hturn : turnOf s with
  | core =>
    rw [hturn] at h
    obtain ⟨hp, hv⟩ := coreTurn_sets_tagOk (s := popTurn s) h hs ht
    exact ⟨⟨hturn, hp⟩, hv⟩
  | access a =>
    rw [hturn] at h
    cases h
    simp [busAccess_tagOk, popTurn, hs] at ht
  | host k =>
    rw [hturn] at h
    cases h
    simp [hostTurn_tagOk, popTurn, hs] at ht
  | reset =>
    rw [hturn] at h
    cases h
    cases ht

end Sys2Proof.Machine
end

/-! # The counter block (46_gcm.md R105, R110, R111) -/

section

namespace Sys2Proof.Machine

/-- A counter block begins with the 12 bytes that stand before its last word. -/
theorem byteOf_append_word (x : Nonce) (y : Word) {i : Nat} (hi : i < 12) :
    byteOf (w := 128) (x ++ y) i = byteOf x i := by
  have e : 128 - 8 * (i + 1) = 96 - 8 * (i + 1) + 32 := by omega
  rw [byteOf, byteOf, e]
  exact extract_append_word_high x y

/-- The first 12 bytes of a block, cut out. -/
theorem byteOf_extract_prefix (b : Block) {i : Nat} (hi : i < 12) : byteOf (b.extractLsb' 32 96) i = byteOf b i := by
  apply BitVec.eq_of_getLsbD_eq
  intro j hj
  have inside : 96 - 8 * (i + 1) + j < 96 := by omega
  have place : 32 + (96 - 8 * (i + 1) + j) = 128 - 8 * (i + 1) + j := by omega
  rw [byteOf_getLsbD, byteOf_getLsbD, BitVec.getLsbD_extractLsb', decide_eq_true inside, Bool.true_and, place]

theorem byteOf_inc32 (cb : Block) {i : Nat} (hi : i < 12) : byteOf (inc32 cb) i = byteOf cb i :=
  (byteOf_append_word _ _ hi).trans (byteOf_extract_prefix cb hi)

theorem wordOf_inc32 (cb : Block) : wordOf (inc32 cb) 3 = wordOf cb 3 + 1 := BitVec.extractLsb'_append_eq_right

/-- Settles O45: genCounter appends be32(1) to the nonce, and inc32 counts in the last word alone. -/
theorem counterCommands : Obligations.CounterCommands := by
  unfold Obligations.CounterCommands
  refine ⟨Laws.encodeDecodeRoundTrip .ctrInit rfl, Laws.encodeDecodeRoundTrip .ctrInc rfl, fun s =>
    ⟨⟨genCounter s.nonce, rfl, fun i => byteOf_append_word s.nonce 1, wordOf_genCounter s.nonce⟩,
      ⟨inc32 s.cb, rfl, fun i => byteOf_inc32 s.cb, ?_⟩⟩⟩
  rw [wordOf_inc32]
  exact BitVec.toNat_add _ _

end Sys2Proof.Machine
end

/-! # GCTR (46_gcm.md R106, R112) -/

section

namespace Sys2Proof.Machine

theorem openingUnverified_eq_false {dir : Dir} {s : State} :
    openingUnverified dir s = false ↔ (dir = .opening → s.tagOk = true) := by
  simp [openingUnverified]

theorem byteOf_gctrOut (nb : Nat) (din mask : Block) {i : Nat} (hi : i < 16) :
    byteOf (gctrOut nb din mask) i = if i < nb then byteOf din i ^^^ byteOf mask i else 0 :=
  byteOf_blockOf _ i hi

/-- With a key, GCTR is left with its checks of NB and of TAG_OK. -/
theorem exec_gctr_keyed {s : State} (nb : Nat) (dir : Dir) (hk : s.keyValid = true) :
    exec (.gctr nb dir) s = failIf (nbIllegal nb) .badArg s (failIf (openingUnverified dir s) .authRequired s
      (.next { s with dout := gctrOut nb s.din (cipherE s s.cb), cb := inc32 s.cb })) :=
  needKey_valid hk

/-- Settles O46: the checks of the key, of NB and of TAG_OK decide in this order (R122). -/
theorem gctrCommand : Obligations.GctrCommand := by
  unfold Obligations.GctrCommand
  refine ⟨Laws.encodeDecodeRoundTrip (.gctr 16 .sealing) rfl, Laws.encodeDecodeRoundTrip (.gctr 5 .opening) rfl,
    fun s nb dir => ⟨fun hk h1 h16 hv => ⟨gctrOut nb s.din (cipherE s s.cb), ?legal, fun i => byteOf_gctrOut nb _ _⟩,
      needKey_invalid, fun hk hn => ?badArg, fun hk h1 h16 hdir hok => ?authRequired⟩⟩
  case legal =>
    rw [exec_gctr_keyed nb dir hk, nbIllegal_eq_false.2 ⟨h1, h16⟩, openingUnverified_eq_false.2 hv, failIf_false,
      failIf_false]
  case badArg =>
    rw [exec_gctr_keyed nb dir hk, nbIllegal_eq_true.2 hn]
    rfl
  case authRequired =>
    rw [exec_gctr_keyed nb dir hk, nbIllegal_eq_false.2 ⟨h1, h16⟩, openingUnverified_eq_true.2 ⟨hdir, hok⟩]
    rfl

end Sys2Proof.Machine
end

/-! # The tag (46_gcm.md R113, R114) -/

section

namespace Sys2Proof.Machine

/-- With a key, GCM_TAG masks X with the encryption of J0. -/
theorem exec_gcmTag_keyed {s : State} (hk : s.keyValid = true) :
    exec .gcmTag s = .next { s with
      tag := s.x ^^^ encryptBlock s.ks s.nr.toNat s.j0, tagValid := true, tagOk := false } :=
  needKey_valid hk

/-- Settles O49: the key check decides. -/
theorem gcmTagCommand : Obligations.GcmTagCommand := by
  unfold Obligations.GcmTagCommand
  exact ⟨Laws.encodeDecodeRoundTrip .gcmTag rfl, fun s => ⟨exec_gcmTag_keyed, needKey_invalid⟩⟩

theorem verdict_equal {s : State} (h : s.tag = s.rtag) : verdict s = { s with tagOk := true } :=
  if_pos ((tagDifference_eq_zero _ _).2 h)

theorem verdict_different {s : State} (h : s.tag ≠ s.rtag) :
    verdict s = { s with tagOk := false, authFail := true } :=
  if_neg (mt (tagDifference_eq_zero _ _).1 h)

/-- With a valid tag, GCM_VERIFY gives its verdict. -/
theorem exec_gcmVerify_valid {s : State} (hv : s.tagValid = true) : exec .gcmVerify s = .next (verdict s) :=
  failIf_next.2 (.inr ⟨by rw [hv]; rfl, rfl⟩)

/-- Settles O50: the check for a valid tag decides, then the comparison of the whole tags. -/
theorem gcmVerifyCommand : Obligations.GcmVerifyCommand := by
  unfold Obligations.GcmVerifyCommand
  refine ⟨Laws.encodeDecodeRoundTrip .gcmVerify rfl, fun s => ⟨fun hv h => ?equal, fun hv h => ?different, fun hv => ?noTag⟩⟩
  case equal => rw [exec_gcmVerify_valid hv, verdict_equal h]
  case different => rw [exec_gcmVerify_valid hv, verdict_different h]
  case noTag => exact failIf_next.2 (.inl ⟨by rw [hv]; rfl, rfl⟩)

end Sys2Proof.Machine
end

/-! # Counter mode (46_gcm.md R106) -/

section

namespace Sys2Proof.Machine

/-- A string is its chunks, one after another (R98). -/
theorem flatten_chunksOf : ∀ s : List Byte, (chunksOf s).flatten = s := by
  apply chunks_induct
  · rfl
  · intro s h ih
    rw [chunksOf_step h, List.flatten_cons, ih, List.take_append_drop]

/-- Masking twice with the same block gives a chunk back. -/
theorem zipWith_xor_zipWith_xor {b m : List Byte} (h : b.length ≤ m.length) :
    List.zipWith (· ^^^ ·) (List.zipWith (· ^^^ ·) b m) m = b := by
  apply List.ext_getElem
  · simpa using h
  · intro i _ _
    rw [List.getElem_zipWith, List.getElem_zipWith, BitVec.xor_assoc, BitVec.xor_self, BitVec.xor_zero]

/-- Masking the masked chunks again from the same counter block gives the chunks back. -/
theorem maskedChunks_maskedChunks (enc : Block → Block) (cb : Block) {bs : List (List Byte)}
    (h : ∀ b ∈ bs, b.length ≤ 16) : maskedChunks enc cb (maskedChunks enc cb bs) = bs := by
  induction bs generalizing cb with
  | nil => rfl
  | cons b bs ih =>
    obtain ⟨first, others⟩ := List.forall_mem_cons.1 h
    rw [maskedChunks, maskedChunks, ih _ others, zipWith_xor_zipWith_xor (by rwa [bytesOf_length])]

/-- The counter advances once per chunk, masked or not. -/
theorem incBy_maskedChunks (enc : Block → Block) (cb ctr : Block) (bs : List (List Byte)) :
    incBy ctr (maskedChunks enc cb bs) = incBy ctr bs := by
  induction bs generalizing cb ctr with
  | nil => rfl
  | cons b bs ih => exact ih _ _

/-- Settles O48: chunk by chunk, masking keeps the length, and from the same counter block it undoes itself. -/
theorem gctrInvertsItself : Obligations.GctrInvertsItself := by
  unfold Obligations.GctrInvertsItself
  intro enc cb data
  have short : ∀ b ∈ chunksOf data, b.length ≤ 16 := fun b hb => (chunksOf_length data b hb).2
  constructor
  · rw [gctr_eq, List.length_flatten, maskedChunks_lengths enc cb _ short, chunksOf_total]
  · rw [gctr_eq, gctr_eq, chunksOf_masked, maskedChunks_maskedChunks enc cb short, incBy_maskedChunks, flatten_chunksOf]

/-- A list of chunks, loaded and masked one after another (R106, R112). -/
theorem maskAll_masked {dir : Dir} {bs : List (List Byte)} (hbs : ∀ b ∈ bs, 1 ≤ b.length ∧ b.length ≤ 16) (s : State)
    (hk : s.keyValid = true) (hv : openingUnverified dir s = false) (out : List Byte) (din dout cb : Block) :
    ∃ din' dout', maskAll dir bs out { s with din := din, dout := dout, cb := cb } =
      .next (out ++ (maskedChunks (cipherE s) cb bs).flatten,
        { s with din := din', dout := dout', cb := incBy cb bs }) := by
  induction bs generalizing out din dout cb with
  | nil => exact ⟨din, dout, by rw [maskedChunks, List.flatten_nil, List.append_nil]; rfl⟩
  | cons b bs ih =>
    obtain ⟨⟨l1, l2⟩, others⟩ := List.forall_mem_cons.1 hbs
    have first := exec_gctrChunk { s with din := din, dout := dout, cb := cb } b dir hk l1 l2 hv
    rw [maskAll, first]
    dsimp only
    rw [masked_bytes _ b l2, maskedChunks, List.flatten_cons, ← List.append_assoc]
    exact ih others _ _ _ _

/-- Settles O47: the chunks of the data are masked from CB on. -/
theorem gctrCommandsComputeGctr : Obligations.GctrCommandsComputeGctr := by
  unfold Obligations.GctrCommandsComputeGctr
  intro s dir data hk hv
  rw [gctr_eq]
  exact maskAll_masked (chunksOf_length data) s hk (openingUnverified_eq_false.2 hv) [] s.din s.dout s.cb

end Sys2Proof.Machine
end

/-! # What SEAL and OPEN have in common (46_gcm.md R107, R115 to R117) -/

section

namespace Sys2Proof.Machine

/-! ## Ends of whole runs -/

/-- A procedure that comes to an end has, from some round on, ended as `e` says with the registers of `t`. -/
theorem Ends.endsAlone {h : HostRun} {s t : State} {e : HostEnd} {Post : State → HostRun → Prop} (hb : s.busy = false)
    (hh : s.hosts = [h]) (hr : h.ending = .running) (ends : Ends h.prog h.rest h.locals s e t)
    (post : ∀ p c r g, g.ending = e → Post (dress p c false r [g] [] t) g) : EndsAlone s Post := by
  obtain ⟨rounds, hrun⟩ := ends.run hb hh hr
  refine ⟨rounds, fun n hn => ?_⟩
  obtain ⟨p, c, r, g, hg, run⟩ := hrun n hn
  exact ⟨_, g, run, rfl, rfl, rfl, post p c r g hg⟩

/-- What holds at the end may be weakened. -/
theorem EndsAlone.imp {s : State} {P Q : State → HostRun → Prop} (h : EndsAlone s P) (hpq : ∀ t g, P t g → Q t g) :
    EndsAlone s Q := by
  obtain ⟨rounds, hr⟩ := h
  refine ⟨rounds, fun n hn => ?_⟩
  obtain ⟨t, g, run, hosts, agenda, idle, hp⟩ := hr n hn
  exact ⟨t, g, run, hosts, agenda, idle, hpq t g hp⟩

/-- The check of the nonce holds of every length but 12. -/
theorem nonceTest_holds {vs : List Val} {nonce : List Byte} (hn : getLocal vs 0 = .bytes nonce) :
    (lengthIsNot (.var 0) Config.nonceSize).holds vs = decide (nonce.length ≠ 12) :=
  lengthIsNot_holds 12 hn

/-- A procedure whose first step is the check of the nonce refuses one that is not of 12 bytes, and does nothing. -/
theorem endsAlone_wrongNonce {prog rest : List HostOp} {vs : List Val} {nonce : List Byte} {s : State}
    (hb : s.busy = false) (hh : s.hosts = [⟨prog, nonceCheck :: rest, vs, .running⟩])
    (hn : getLocal vs 0 = .bytes nonce) (hl : nonce.length ≠ 12) :
    EndsAlone s (FailedUntouched .preconditionViolation s) :=
  endsAlone_failed hb hh 1 rfl fun n =>
    eagerRun_fails n _ _ _ s .preconditionViolation ((nonceTest_holds hn).trans (decide_eq_true hl))

/-! ## Tests of STATUS -/

section
variable {vs : List Val} {t : State} (hx : getLocal vs 3 = .num (idleStatus t).toNat)
include hx

theorem errTest_holds : (fieldIs 3 5 1 1).holds vs = t.err := by
  obtain ⟨-, -, err⟩ := statusWord_bits { t with busy := false }
  rw [fieldIs_holds 5 1 hx, idleStatus, err]
  cases t.err <;> rfl

theorem tagOkTest_holds : (fieldIs 3 3 1 0).holds vs = !t.tagOk := by
  obtain ⟨-, tagOk, -⟩ := statusWord_bits { t with busy := false }
  rw [fieldIs_holds 3 0 hx, idleStatus, tagOk]
  cases t.tagOk <;> rfl

end

/-! ## The tag -/

/-- The registers once the associated data `a` and the ciphertext `c` are hashed: DIN, DOUT and CB are left as the passes
over the blocks left them. -/
def absorbed (nonce a c : List Byte) (din dout cb : Block) (s : State) : State :=
  { opened nonce s with
    din := din, dout := dout, cb := cb
    x := ghashBytes (cipherE s 0) (ghashBytes (cipherE s 0) 0 a) c
    alen := bitLength a, clen := bitLength c }

/-- The registers once the tag is computed too. -/
def tagged (nonce a c : List Byte) (din dout cb : Block) (s : State) : State :=
  { absorbed nonce a c din dout cb s with
    x := ghash c a (cipherE s 0)
    tag := gcmTag (cipherE s) (nonceOf nonce) c a
    tagValid := true }

section
variable {prog rest : List HostOp} {nonce p a : List Byte} {st j n c w b : Val} {more : List Val}

/-- The associated data, hashed after the opening. -/
theorem reaches_absorbedAad (s : State)
    (hTop : afterLabel 2 prog = .ifGoto (.not (.lt (.var 4) (blockCount (.var 2)))) 3 ::
      ((loadBlock (.var 2) ++ runWord (.command (.ghashAad 0 .din) (.var 5)) 3) ++ loopTail 4 2 3 rest))
    (hDone : afterLabel 3 prog = rest) :
    ∃ st' j' n' d, Reaches prog (aadProg ++ rest) (gcmLocals nonce p a st j n c w b more) (opened nonce s) rest
      (gcmLocals nonce p a st' j' n' c w b more)
      (absorbed nonce a [] d s.dout (inc32 (genCounter (nonceOf nonce))) s) := by
  obtain ⟨st', j', n', d, h⟩ := reaches_aad (nonce := nonce) (p := p) (a := a) (st := st) (j := j) (n := n) (c := c)
    (w := w) (b := b) (more := more) (opened nonce s) rfl rfl hTop hDone
  have bits : (opened nonce s).alen + bitsTotal (chunksOf a) = bitLength a :=
    (BitVec.zero_add _).trans (bitLength_total a).symm
  rw [bits] at h
  exact ⟨st', j', n', d, h⟩

/-- A ciphertext hashed after the associated data adds its bits to none. -/
theorem absorbed_nil_clen_add (nonce a : List Byte) (din dout cb : Block) (s : State) (d : List Byte) :
    (absorbed nonce a [] din dout cb s).clen + bitsTotal (chunksOf d) = bitLength d :=
  (BitVec.zero_add _).trans (bitLength_total d).symm

/-- GHASH_LEN and GCM_TAG turn what has been hashed into the tag of R107. -/
theorem reaches_tagged (d : List Byte) (din dout cb : Block) (s : State) (hk : s.keyValid = true) :
    ∃ st', Reaches prog (run .ghashLen 3 ++ (run .gcmTag 3 ++ rest)) (gcmLocals nonce p a st j n c w b more)
      (absorbed nonce a d din dout cb s) rest (gcmLocals nonce p a st' j n c w b more)
      (tagged nonce a d din dout cb s) := by
  have len : exec .ghashLen (absorbed nonce a d din dout cb s) =
      .next { absorbed nonce a d din dout cb s with x := ghash d a (cipherE s 0) } := rfl
  have tag : exec .gcmTag { absorbed nonce a d din dout cb s with x := ghash d a (cipherE s 0) } =
      .next (tagged nonce a d din dout cb s) := needKey_valid hk
  exact ⟨_, (reaches_runInstr .ghashLen 3 (by decide) len).trans (reaches_runInstr .gcmTag 3 (by decide) tag)⟩

end

end Sys2Proof.Machine
end

/-! # SEAL (46_gcm.md R116) -/

section

namespace Sys2Proof.Machine

/-! ## The listing, from each of its loops on -/

/-- SEAL from the read of STATUS on. -/
def sealReturn : List HostOp :=
  .load 3 (.window (.num 0x004)) :: .failIf (fieldIs 3 5 1 1) .preconditionViolation ::
    (rdblk 8 7 0x0B0 ++ [.ret [.cat (.var 6) (.var 8)]])

/-- SEAL after its pass over the plaintext. -/
def sealTag : List HostOp := run .ghashLen 3 ++ (run .gcmTag 3 ++ sealReturn)

/-- SEAL after its pass over the associated data. -/
def sealBody : List HostOp :=
  .assign 6 (.bytes []) :: (forLoop 4 (blockCount (.var 1)) 4 5 sealBlockProg ++ sealTag)

theorem sealProg_eq : sealProg = nonceCheck :: (openingProg ++ (aadProg ++ sealBody)) := sealProg_parts

/-- The ciphertext SEAL forms of `p` (R107). -/
def sealedText (nonce p : List Byte) (s : State) : List Byte :=
  (gctr (encryptBlock s.ks s.nr.toNat) (inc32 (genCounter (nonceOf nonce))) p).1

/-- The chunks SEAL hashes are those of the ciphertext. -/
theorem chunksOf_sealedText (nonce p : List Byte) (s : State) : chunksOf (sealedText nonce p s) =
    maskedChunks (cipherE s) (inc32 (genCounter (nonceOf nonce))) (chunksOf p) := by
  rw [sealedText, gctr_eq]
  exact chunksOf_masked (cipherE s) p _

/-- The ciphertext has the bits of the plaintext, in number. -/
theorem bitsTotal_sealedText (nonce p : List Byte) (s : State) :
    bitsTotal (chunksOf (sealedText nonce p s)) = bitsTotal (chunksOf p) := by
  obtain ⟨length, -⟩ := gctrInvertsItself (encryptBlock s.ks s.nr.toNat) (inc32 (genCounter (nonceOf nonce))) p
  rw [← bitLength_total, ← bitLength_total, bitLength, bitLength, sealedText, length]

section
variable {nonce p a : List Byte} {st j n c w b : Val} {more : List Val}

/-- The pass of SEAL over the plaintext leaves the ciphertext in variable 6 and hashed in X. -/
theorem reaches_absorbedText (d dout : Block) (s : State) (hk : s.keyValid = true) :
    ∃ st' j' n' w' b' din' dout' cb', Reaches sealProg (forLoop 4 (blockCount (.var 1)) 4 5 sealBlockProg ++ sealTag)
      (gcmLocals nonce p a st j n (.bytes []) w b more)
      (absorbed nonce a [] d dout (inc32 (genCounter (nonceOf nonce))) s) sealTag
      (gcmLocals nonce p a st' j' n' (.bytes (sealedText nonce p s)) w' b' more)
      (absorbed nonce a (sealedText nonce p s) din' dout' cb' s) := by
  let u : State := absorbed nonce a [] d dout (inc32 (genCounter (nonceOf nonce))) s
  obtain ⟨st', j', n', w', b', din', dout', h⟩ := reaches_seal (prog := sealProg) (rest := sealTag) (nonce := nonce)
    (p := p) (a := a) (st := st) (j := j) (n := n) (w := w) (b := b) (more := more) u hk rfl rfl (by decide +kernel)
    (by decide +kernel)
  have masks : maskedChunks (cipherE u) u.cb (chunksOf p) = chunksOf (sealedText nonce p s) :=
    (chunksOf_sealedText nonce p s).symm
  rw [masks, flatten_chunksOf, ← bitsTotal_sealedText nonce p s, absorbed_nil_clen_add] at h
  exact ⟨st', j', n', w', b', din', dout', _, h⟩

/-- SEAL from the read of STATUS on: where no command has failed it returns its output and TAG. -/
theorem ends_sealReturn (o : List Byte) (t : State) (ht : t.err = false) :
    Ends sealProg sealReturn (gcmLocals nonce p a st j n (.bytes o) w b more) t (.returned [o ++ bytesOf t.tag]) t := by
  have noErr : (fieldIs 3 5 1 1).holds (gcmLocals nonce p a (.num (idleStatus t).toNat) j n (.bytes o) w b more) = false :=
    (errTest_holds rfl).trans ht
  obtain ⟨w', rd⟩ := reaches_tag (prog := sealProg) (rest := [.ret [.cat (.var 6) (.var 8)]]) (nonce := nonce) (p := p)
    (a := a) (st := .num (idleStatus t).toNat) (j := j) (n := n) (c := .bytes o) (w := w) (b := b) (more := more) t
  exact ((reaches_status t 3).trans ((reaches_failIf t _ noErr).trans rd)).ends (ends_ret t _)

end

/-- SEAL with a 12-byte nonce, on a core with a valid key. -/
theorem ends_seal (s : State) {nonce : List Byte} (p a : List Byte) (hk : s.keyValid = true) (hl : nonce.length = 12) :
    ∃ t, Ends sealProg sealProg (procSeal nonce p a).locals s
      (.returned [sealedText nonce p s ++ bytesOf (gcmTag (cipherE s) (nonceOf nonce) (sealedText nonce p s) a)]) t := by
  have nonceOk := reaches_failIf (prog := sealProg) (rest := openingProg ++ (aadProg ++ sealBody))
    (vs := (procSeal nonce p a).locals) s .preconditionViolation
    ((nonceTest_holds rfl).trans (decide_eq_false (not_not.2 hl)))
  obtain ⟨st1, j1, opening⟩ := reaches_opening (prog := sealProg) (rest := aadProg ++ sealBody) (nonce := nonce) (p := p)
    (a := a) (st := .num 0) (j := .num 0) (n := .num 0) (c := .num 0) (w := .num 0) (b := .num 0) (more := []) s hk
    (by decide +kernel) (by decide +kernel)
  obtain ⟨st2, j2, n2, d, aad⟩ := reaches_absorbedAad (prog := sealProg) (rest := sealBody) (nonce := nonce) (p := p)
    (a := a) (st := st1) (j := j1) (n := .num 0) (c := .num 0) (w := .num 0) (b := .num 0) (more := []) s
    (by decide +kernel) (by decide +kernel)
  obtain ⟨st3, j3, n3, w3, b3, din, dout, cb, text⟩ := reaches_absorbedText (nonce := nonce) (p := p) (a := a) (st := st2)
    (j := j2) (n := n2) (w := .num 0) (b := .num 0) (more := []) d s.dout s hk
  obtain ⟨st4, tag⟩ := reaches_tagged (prog := sealProg) (rest := sealReturn) (nonce := nonce) (p := p) (a := a) (st := st3)
    (j := j3) (n := n3) (c := .bytes (sealedText nonce p s)) (w := w3) (b := b3) (more := []) (sealedText nonce p s) din
    dout cb s hk
  refine ⟨tagged nonce a (sealedText nonce p s) din dout cb s, ?_⟩
  conv => arg 2; rw [sealProg_eq]
  exact (nonceOk.trans (opening.trans (aad.trans ((reaches_assign _ 6 _).trans (text.trans tag))))).ends
    (ends_sealReturn _ _ rfl)

/-- Settles O59: the check of the nonce refuses, or the parts of the listing follow one another to its return. -/
theorem sealReturnsCiphertextAndTag : Obligations.SealReturnsCiphertextAndTag := by
  unfold Obligations.SealReturnsCiphertextAndTag
  intro s nonce p a hb hh
  constructor
  · intro hl hk
    obtain ⟨t, ends⟩ := ends_seal s p a hk hl
    exact ends.endsAlone hb hh rfl fun _ _ _ _ hg => hg
  · exact fun hl => endsAlone_wrongNonce hb hh rfl hl

end Sys2Proof.Machine
end

/-! # OPEN (46_gcm.md R117, 60_exceptions.md R124, R125) -/

section

namespace Sys2Proof.Machine

/-! ## The listing, from each of its checks and loops on -/

/-- Pass 2 of OPEN. -/
def openText : List HostOp :=
  .assign 6 (.bytes []) :: (forLoop 4 (blockCount (.var 9)) 6 7 openBlockProg ++ [.ret [.var 6]])

/-- OPEN from the read of STATUS after GCM_VERIFY on. -/
def openVerdict : List HostOp :=
  .load 3 (.window (.num 0x004)) :: .failIf (fieldIs 3 5 1 1) .preconditionViolation ::
    .failIf (fieldIs 3 3 1 0) .authError :: openText

/-- OPEN from the write of the received tag on. -/
def openVerify : List HostOp := wrblk 0x0C0 (.var 10) ++ (run .gcmVerify 3 ++ openVerdict)

/-- OPEN after pass 1. -/
def openTag : List HostOp := run .ghashLen 3 ++ (run .gcmTag 3 ++ openVerify)

/-- OPEN after its pass over the associated data. -/
def openAuth : List HostOp := forLoop 4 (blockCount (.var 9)) 4 5 authBlockProg ++ openTag

/-- OPEN after its checks: the input is cut into c and the tag. -/
def openCut : List HostOp :=
  .assign 9 (.slice (.var 1) (.num 0) bodyLength) :: .assign 10 (.slice (.var 1) bodyLength (.num Config.overhead)) ::
    (openingProg ++ (aadProg ++ openAuth))

/-- OPEN's check that the input holds a tag. -/
def openLengthCheck : HostOp := .failIf (.lt (.len (.var 1)) (.num Config.overhead)) .authError

theorem openProg_eq : openProg = nonceCheck :: openLengthCheck :: openCut := openProg_parts

theorem blockAt_bytesOf (b : Block) : blockAt (bytesOf b) = b := by
  refine (blockOf_congr _ _ fun i hi => ?_).trans (blockOf_byteOf b)
  simp [bytesOf, hi]

/-- A tag of 16 bytes is the one computed exactly when it is so as a block. -/
theorem bytesOf_eq_iff {b : Block} {t : List Byte} (ht : t.length = 16) : bytesOf b = t ↔ b = blockAt t :=
  ⟨fun h => by rw [← h, blockAt_bytesOf], fun h => by rw [h, bytesOf_blockAt ht]⟩

/-- The registers once the received tag `t` is in RTAG too. -/
def received (nonce a c t : List Byte) (din : Block) (s : State) : State :=
  { tagged nonce a c din s.dout (inc32 (genCounter (nonceOf nonce))) s with rtag := blockAt t }

section
variable {nonce ct a d t : List Byte} {st j n c w b x y : Val}

/-- The input is cut before its last 16 bytes. -/
theorem reaches_cut (s : State) (hct : ct = d ++ t) (ht : t.length = 16) :
    Reaches openProg openCut (gcmLocals nonce ct a st j n c w b [x, y]) s (openingProg ++ (aadProg ++ openAuth))
      (gcmLocals nonce ct a st j n c w b [.bytes d, .bytes t]) s := by
  have body : ct.length - 16 = d.length := by rw [hct, List.length_append, ht, Nat.add_sub_cancel]
  have text : (ct.drop 0).take (ct.length - 16) = d := by rw [body, hct, List.drop_zero, List.take_left']; rfl
  have tag : (ct.drop (ct.length - 16)).take 16 = t := by rw [body, hct, List.drop_left' rfl, ← ht, List.take_length]
  have h := (reaches_assign (prog := openProg) (vs := gcmLocals nonce ct a st j n c w b [x, y])
    (rest := .assign 10 (.slice (.var 1) bodyLength (.num Config.overhead)) :: (openingProg ++ (aadProg ++ openAuth)))
    s 9 (.slice (.var 1) (.num 0) bodyLength)).trans (reaches_assign s 10 _)
  conv at h =>
    arg 6
    change gcmLocals nonce ct a st j n c w b
      [.bytes ((ct.drop 0).take (ct.length - 16)), .bytes ((ct.drop (ct.length - 16)).take 16)]
  rwa [text, tag] at h

/-- OPEN up to its verdict: the tag of `d` and the associated data stands in TAG, the received one in RTAG. -/
theorem reaches_verdict (s : State) (hk : s.keyValid = true) :
    ∃ st' j' n' din, Reaches openProg (openingProg ++ (aadProg ++ openAuth))
      (gcmLocals nonce ct a st j n c w b [.bytes d, .bytes t]) s openVerdict
      (gcmLocals nonce ct a st' j' n' c w b [.bytes d, .bytes t]) (verdict (received nonce a d t din s)) := by
  obtain ⟨st1, j1, opening⟩ := reaches_opening (prog := openProg) (rest := aadProg ++ openAuth) (nonce := nonce) (p := ct)
    (a := a) (st := st) (j := j) (n := n) (c := c) (w := w) (b := b) (more := [.bytes d, .bytes t]) s hk
    (by decide +kernel) (by decide +kernel)
  obtain ⟨st2, j2, n2, d2, aad⟩ := reaches_absorbedAad (prog := openProg) (rest := openAuth) (nonce := nonce) (p := ct)
    (a := a) (st := st1) (j := j1) (n := n) (c := c) (w := w) (b := b) (more := [.bytes d, .bytes t]) s
    (by decide +kernel) (by decide +kernel)
  obtain ⟨st3, j3, n3, din, text⟩ := reaches_auth (prog := openProg) (rest := openTag) (nonce := nonce) (p := ct) (a := a)
    (st := st2) (j := j2) (n := n2) (c := c) (w := w) (b := b) (d := d) (t := t)
    (absorbed nonce a [] d2 s.dout (inc32 (genCounter (nonceOf nonce))) s) rfl rfl (by decide +kernel) (by decide +kernel)
  rw [absorbed_nil_clen_add] at text
  obtain ⟨st4, tag⟩ := reaches_tagged (prog := openProg) (rest := openVerify) (nonce := nonce) (p := ct) (a := a)
    (st := st3) (j := j3) (n := n3) (c := c) (w := w) (b := b) (more := [.bytes d, .bytes t]) d din s.dout
    (inc32 (genCounter (nonceOf nonce))) s hk
  have verify : exec .gcmVerify (received nonce a d t din s) = .next (verdict (received nonce a d t din s)) :=
    exec_gcmVerify_valid rfl
  exact ⟨_, j3, n3, din, opening.trans (aad.trans (text.trans (tag.trans ((reaches_rtag _ t rfl).trans
    (reaches_runInstr .gcmVerify 3 (by decide) verify)))))⟩

/-- OPEN from the read of STATUS on, where no command has failed and the verdict is a mismatch. -/
theorem ends_openVerdict_refused {vs : List Val} (u : State) (he : u.err = false) (ho : u.tagOk = false) :
    Ends openProg openVerdict vs u (.failed .authError) u := by
  have hx := getLocal_setLocal 3 (.num (idleStatus u).toNat) vs
  exact ((reaches_status u 3).trans (reaches_failIf u _ ((errTest_holds hx).trans he))).ends
    (ends_failIf u _ ((tagOkTest_holds hx).trans (by rw [ho]; rfl)))

/-- OPEN from the read of STATUS on, where no command has failed and the tags are equal. -/
theorem ends_openVerdict_passed (u : State) (hk : u.keyValid = true) (he : u.err = false) (ho : u.tagOk = true) :
    ∃ q z, Ends openProg openVerdict (gcmLocals nonce ct a st j n c w b [.bytes d, .bytes t]) u
      (.returned [(gctr (cipherE u) u.cb d).1]) { u with din := q, dout := z, cb := (gctr (cipherE u) u.cb d).2 } := by
  have hx := getLocal_setLocal 3 (.num (idleStatus u).toNat) (gcmLocals nonce ct a st j n c w b [.bytes d, .bytes t])
  have noErr := reaches_failIf (prog := openProg) (rest := .failIf (fieldIs 3 3 1 0) .authError :: openText) u
    .preconditionViolation ((errTest_holds hx).trans he)
  have ok := reaches_failIf (prog := openProg) (rest := openText) u .authError
    ((tagOkTest_holds hx).trans (by rw [ho]; rfl))
  obtain ⟨st1, j1, n1, w1, b1, q, z, text⟩ := reaches_open (prog := openProg) (rest := [.ret [.var 6]]) (nonce := nonce)
    (p := ct) (a := a) (st := .num (idleStatus u).toNat) (j := j) (n := n) (w := w) (b := b) (d := d) (t := t) u hk ho
    (by decide +kernel) (by decide +kernel)
  rw [gctr_eq]
  exact ⟨q, z, ((reaches_status u 3).trans (noErr.trans (ok.trans ((reaches_assign u 6 _).trans text)))).ends
    (ends_ret _ _)⟩

end

/-! ## Whole runs of OPEN -/

/-- OPEN's checks pass with a 12-byte nonce and an input that holds a tag, and it comes to its verdict. -/
theorem reaches_openVerdict (s : State) {nonce ct d t : List Byte} (a : List Byte) (hk : s.keyValid = true)
    (hl : nonce.length = 12) (hct : ct = d ++ t) (ht : t.length = 16) :
    ∃ st j n din, Reaches openProg openProg (procOpen nonce ct a).locals s openVerdict
      (gcmLocals nonce ct a st j n (.num 0) (.num 0) (.num 0) [.bytes d, .bytes t])
      (verdict (received nonce a d t din s)) := by
  have long : ¬ ct.length < 16 := by simp [hct, ht]
  have nonceOk := reaches_failIf (prog := openProg) (rest := openLengthCheck :: openCut)
    (vs := (procOpen nonce ct a).locals) s .preconditionViolation
    ((nonceTest_holds rfl).trans (decide_eq_false (not_not.2 hl)))
  have lengthOk := reaches_failIf (prog := openProg) (rest := openCut) (vs := (procOpen nonce ct a).locals)
    (c := .lt (.len (.var 1)) (.num Config.overhead)) s .authError (decide_eq_false long)
  obtain ⟨st, j, n, din, h⟩ := reaches_verdict (nonce := nonce) (ct := ct) (a := a) (d := d) (t := t) (st := .num 0)
    (j := .num 0) (n := .num 0) (c := .num 0) (w := .num 0) (b := .num 0) s hk
  refine ⟨st, j, n, din, ?_⟩
  conv => arg 2; rw [openProg_eq]
  exact nonceOk.trans (lengthOk.trans ((reaches_cut s hct ht).trans h))

section
variable {s : State} {nonce ct a d t : List Byte} (hb : s.busy = false) (hh : s.hosts = [procOpen nonce ct a])
include hb hh

/-- An input shorter than a tag is refused before any access. -/
theorem endsAlone_open_short (hl : nonce.length = 12) (hct : ct.length < 16) :
    EndsAlone s (FailedUntouched .authError s) :=
  endsAlone_failed hb hh 2 rfl fun n =>
    (eagerRun_passes (n + 1) _ _ _ s _ ((nonceTest_holds rfl).trans (decide_eq_false (not_not.2 hl)))).trans
      (eagerRun_fails n _ _ _ s .authError (decide_eq_true hct))

variable (hk : s.keyValid = true) (hl : nonce.length = 12) (hct : ct = d ++ t) (ht : t.length = 16)
include hk hl hct ht

/-- The right tag: OPEN returns the transform of the text and leaves the verdict standing. -/
theorem endsAlone_open_passed (h : gcmTag (encryptBlock s.ks s.nr.toNat) (nonceOf nonce) d a = blockAt t) :
    EndsAlone s fun u g =>
      g.ending = .returned [(gctr (encryptBlock s.ks s.nr.toNat) (inc32 (genCounter (nonceOf nonce))) d).1] ∧
        u.tagOk = true ∧ u.authFail = false := by
  obtain ⟨st, j, n, din, reach⟩ := reaches_openVerdict s a hk hl hct ht
  rw [verdict_equal (s := received nonce a d t din s) h] at reach
  obtain ⟨q, z, ends⟩ := ends_openVerdict_passed (nonce := nonce) (ct := ct) (a := a) (d := d) (t := t) (st := st) (j := j)
    (n := n) (c := .num 0) (w := .num 0) (b := .num 0) { received nonce a d t din s with tagOk := true } hk rfl rfl
  exact (reach.ends ends).endsAlone hb hh rfl fun _ _ _ _ hg => ⟨hg, rfl, rfl⟩

/-- Any other tag: OPEN fails, returns nothing, and DOUT is as it was. -/
theorem endsAlone_open_refused (h : gcmTag (encryptBlock s.ks s.nr.toNat) (nonceOf nonce) d a ≠ blockAt t) :
    EndsAlone s fun u g =>
      g.ending = .failed .authError ∧ u.dout = s.dout ∧ u.tagOk = false ∧ u.authFail = true := by
  obtain ⟨st, j, n, din, reach⟩ := reaches_openVerdict s a hk hl hct ht
  rw [verdict_different (s := received nonce a d t din s) h] at reach
  exact (reach.ends (ends_openVerdict_refused _ rfl rfl)).endsAlone hb hh rfl fun _ _ _ _ hg => ⟨hg, rfl, rfl, rfl⟩

end

/-- Settles O60: the checks refuse, or OPEN comes to its verdict, which is equality of the computed and received tags. -/
theorem openRefusesWrongTag : Obligations.OpenRefusesWrongTag := by
  unfold Obligations.OpenRefusesWrongTag
  intro s nonce ct a hb hh
  refine ⟨fun hl => endsAlone_wrongNonce hb hh rfl hl, endsAlone_open_short hb hh, fun hl hk d t hct ht => ?_⟩
  simp only [ne_eq, bytesOf_eq_iff ht]
  by_cases h : gcmTag (encryptBlock s.ks s.nr.toNat) (nonceOf nonce) d a = blockAt t
  · exact (endsAlone_open_passed hb hh hk hl hct ht h).imp fun _ _ hp => ⟨fun _ => hp, fun hn => absurd h hn⟩
  · exact (endsAlone_open_refused hb hh hk hl hct ht h).imp fun _ _ hp => ⟨fun he => absurd he h, fun _ => hp⟩

end Sys2Proof.Machine
end

/-! # The errors a command raises (60_exceptions.md R119, R120, R122) -/

section

namespace Sys2Proof.Machine

/-- A command that has its effect leaves the error record, but for KEY_EXPAND without a key size (R84). -/
theorem effect_leaves_error {i : Instr} (s : State) (hi : i ≠ .keyExpand .invalid) :
    (effect i s).err = s.err ∧ (effect i s).errcode = s.errcode := by
  cases i with
  | keyExpand kl =>
    cases kl with
    | invalid => exact absurd rfl hi
    | _ => exact ⟨rfl, rfl⟩
  | gcmVerify => exact ⟨verdict_err s, verdict_errcode s⟩
  | _ => exact ⟨rfl, rfl⟩

/-- Settles O55: a failure's code is in the table, and the one effect that raises an error is KEY_EXPAND's. -/
theorem raisedErrorsAreTabled : Obligations.RaisedErrorsAreTabled := by
  unfold Obligations.RaisedErrorsAreTabled
  intro i s t h
  obtain ⟨code, hc, rfl⟩ | ⟨rfl, -, -⟩ := exec_next h
  · exact .inr ⟨rfl, hc⟩
  · by_cases hi : i = .keyExpand .invalid
    · subst hi
      exact .inr ⟨rfl, rfl⟩
    · exact .inl (effect_leaves_error s hi)

/-- Past the key check, an operand out of range is refused before anything else is looked at (R122). -/
theorem exec_badArg {i : Instr} {s : State} (hk : needsKey i = true → s.keyValid = true) (hc : mayRaise i s .badArg) :
    exec i s = .next (raiseError .badArg s) := by
  obtain ⟨rnd, rfl, hr⟩ | ⟨nb, hn, ⟨src, rfl⟩ | ⟨src, rfl⟩ | ⟨dir, rfl⟩⟩ := hc
  · exact (exec_addRoundKey_keyed rnd (hk rfl)).trans (failIf_next.2 (.inl ⟨rndIllegal_eq_true.2 hr, rfl⟩))
  · exact failIf_next.2 (.inl ⟨nbIllegal_eq_true.2 hn, rfl⟩)
  · exact failIf_next.2 (.inl ⟨nbIllegal_eq_true.2 hn, rfl⟩)
  · exact (exec_gctr_keyed nb dir (hk rfl)).trans (failIf_next.2 (.inl ⟨nbIllegal_eq_true.2 hn, rfl⟩))

/-- Past the key check, an opening GCTR without a verified tag fails: with BAD_ARG where NB is out of range too, and
else with AUTH_REQUIRED (R122). -/
theorem fails_gctr_unverified {s t : State} {nb : Nat} (h : exec (.gctr nb .opening) s = .next t)
    (hk : s.keyValid = true) (hok : s.tagOk = false) : Fails (.gctr nb .opening) s t := by
  rw [exec_gctr_keyed nb .opening hk, openingUnverified_eq_true.2 ⟨rfl, hok⟩, failIf_true] at h
  obtain ⟨hn, rfl⟩ | ⟨-, ⟨⟩⟩ := failIf_next.1 h
  · exact ⟨.badArg, .inr ⟨nb, nbIllegal_eq_true.1 hn, .inr (.inr ⟨.opening, rfl⟩)⟩, rfl⟩
  · exact ⟨.authRequired, ⟨nb, rfl, hok⟩, rfl⟩

/-- A command other than KEY_EXPAND fails where a cause of R119 holds, with a code whose cause holds. -/
theorem fails_of_mayRaise {i : Instr} {s t : State} {code : ErrCode} (h : exec i s = .next t)
    (hi : ∀ kl, i ≠ .keyExpand kl) (hc : mayRaise i s code) : Fails i s t := by
  obtain hf | ⟨-, keyed, tagged⟩ := exec_next h
  · exact hf
  cases code with
  | none => exact False.elim hc
  | illegalOp => exact False.elim hc
  | cmdBusy => exact False.elim hc
  | badKeylen => exact absurd hc (hi .invalid)
  | noKey =>
    obtain ⟨hn, hk⟩ := hc
    exact absurd (hk.symm.trans (keyed hn)) nofun
  | badArg =>
    cases (exec_badArg keyed hc).symm.trans h
    exact ⟨.badArg, hc, rfl⟩
  | authRequired =>
    obtain ⟨nb, rfl, hok⟩ := hc
    exact fails_gctr_unverified h (keyed rfl) hok
  | noTag =>
    obtain ⟨rfl, hv⟩ := hc
    exact absurd (hv.symm.trans (tagged rfl)) nofun

/-- A command other than KEY_EXPAND that changes the error record has failed. -/
theorem fails_of_error_changed {i : Instr} {s t : State} (h : exec i s = .next t) (hi : ∀ kl, i ≠ .keyExpand kl)
    (hne : t.err ≠ s.err ∨ t.errcode ≠ s.errcode) : Fails i s t := by
  obtain hf | ⟨rfl, -, -⟩ := exec_next h
  · exact hf
  · obtain ⟨herr, hcode⟩ := effect_leaves_error s (hi .invalid)
    exact hne.elim (absurd herr) (absurd hcode)

/-- Settles O54: an error once recorded stays (by O55), and either sign of a failure is one. -/
theorem failuresWriteOnlyTheError : Obligations.FailuresWriteOnlyTheError := by
  unfold Obligations.FailuresWriteOnlyTheError
  intro i s t h
  refine ⟨fun hs => ?errStays, fun hi hsign => ?fails⟩
  case errStays =>
    obtain ⟨herr, -⟩ | ⟨herr, -⟩ := raisedErrorsAreTabled i s t h
    · exact herr.trans hs
    · exact herr
  case fails =>
    obtain ⟨code, hc⟩ | hne := hsign
    · exact fails_of_mayRaise h hi hc
    · exact fails_of_error_changed h hi hne

end Sys2Proof.Machine
end

/-! # Accesses while a command is pending (60_exceptions.md R121) -/

section

namespace Sys2Proof.Laws

open Sys2Proof.Machine

/-- Settles O12: the write is refused, and a read has no check of BUSY. -/
theorem writesWhileBusyAreRefused : Obligations.WritesWhileBusyAreRefused := by
  unfold Obligations.WritesWhileBusyAreRefused
  intro s off v hb h h4
  refine ⟨⟨some .done, busAccess_write_busy v hb h h4⟩, ?read⟩
  case read =>
    rw [busAccess_base_add, accessAt_ok .read s h h4]
    rfl

end Sys2Proof.Laws
end

/-! # A command pending at reset (10_state.md R31, 70_reset_and_hazards.md R136) -/

section

namespace Sys2Proof.Machine

@[simp] theorem resetCore_pending (s : State) : (resetCore s).pending = 0 := rfl
@[simp] theorem resetCore_cmdLast (s : State) : (resetCore s).cmdLast = 0 := rfl

/-- The turn of reset. -/
theorem step_reset {s : State} (h : turnOf s = .reset) : step s = .next (resetCore (popTurn s)) := by
  rw [step_takeTurn, h]
  rfl

/-- Settles O24: reset leaves BUSY = 0, and with BUSY = 0 the core's turn is idle. -/
theorem resetDiscardsThePendingCommand : Obligations.ResetDiscardsThePendingCommand := by
  unfold Obligations.ResetDiscardsThePendingCommand
  intro s t hreset h
  cases (step_reset hreset).symm.trans h
  have hb := resetCore_busy (popTurn s)
  exact ⟨hb, resetCore_pending _, resetCore_cmdLast _, fun hcore => step_idle hcore hb⟩

end Sys2Proof.Machine
end
